-- ==== Sys2Proof/Word.lean ====
section
/-! DEFINITION. The word types of the core (00_scope.md R7, R8): every register and address is 32 bits
and arithmetic on them wraps, which is BitVec arithmetic. -/

namespace Sys2Proof

/-- A register, an address, a pipeline slot or an instruction word: 32 bits (00_scope.md R7). -/
abbrev Word := BitVec 32

/-- One byte of the memory behind the bus (20_memory.md R28). -/
abbrev Byte := BitVec 8

/-- A visible register number, 0 to 15 (10_state.md R10). -/
abbrev Reg := Fin 16

end Sys2Proof
end

