-- ==== Sys2Proof/Config.lean ====
section
/-! DEFINITION. The named parameters of the core (00_scope.md R7): every value the spec allows for each, and
the values State.reset is built with. The parameters are DATA of a state (State.params), so that a statement about
every state is a statement about every choice of them (notes/assumptions/1.md, 2.md). -/

namespace Sys2Proof

/-- `COMPARE_RD_CHECK`: does the decoder check the Rd field of TST, TEQ, CMP and CMN (30_encoding.md R50, D6)? -/
inductive CompareRdCheck where
  /-- Every Rd field is accepted (the spec's default). -/
  | any
  /-- Only 0b0000 and 0b1111 are accepted. -/
  | zeroOrFifteen
  deriving DecidableEq, Repr

/-- `STM_PC_LEAD`: what STM adds to the exec address when it stores R15 (44_block_transfer.md R108, D9). OPEN. -/
inductive StmPcLead where
  | eight
  | twelve
  deriving DecidableEq, Repr

/-- `BLOCK_S_BIT`: the meaning of the S bit of LDM and STM (44_block_transfer.md R112, D10). -/
inductive BlockSBit where
  /-- LDM and STM with S = 1 are refused (the spec's default). -/
  | refuse
  /-- The user-bank transfer, or the status restore of an LDM that loads R15. -/
  | armV4
  deriving DecidableEq, Repr

/-- `MISALIGNED_FETCH` and `MISALIGNED_BLOCK` (20_memory.md R32, R33, D11, D12). -/
inductive MisalignedPolicy where
  /-- The access stops the core (the spec's default). -/
  | fault
  /-- The address is presented to the bus unchanged. -/
  | passToBus
  deriving DecidableEq, Repr

/-- `RESET_IF`: the reset values of CPSR.I and CPSR.F (10_state.md R23, D3). OPEN. -/
inductive ResetIF where
  | bothSet
  | bothClear
  deriving DecidableEq, Repr

/-- `BYTE_ORDER`: how the bus is bound to a memory of bytes (20_memory.md R31, D15). -/
inductive ByteOrder where
  /-- The byte at the lowest address is the least significant (the spec's default). -/
  | little
  /-- PRESUMED (notes/assumptions/6.md): the byte at the lowest address is the most significant. -/
  | big
  deriving DecidableEq, Repr

/-- The named parameters of 00_scope.md R7, fixed at construction (70_reset_and_hazards.md R129). -/
structure Params where
  compareRdCheck  : CompareRdCheck
  stmPcLead       : StmPcLead
  blockSBit       : BlockSBit
  misalignedFetch : MisalignedPolicy
  misalignedBlock : MisalignedPolicy
  resetIF         : ResetIF
  byteOrder       : ByteOrder
  deriving DecidableEq, Repr

/-- The spec's defaults (00_scope.md R7). The two OPEN parameters take the values the spec's vectors
use, STM_PC_LEAD = 12 and RESET_IF = (1, 1): DESIGN CHOICE, notes/assumptions/2.md. -/
def Params.standard : Params where
  compareRdCheck := .any
  stmPcLead := .twelve
  blockSBit := .refuse
  misalignedFetch := .fault
  misalignedBlock := .fault
  resetIF := .bothSet
  byteOrder := .little

end Sys2Proof
end

