-- ==== Sys2Proof/Syntax.lean ====
section
/-! DEFINITION. The instructions of the core as data: one constructor of Instr per row of spec/opcode_table.json
(53 rows), with the row's fields as arguments, and the decoder's own five variants (30_encoding.md R42). -/

namespace Sys2Proof

/-- The 16 condition predicates, in the order of their codes (30_encoding.md R41). -/
inductive Cond where
  | equal | notEqual | carrySet | carryClear | minus | plus | overflow | noOverflow
  | unsignedHigher | unsignedLowerOrSame | greaterOrEqual | lessThan | greaterThan | lessOrEqual
  | always | never
  deriving DecidableEq, Repr

/-- The 16 data-processing operations, in the order of their opcodes (30_encoding.md R47). -/
inductive DpOp where
  | and | eor | sub | rsb | add | adc | sbc | rsc | tst | teq | cmp | cmn | orr | mov | bic | mvn
  deriving DecidableEq, Repr

/-- The shift types, in the order of their codes (30_encoding.md R49). -/
inductive ShiftType where
  | lsl | lsr | asr | ror
  deriving DecidableEq, Repr

/-- The second operand of a data-processing instruction (30_encoding.md R48). The plain immediate is
`imm` with `rot = 0`, and the plain register is `regImm` with `lsl` and amount 0. -/
inductive Operand2 where
  | imm (rot : BitVec 4) (imm8 : BitVec 8)
  | regImm (rm : Reg) (ty : ShiftType) (amount5 : BitVec 5)
  | regReg (rm : Reg) (ty : ShiftType) (rs : Reg)
  deriving DecidableEq, Repr

/-- What the decoder answers for bits 27:0 of a word: the closed set of five variants of 30_encoding.md R42.
The condition field is not part of it (R40). -/
inductive Decoded where
  | branch (offset24 : BitVec 24)
  | branchLink (offset24 : BitVec 24)
  | branchExchange (rm : Reg)
  | dataProcessing (op : DpOp) (rd rn : Reg) (op2 : Operand2) (setFlags : Bool)
  | blockDataTransfer (load p u sBit w : Bool) (rn : Reg) (list : BitVec 16)
  deriving DecidableEq, Repr

/-- One constructor per row of spec/opcode_table.json. The arguments are the row's fields: `cond` is bits 31:28,
`setFlags` the S bit, and `p u sBit w` the bits 24, 23, 22 and 21 of a block transfer. Compares have no S field
(it is 1) and MOV and MVN no Rn field (it is 0), as in the table (30_encoding.md R50). -/
inductive Instr where
  /-- R69 -/
  | b (cond : Cond) (offset24 : BitVec 24)
  /-- R70 -/
  | bl (cond : Cond) (offset24 : BitVec 24)
  /-- R71 -/
  | bx (cond : Cond) (rm : Reg)
  /-- R89, immediate operand -/
  | andImm (cond : Cond) (setFlags : Bool) (rn rd : Reg) (rot : BitVec 4) (imm8 : BitVec 8)
  /-- R89, register operand with immediate shift -/
  | andShiftImm (cond : Cond) (setFlags : Bool) (rn rd : Reg) (amount5 : BitVec 5) (ty : ShiftType) (rm : Reg)
  /-- R89, register operand with register shift -/
  | andShiftReg (cond : Cond) (setFlags : Bool) (rn rd : Reg) (rs : Reg) (ty : ShiftType) (rm : Reg)
  /-- R90, immediate operand -/
  | eorImm (cond : Cond) (setFlags : Bool) (rn rd : Reg) (rot : BitVec 4) (imm8 : BitVec 8)
  /-- R90, register operand with immediate shift -/
  | eorShiftImm (cond : Cond) (setFlags : Bool) (rn rd : Reg) (amount5 : BitVec 5) (ty : ShiftType) (rm : Reg)
  /-- R90, register operand with register shift -/
  | eorShiftReg (cond : Cond) (setFlags : Bool) (rn rd : Reg) (rs : Reg) (ty : ShiftType) (rm : Reg)
  /-- R91, immediate operand -/
  | subImm (cond : Cond) (setFlags : Bool) (rn rd : Reg) (rot : BitVec 4) (imm8 : BitVec 8)
  /-- R91, register operand with immediate shift -/
  | subShiftImm (cond : Cond) (setFlags : Bool) (rn rd : Reg) (amount5 : BitVec 5) (ty : ShiftType) (rm : Reg)
  /-- R91, register operand with register shift -/
  | subShiftReg (cond : Cond) (setFlags : Bool) (rn rd : Reg) (rs : Reg) (ty : ShiftType) (rm : Reg)
  /-- R92, immediate operand -/
  | rsbImm (cond : Cond) (setFlags : Bool) (rn rd : Reg) (rot : BitVec 4) (imm8 : BitVec 8)
  /-- R92, register operand with immediate shift -/
  | rsbShiftImm (cond : Cond) (setFlags : Bool) (rn rd : Reg) (amount5 : BitVec 5) (ty : ShiftType) (rm : Reg)
  /-- R92, register operand with register shift -/
  | rsbShiftReg (cond : Cond) (setFlags : Bool) (rn rd : Reg) (rs : Reg) (ty : ShiftType) (rm : Reg)
  /-- R93, immediate operand -/
  | addImm (cond : Cond) (setFlags : Bool) (rn rd : Reg) (rot : BitVec 4) (imm8 : BitVec 8)
  /-- R93, register operand with immediate shift -/
  | addShiftImm (cond : Cond) (setFlags : Bool) (rn rd : Reg) (amount5 : BitVec 5) (ty : ShiftType) (rm : Reg)
  /-- R93, register operand with register shift -/
  | addShiftReg (cond : Cond) (setFlags : Bool) (rn rd : Reg) (rs : Reg) (ty : ShiftType) (rm : Reg)
  /-- R94, immediate operand -/
  | adcImm (cond : Cond) (setFlags : Bool) (rn rd : Reg) (rot : BitVec 4) (imm8 : BitVec 8)
  /-- R94, register operand with immediate shift -/
  | adcShiftImm (cond : Cond) (setFlags : Bool) (rn rd : Reg) (amount5 : BitVec 5) (ty : ShiftType) (rm : Reg)
  /-- R94, register operand with register shift -/
  | adcShiftReg (cond : Cond) (setFlags : Bool) (rn rd : Reg) (rs : Reg) (ty : ShiftType) (rm : Reg)
  /-- R95, immediate operand -/
  | sbcImm (cond : Cond) (setFlags : Bool) (rn rd : Reg) (rot : BitVec 4) (imm8 : BitVec 8)
  /-- R95, register operand with immediate shift -/
  | sbcShiftImm (cond : Cond) (setFlags : Bool) (rn rd : Reg) (amount5 : BitVec 5) (ty : ShiftType) (rm : Reg)
  /-- R95, register operand with register shift -/
  | sbcShiftReg (cond : Cond) (setFlags : Bool) (rn rd : Reg) (rs : Reg) (ty : ShiftType) (rm : Reg)
  /-- R96, immediate operand -/
  | rscImm (cond : Cond) (setFlags : Bool) (rn rd : Reg) (rot : BitVec 4) (imm8 : BitVec 8)
  /-- R96, register operand with immediate shift -/
  | rscShiftImm (cond : Cond) (setFlags : Bool) (rn rd : Reg) (amount5 : BitVec 5) (ty : ShiftType) (rm : Reg)
  /-- R96, register operand with register shift -/
  | rscShiftReg (cond : Cond) (setFlags : Bool) (rn rd : Reg) (rs : Reg) (ty : ShiftType) (rm : Reg)
  /-- R97, immediate operand -/
  | tstImm (cond : Cond) (rn rd : Reg) (rot : BitVec 4) (imm8 : BitVec 8)
  /-- R97, register operand with immediate shift -/
  | tstShiftImm (cond : Cond) (rn rd : Reg) (amount5 : BitVec 5) (ty : ShiftType) (rm : Reg)
  /-- R97, register operand with register shift -/
  | tstShiftReg (cond : Cond) (rn rd : Reg) (rs : Reg) (ty : ShiftType) (rm : Reg)
  /-- R98, immediate operand -/
  | teqImm (cond : Cond) (rn rd : Reg) (rot : BitVec 4) (imm8 : BitVec 8)
  /-- R98, register operand with immediate shift -/
  | teqShiftImm (cond : Cond) (rn rd : Reg) (amount5 : BitVec 5) (ty : ShiftType) (rm : Reg)
  /-- R98, register operand with register shift -/
  | teqShiftReg (cond : Cond) (rn rd : Reg) (rs : Reg) (ty : ShiftType) (rm : Reg)
  /-- R99, immediate operand -/
  | cmpImm (cond : Cond) (rn rd : Reg) (rot : BitVec 4) (imm8 : BitVec 8)
  /-- R99, register operand with immediate shift -/
  | cmpShiftImm (cond : Cond) (rn rd : Reg) (amount5 : BitVec 5) (ty : ShiftType) (rm : Reg)
  /-- R99, register operand with register shift -/
  | cmpShiftReg (cond : Cond) (rn rd : Reg) (rs : Reg) (ty : ShiftType) (rm : Reg)
  /-- R100, immediate operand -/
  | cmnImm (cond : Cond) (rn rd : Reg) (rot : BitVec 4) (imm8 : BitVec 8)
  /-- R100, register operand with immediate shift -/
  | cmnShiftImm (cond : Cond) (rn rd : Reg) (amount5 : BitVec 5) (ty : ShiftType) (rm : Reg)
  /-- R100, register operand with register shift -/
  | cmnShiftReg (cond : Cond) (rn rd : Reg) (rs : Reg) (ty : ShiftType) (rm : Reg)
  /-- R101, immediate operand -/
  | orrImm (cond : Cond) (setFlags : Bool) (rn rd : Reg) (rot : BitVec 4) (imm8 : BitVec 8)
  /-- R101, register operand with immediate shift -/
  | orrShiftImm (cond : Cond) (setFlags : Bool) (rn rd : Reg) (amount5 : BitVec 5) (ty : ShiftType) (rm : Reg)
  /-- R101, register operand with register shift -/
  | orrShiftReg (cond : Cond) (setFlags : Bool) (rn rd : Reg) (rs : Reg) (ty : ShiftType) (rm : Reg)
  /-- R102, immediate operand -/
  | movImm (cond : Cond) (setFlags : Bool) (rd : Reg) (rot : BitVec 4) (imm8 : BitVec 8)
  /-- R102, register operand with immediate shift -/
  | movShiftImm (cond : Cond) (setFlags : Bool) (rd : Reg) (amount5 : BitVec 5) (ty : ShiftType) (rm : Reg)
  /-- R102, register operand with register shift -/
  | movShiftReg (cond : Cond) (setFlags : Bool) (rd : Reg) (rs : Reg) (ty : ShiftType) (rm : Reg)
  /-- R103, immediate operand -/
  | bicImm (cond : Cond) (setFlags : Bool) (rn rd : Reg) (rot : BitVec 4) (imm8 : BitVec 8)
  /-- R103, register operand with immediate shift -/
  | bicShiftImm (cond : Cond) (setFlags : Bool) (rn rd : Reg) (amount5 : BitVec 5) (ty : ShiftType) (rm : Reg)
  /-- R103, register operand with register shift -/
  | bicShiftReg (cond : Cond) (setFlags : Bool) (rn rd : Reg) (rs : Reg) (ty : ShiftType) (rm : Reg)
  /-- R104, immediate operand -/
  | mvnImm (cond : Cond) (setFlags : Bool) (rd : Reg) (rot : BitVec 4) (imm8 : BitVec 8)
  /-- R104, register operand with immediate shift -/
  | mvnShiftImm (cond : Cond) (setFlags : Bool) (rd : Reg) (amount5 : BitVec 5) (ty : ShiftType) (rm : Reg)
  /-- R104, register operand with register shift -/
  | mvnShiftReg (cond : Cond) (setFlags : Bool) (rd : Reg) (rs : Reg) (ty : ShiftType) (rm : Reg)
  /-- R114 -/
  | ldm (cond : Cond) (p u sBit w : Bool) (rn : Reg) (list : BitVec 16)
  /-- R115 -/
  | stm (cond : Cond) (p u sBit w : Bool) (rn : Reg) (list : BitVec 16)
  deriving DecidableEq, Repr

end Sys2Proof
end

