-- ==== Sys2Proof/WellFormed.lean ====
section
/-! DEFINITION. Well-formed instructions. The types of Syntax.lean admit only field values of the table's widths, and
the decoder of the spec rejects one combination of them: under COMPARE_RD_CHECK = ZeroOrFifteen, a compare whose Rd field is
neither 0 nor 15 (30_encoding.md R50 (3)). -/

namespace Sys2Proof

/-- Does the decoder accept this Rd field of a compare (30_encoding.md R50 (3))? -/
def compareRdAccepted (chk : CompareRdCheck) (rd : Reg) : Bool :=
  match chk with
  | .any => true
  | .zeroOrFifteen => decide (rd = 0) || decide (rd = 15)

/-- The instruction has an encoding that the decoder accepts under the parameter `chk`. -/
def Instr.wellFormed (chk : CompareRdCheck) (i : Instr) : Bool :=
  match i with
  | .b .. | .bl .. | .bx .. | .ldm .. | .stm .. => true
  | .andImm .. | .andShiftImm .. | .andShiftReg .. => true
  | .eorImm .. | .eorShiftImm .. | .eorShiftReg .. => true
  | .subImm .. | .subShiftImm .. | .subShiftReg .. => true
  | .rsbImm .. | .rsbShiftImm .. | .rsbShiftReg .. => true
  | .addImm .. | .addShiftImm .. | .addShiftReg .. => true
  | .adcImm .. | .adcShiftImm .. | .adcShiftReg .. => true
  | .sbcImm .. | .sbcShiftImm .. | .sbcShiftReg .. => true
  | .rscImm .. | .rscShiftImm .. | .rscShiftReg .. => true
  | .tstImm _ _ rd _ _ | .tstShiftImm _ _ rd _ _ _ | .tstShiftReg _ _ rd _ _ _ => compareRdAccepted chk rd
  | .teqImm _ _ rd _ _ | .teqShiftImm _ _ rd _ _ _ | .teqShiftReg _ _ rd _ _ _ => compareRdAccepted chk rd
  | .cmpImm _ _ rd _ _ | .cmpShiftImm _ _ rd _ _ _ | .cmpShiftReg _ _ rd _ _ _ => compareRdAccepted chk rd
  | .cmnImm _ _ rd _ _ | .cmnShiftImm _ _ rd _ _ _ | .cmnShiftReg _ _ rd _ _ _ => compareRdAccepted chk rd
  | .orrImm .. | .orrShiftImm .. | .orrShiftReg .. => true
  | .movImm .. | .movShiftImm .. | .movShiftReg .. => true
  | .bicImm .. | .bicShiftImm .. | .bicShiftReg .. => true
  | .mvnImm .. | .mvnShiftImm .. | .mvnShiftReg .. => true

end Sys2Proof
end

