-- ==== Sys2Proof/Decode.lean ====
section
/-! DEFINITION. The decoder (30_encoding.md R40-R52), total on every word and rejecting by name, and after it the
encoder written from the same format tables. Both go through the five variants of R42. -/

namespace Sys2Proof

/-- Why a word is unrecognized (30_encoding.md R43, R50, R52). -/
inductive Reject where
  /-- Bits 27:25 are none of 101, 100, 00x: no family pattern matches (R43, R52). -/
  | noFamily
  /-- TST, TEQ, CMP or CMN with S = 0, and not the BX pattern (R50 (1)). -/
  | compareWithoutS
  /-- MOV or MVN with a non-zero Rn field (R50 (2)). -/
  | moveWithRn
  /-- A compare whose Rd field fails COMPARE_RD_CHECK (R50 (3)). -/
  | compareRd
  /-- Register form with bit 4 = 1 and bit 7 = 1 (R50 (4)). -/
  | bits4And7
  deriving DecidableEq, Repr

/-! ## Field codes -/

/-- The condition named by a code (30_encoding.md R41). The last arm is code 15. -/
def Cond.ofCode (code : BitVec 4) : Cond :=
  match code.toNat with
  | 0 => .equal | 1 => .notEqual | 2 => .carrySet | 3 => .carryClear
  | 4 => .minus | 5 => .plus | 6 => .overflow | 7 => .noOverflow
  | 8 => .unsignedHigher | 9 => .unsignedLowerOrSame | 10 => .greaterOrEqual | 11 => .lessThan
  | 12 => .greaterThan | 13 => .lessOrEqual | 14 => .always | _ => .never

/-- The code of a condition (30_encoding.md R41). -/
def Cond.code : Cond → BitVec 4
  | .equal => 0b0000#4 | .notEqual => 0b0001#4 | .carrySet => 0b0010#4 | .carryClear => 0b0011#4
  | .minus => 0b0100#4 | .plus => 0b0101#4 | .overflow => 0b0110#4 | .noOverflow => 0b0111#4
  | .unsignedHigher => 0b1000#4 | .unsignedLowerOrSame => 0b1001#4
  | .greaterOrEqual => 0b1010#4 | .lessThan => 0b1011#4
  | .greaterThan => 0b1100#4 | .lessOrEqual => 0b1101#4 | .always => 0b1110#4 | .never => 0b1111#4

/-- The operation named by an opcode (30_encoding.md R47). The last arm is opcode 15. -/
def DpOp.ofCode (code : BitVec 4) : DpOp :=
  match code.toNat with
  | 0 => .and | 1 => .eor | 2 => .sub | 3 => .rsb | 4 => .add | 5 => .adc | 6 => .sbc | 7 => .rsc
  | 8 => .tst | 9 => .teq | 10 => .cmp | 11 => .cmn | 12 => .orr | 13 => .mov | 14 => .bic | _ => .mvn

/-- The opcode of an operation (30_encoding.md R47). -/
def DpOp.code : DpOp → BitVec 4
  | .and => 0b0000#4 | .eor => 0b0001#4 | .sub => 0b0010#4 | .rsb => 0b0011#4
  | .add => 0b0100#4 | .adc => 0b0101#4 | .sbc => 0b0110#4 | .rsc => 0b0111#4
  | .tst => 0b1000#4 | .teq => 0b1001#4 | .cmp => 0b1010#4 | .cmn => 0b1011#4
  | .orr => 0b1100#4 | .mov => 0b1101#4 | .bic => 0b1110#4 | .mvn => 0b1111#4

/-- TST, TEQ, CMP and CMN: the comparison-only operations (30_encoding.md R47). -/
def DpOp.isCompare : DpOp → Bool
  | .tst | .teq | .cmp | .cmn => true
  | .and | .eor | .sub | .rsb | .add | .adc | .sbc | .rsc | .orr | .mov | .bic | .mvn => false

/-- MOV and MVN, whose Rn field must be 0 and which do not read Rn (30_encoding.md R47, R50). -/
def DpOp.isMove : DpOp → Bool
  | .mov | .mvn => true
  | .and | .eor | .sub | .rsb | .add | .adc | .sbc | .rsc | .tst | .teq | .cmp | .cmn | .orr | .bic => false

/-- The shift type named by a code (30_encoding.md R49). -/
def ShiftType.ofCode (code : BitVec 2) : ShiftType :=
  match code.toFin with
  | 0 => .lsl | 1 => .lsr | 2 => .asr | 3 => .ror

/-- The code of a shift type (30_encoding.md R49). -/
def ShiftType.code : ShiftType → BitVec 2
  | .lsl => 0b00#2 | .lsr => 0b01#2 | .asr => 0b10#2 | .ror => 0b11#2

/-! ## The decoder -/

/-- The field `w[lo+3 : lo]` as a register number. -/
def regField (w : Word) (lo : Nat) : Reg := (w.extractLsb' lo 4).toFin

/-- The condition field, bits 31:28 of every word (30_encoding.md R40, R41). -/
def condField (w : Word) : Cond := Cond.ofCode (w.extractLsb' 28 4)

/-- The second operand of a data-processing word (30_encoding.md R48, R50 (4)). -/
def decodeOperand2 (w : Word) : Except Reject Operand2 :=
  if w.getLsbD 25 then .ok (.imm (w.extractLsb' 8 4) (w.extractLsb' 0 8))
  else if !w.getLsbD 4 then
    .ok (.regImm (regField w 0) (ShiftType.ofCode (w.extractLsb' 5 2)) (w.extractLsb' 7 5))
  else if !w.getLsbD 7 then
    .ok (.regReg (regField w 0) (ShiftType.ofCode (w.extractLsb' 5 2)) (regField w 8))
  else .error .bits4And7

/-- `DecodeDP` of 30_encoding.md R50, its four rejections in the rule's order. -/
def decodeDP (chk : CompareRdCheck) (w : Word) : Except Reject Decoded :=
  let op := DpOp.ofCode (w.extractLsb' 21 4)
  let setFlags := w.getLsbD 20
  let rn := regField w 16
  let rd := regField w 12
  if op.isCompare && !setFlags then .error .compareWithoutS
  else if op.isMove && decide (rn ≠ 0) then .error .moveWithRn
  else if op.isCompare && !compareRdAccepted chk rd then .error .compareRd
  else
    match decodeOperand2 w with
    | .ok op2 => .ok (.dataProcessing op rd rn op2 setFlags)
    | .error e => .error e

/-- `DecodeBranch` of 30_encoding.md R44: bit 24 tells Branch from BranchLink. -/
def decodeBranch (w : Word) : Decoded :=
  if w.getLsbD 24 then .branchLink (w.extractLsb' 0 24) else .branch (w.extractLsb' 0 24)

/-- `DecodeBDT` of 30_encoding.md R51: P 24, U 23, S 22, W 21, L 20, Rn 19:16, list 15:0. -/
def decodeBDT (w : Word) : Decoded :=
  .blockDataTransfer (w.getLsbD 20) (w.getLsbD 24) (w.getLsbD 23) (w.getLsbD 22) (w.getLsbD 21)
    (regField w 16) (w.extractLsb' 0 16)

/-- `Decode` of 30_encoding.md R43: the family patterns in the document's order. -/
def decodeVariant (chk : CompareRdCheck) (w : Word) : Except Reject Decoded :=
  if w.extractLsb' 25 3 = 0b101#3 then .ok (decodeBranch w)
  else if w.extractLsb' 4 24 = 0x12FFF1#24 then .ok (.branchExchange (regField w 0))
  else if w.extractLsb' 26 2 = 0b00#2 then decodeDP chk w
  else if w.extractLsb' 25 3 = 0b100#3 then .ok (decodeBDT w)
  else .error .noFamily

/-- The instruction of the table that a condition and a variant make. An S field of a compare and an Rn field of
a move are not in the table's rows: `decodeDP` has checked them. -/
def Instr.ofDecoded (c : Cond) (d : Decoded) : Instr :=
  match d with
  | .branch offset24 => .b c offset24
  | .branchLink offset24 => .bl c offset24
  | .branchExchange rm => .bx c rm
  | .dataProcessing .and rd rn (.imm rot imm8) setFlags => .andImm c setFlags rn rd rot imm8
  | .dataProcessing .and rd rn (.regImm rm ty amount5) setFlags => .andShiftImm c setFlags rn rd amount5 ty rm
  | .dataProcessing .and rd rn (.regReg rm ty rs) setFlags => .andShiftReg c setFlags rn rd rs ty rm
  | .dataProcessing .eor rd rn (.imm rot imm8) setFlags => .eorImm c setFlags rn rd rot imm8
  | .dataProcessing .eor rd rn (.regImm rm ty amount5) setFlags => .eorShiftImm c setFlags rn rd amount5 ty rm
  | .dataProcessing .eor rd rn (.regReg rm ty rs) setFlags => .eorShiftReg c setFlags rn rd rs ty rm
  | .dataProcessing .sub rd rn (.imm rot imm8) setFlags => .subImm c setFlags rn rd rot imm8
  | .dataProcessing .sub rd rn (.regImm rm ty amount5) setFlags => .subShiftImm c setFlags rn rd amount5 ty rm
  | .dataProcessing .sub rd rn (.regReg rm ty rs) setFlags => .subShiftReg c setFlags rn rd rs ty rm
  | .dataProcessing .rsb rd rn (.imm rot imm8) setFlags => .rsbImm c setFlags rn rd rot imm8
  | .dataProcessing .rsb rd rn (.regImm rm ty amount5) setFlags => .rsbShiftImm c setFlags rn rd amount5 ty rm
  | .dataProcessing .rsb rd rn (.regReg rm ty rs) setFlags => .rsbShiftReg c setFlags rn rd rs ty rm
  | .dataProcessing .add rd rn (.imm rot imm8) setFlags => .addImm c setFlags rn rd rot imm8
  | .dataProcessing .add rd rn (.regImm rm ty amount5) setFlags => .addShiftImm c setFlags rn rd amount5 ty rm
  | .dataProcessing .add rd rn (.regReg rm ty rs) setFlags => .addShiftReg c setFlags rn rd rs ty rm
  | .dataProcessing .adc rd rn (.imm rot imm8) setFlags => .adcImm c setFlags rn rd rot imm8
  | .dataProcessing .adc rd rn (.regImm rm ty amount5) setFlags => .adcShiftImm c setFlags rn rd amount5 ty rm
  | .dataProcessing .adc rd rn (.regReg rm ty rs) setFlags => .adcShiftReg c setFlags rn rd rs ty rm
  | .dataProcessing .sbc rd rn (.imm rot imm8) setFlags => .sbcImm c setFlags rn rd rot imm8
  | .dataProcessing .sbc rd rn (.regImm rm ty amount5) setFlags => .sbcShiftImm c setFlags rn rd amount5 ty rm
  | .dataProcessing .sbc rd rn (.regReg rm ty rs) setFlags => .sbcShiftReg c setFlags rn rd rs ty rm
  | .dataProcessing .rsc rd rn (.imm rot imm8) setFlags => .rscImm c setFlags rn rd rot imm8
  | .dataProcessing .rsc rd rn (.regImm rm ty amount5) setFlags => .rscShiftImm c setFlags rn rd amount5 ty rm
  | .dataProcessing .rsc rd rn (.regReg rm ty rs) setFlags => .rscShiftReg c setFlags rn rd rs ty rm
  | .dataProcessing .tst rd rn (.imm rot imm8) _ => .tstImm c rn rd rot imm8
  | .dataProcessing .tst rd rn (.regImm rm ty amount5) _ => .tstShiftImm c rn rd amount5 ty rm
  | .dataProcessing .tst rd rn (.regReg rm ty rs) _ => .tstShiftReg c rn rd rs ty rm
  | .dataProcessing .teq rd rn (.imm rot imm8) _ => .teqImm c rn rd rot imm8
  | .dataProcessing .teq rd rn (.regImm rm ty amount5) _ => .teqShiftImm c rn rd amount5 ty rm
  | .dataProcessing .teq rd rn (.regReg rm ty rs) _ => .teqShiftReg c rn rd rs ty rm
  | .dataProcessing .cmp rd rn (.imm rot imm8) _ => .cmpImm c rn rd rot imm8
  | .dataProcessing .cmp rd rn (.regImm rm ty amount5) _ => .cmpShiftImm c rn rd amount5 ty rm
  | .dataProcessing .cmp rd rn (.regReg rm ty rs) _ => .cmpShiftReg c rn rd rs ty rm
  | .dataProcessing .cmn rd rn (.imm rot imm8) _ => .cmnImm c rn rd rot imm8
  | .dataProcessing .cmn rd rn (.regImm rm ty amount5) _ => .cmnShiftImm c rn rd amount5 ty rm
  | .dataProcessing .cmn rd rn (.regReg rm ty rs) _ => .cmnShiftReg c rn rd rs ty rm
  | .dataProcessing .orr rd rn (.imm rot imm8) setFlags => .orrImm c setFlags rn rd rot imm8
  | .dataProcessing .orr rd rn (.regImm rm ty amount5) setFlags => .orrShiftImm c setFlags rn rd amount5 ty rm
  | .dataProcessing .orr rd rn (.regReg rm ty rs) setFlags => .orrShiftReg c setFlags rn rd rs ty rm
  | .dataProcessing .mov rd _ (.imm rot imm8) setFlags => .movImm c setFlags rd rot imm8
  | .dataProcessing .mov rd _ (.regImm rm ty amount5) setFlags => .movShiftImm c setFlags rd amount5 ty rm
  | .dataProcessing .mov rd _ (.regReg rm ty rs) setFlags => .movShiftReg c setFlags rd rs ty rm
  | .dataProcessing .bic rd rn (.imm rot imm8) setFlags => .bicImm c setFlags rn rd rot imm8
  | .dataProcessing .bic rd rn (.regImm rm ty amount5) setFlags => .bicShiftImm c setFlags rn rd amount5 ty rm
  | .dataProcessing .bic rd rn (.regReg rm ty rs) setFlags => .bicShiftReg c setFlags rn rd rs ty rm
  | .dataProcessing .mvn rd _ (.imm rot imm8) setFlags => .mvnImm c setFlags rd rot imm8
  | .dataProcessing .mvn rd _ (.regImm rm ty amount5) setFlags => .mvnShiftImm c setFlags rd amount5 ty rm
  | .dataProcessing .mvn rd _ (.regReg rm ty rs) setFlags => .mvnShiftReg c setFlags rd rs ty rm
  | .blockDataTransfer true p u sBit w rn list => .ldm c p u sBit w rn list
  | .blockDataTransfer false p u sBit w rn list => .stm c p u sBit w rn list

/-- The decoder: a pure function of the word and of COMPARE_RD_CHECK (30_encoding.md R42). -/
def decode (chk : CompareRdCheck) (w : Word) : Except Reject Instr :=
  match decodeVariant chk w with
  | .ok d => .ok (Instr.ofDecoded (condField w) d)
  | .error e => .error e

/-! ## The encoder -/

/-- The condition field of an instruction. -/
def Instr.cond : Instr → Cond
  | .b c .. | .bl c .. | .bx c .. | .ldm c .. | .stm c .. => c
  | .andImm c .. | .andShiftImm c .. | .andShiftReg c .. => c
  | .eorImm c .. | .eorShiftImm c .. | .eorShiftReg c .. => c
  | .subImm c .. | .subShiftImm c .. | .subShiftReg c .. => c
  | .rsbImm c .. | .rsbShiftImm c .. | .rsbShiftReg c .. => c
  | .addImm c .. | .addShiftImm c .. | .addShiftReg c .. => c
  | .adcImm c .. | .adcShiftImm c .. | .adcShiftReg c .. => c
  | .sbcImm c .. | .sbcShiftImm c .. | .sbcShiftReg c .. => c
  | .rscImm c .. | .rscShiftImm c .. | .rscShiftReg c .. => c
  | .tstImm c .. | .tstShiftImm c .. | .tstShiftReg c .. => c
  | .teqImm c .. | .teqShiftImm c .. | .teqShiftReg c .. => c
  | .cmpImm c .. | .cmpShiftImm c .. | .cmpShiftReg c .. => c
  | .cmnImm c .. | .cmnShiftImm c .. | .cmnShiftReg c .. => c
  | .orrImm c .. | .orrShiftImm c .. | .orrShiftReg c .. => c
  | .movImm c .. | .movShiftImm c .. | .movShiftReg c .. => c
  | .bicImm c .. | .bicShiftImm c .. | .bicShiftReg c .. => c
  | .mvnImm c .. | .mvnShiftImm c .. | .mvnShiftReg c .. => c

/-- The decoder's variant of an instruction (30_encoding.md R42), with the S bit of a compare (1) and the Rn field of
a move (0) filled in as R50 requires them. -/
def Instr.variant : Instr → Decoded
  | .b _ offset24 => .branch offset24
  | .bl _ offset24 => .branchLink offset24
  | .bx _ rm => .branchExchange rm
  | .andImm _ setFlags rn rd rot imm8 => .dataProcessing .and rd rn (.imm rot imm8) setFlags
  | .andShiftImm _ setFlags rn rd amount5 ty rm => .dataProcessing .and rd rn (.regImm rm ty amount5) setFlags
  | .andShiftReg _ setFlags rn rd rs ty rm => .dataProcessing .and rd rn (.regReg rm ty rs) setFlags
  | .eorImm _ setFlags rn rd rot imm8 => .dataProcessing .eor rd rn (.imm rot imm8) setFlags
  | .eorShiftImm _ setFlags rn rd amount5 ty rm => .dataProcessing .eor rd rn (.regImm rm ty amount5) setFlags
  | .eorShiftReg _ setFlags rn rd rs ty rm => .dataProcessing .eor rd rn (.regReg rm ty rs) setFlags
  | .subImm _ setFlags rn rd rot imm8 => .dataProcessing .sub rd rn (.imm rot imm8) setFlags
  | .subShiftImm _ setFlags rn rd amount5 ty rm => .dataProcessing .sub rd rn (.regImm rm ty amount5) setFlags
  | .subShiftReg _ setFlags rn rd rs ty rm => .dataProcessing .sub rd rn (.regReg rm ty rs) setFlags
  | .rsbImm _ setFlags rn rd rot imm8 => .dataProcessing .rsb rd rn (.imm rot imm8) setFlags
  | .rsbShiftImm _ setFlags rn rd amount5 ty rm => .dataProcessing .rsb rd rn (.regImm rm ty amount5) setFlags
  | .rsbShiftReg _ setFlags rn rd rs ty rm => .dataProcessing .rsb rd rn (.regReg rm ty rs) setFlags
  | .addImm _ setFlags rn rd rot imm8 => .dataProcessing .add rd rn (.imm rot imm8) setFlags
  | .addShiftImm _ setFlags rn rd amount5 ty rm => .dataProcessing .add rd rn (.regImm rm ty amount5) setFlags
  | .addShiftReg _ setFlags rn rd rs ty rm => .dataProcessing .add rd rn (.regReg rm ty rs) setFlags
  | .adcImm _ setFlags rn rd rot imm8 => .dataProcessing .adc rd rn (.imm rot imm8) setFlags
  | .adcShiftImm _ setFlags rn rd amount5 ty rm => .dataProcessing .adc rd rn (.regImm rm ty amount5) setFlags
  | .adcShiftReg _ setFlags rn rd rs ty rm => .dataProcessing .adc rd rn (.regReg rm ty rs) setFlags
  | .sbcImm _ setFlags rn rd rot imm8 => .dataProcessing .sbc rd rn (.imm rot imm8) setFlags
  | .sbcShiftImm _ setFlags rn rd amount5 ty rm => .dataProcessing .sbc rd rn (.regImm rm ty amount5) setFlags
  | .sbcShiftReg _ setFlags rn rd rs ty rm => .dataProcessing .sbc rd rn (.regReg rm ty rs) setFlags
  | .rscImm _ setFlags rn rd rot imm8 => .dataProcessing .rsc rd rn (.imm rot imm8) setFlags
  | .rscShiftImm _ setFlags rn rd amount5 ty rm => .dataProcessing .rsc rd rn (.regImm rm ty amount5) setFlags
  | .rscShiftReg _ setFlags rn rd rs ty rm => .dataProcessing .rsc rd rn (.regReg rm ty rs) setFlags
  | .tstImm _ rn rd rot imm8 => .dataProcessing .tst rd rn (.imm rot imm8) true
  | .tstShiftImm _ rn rd amount5 ty rm => .dataProcessing .tst rd rn (.regImm rm ty amount5) true
  | .tstShiftReg _ rn rd rs ty rm => .dataProcessing .tst rd rn (.regReg rm ty rs) true
  | .teqImm _ rn rd rot imm8 => .dataProcessing .teq rd rn (.imm rot imm8) true
  | .teqShiftImm _ rn rd amount5 ty rm => .dataProcessing .teq rd rn (.regImm rm ty amount5) true
  | .teqShiftReg _ rn rd rs ty rm => .dataProcessing .teq rd rn (.regReg rm ty rs) true
  | .cmpImm _ rn rd rot imm8 => .dataProcessing .cmp rd rn (.imm rot imm8) true
  | .cmpShiftImm _ rn rd amount5 ty rm => .dataProcessing .cmp rd rn (.regImm rm ty amount5) true
  | .cmpShiftReg _ rn rd rs ty rm => .dataProcessing .cmp rd rn (.regReg rm ty rs) true
  | .cmnImm _ rn rd rot imm8 => .dataProcessing .cmn rd rn (.imm rot imm8) true
  | .cmnShiftImm _ rn rd amount5 ty rm => .dataProcessing .cmn rd rn (.regImm rm ty amount5) true
  | .cmnShiftReg _ rn rd rs ty rm => .dataProcessing .cmn rd rn (.regReg rm ty rs) true
  | .orrImm _ setFlags rn rd rot imm8 => .dataProcessing .orr rd rn (.imm rot imm8) setFlags
  | .orrShiftImm _ setFlags rn rd amount5 ty rm => .dataProcessing .orr rd rn (.regImm rm ty amount5) setFlags
  | .orrShiftReg _ setFlags rn rd rs ty rm => .dataProcessing .orr rd rn (.regReg rm ty rs) setFlags
  | .movImm _ setFlags rd rot imm8 => .dataProcessing .mov rd 0 (.imm rot imm8) setFlags
  | .movShiftImm _ setFlags rd amount5 ty rm => .dataProcessing .mov rd 0 (.regImm rm ty amount5) setFlags
  | .movShiftReg _ setFlags rd rs ty rm => .dataProcessing .mov rd 0 (.regReg rm ty rs) setFlags
  | .bicImm _ setFlags rn rd rot imm8 => .dataProcessing .bic rd rn (.imm rot imm8) setFlags
  | .bicShiftImm _ setFlags rn rd amount5 ty rm => .dataProcessing .bic rd rn (.regImm rm ty amount5) setFlags
  | .bicShiftReg _ setFlags rn rd rs ty rm => .dataProcessing .bic rd rn (.regReg rm ty rs) setFlags
  | .mvnImm _ setFlags rd rot imm8 => .dataProcessing .mvn rd 0 (.imm rot imm8) setFlags
  | .mvnShiftImm _ setFlags rd amount5 ty rm => .dataProcessing .mvn rd 0 (.regImm rm ty amount5) setFlags
  | .mvnShiftReg _ setFlags rd rs ty rm => .dataProcessing .mvn rd 0 (.regReg rm ty rs) setFlags
  | .ldm _ p u sBit w rn list => .blockDataTransfer true p u sBit w rn list
  | .stm _ p u sBit w rn list => .blockDataTransfer false p u sBit w rn list

/-- A register number as a 4-bit field. -/
def regBits (r : Reg) : BitVec 4 := BitVec.ofFin r

/-- Bit 25 of a data-processing word: 1 for an immediate (30_encoding.md R46). -/
def Operand2.immBit : Operand2 → Bool
  | .imm .. => true
  | .regImm .. | .regReg .. => false

/-- Bits 11:0 of a data-processing word (30_encoding.md R48). -/
def Operand2.bits : Operand2 → BitVec 12
  | .imm rot imm8 => rot ++ imm8
  | .regImm rm ty amount5 => amount5 ++ ty.code ++ 0#1 ++ regBits rm
  | .regReg rm ty rs => regBits rs ++ 0#1 ++ ty.code ++ 1#1 ++ regBits rm

/-- The 28 low bits of a variant's word (30_encoding.md R44, R45, R46, R51). -/
def Decoded.bits : Decoded → BitVec 28
  | .branch offset24 => 0b1010#4 ++ offset24
  | .branchLink offset24 => 0b1011#4 ++ offset24
  | .branchExchange rm => 0x12FFF1#24 ++ regBits rm
  | .dataProcessing op rd rn op2 setFlags =>
      0b00#2 ++ BitVec.ofBool op2.immBit ++ op.code ++ BitVec.ofBool setFlags ++ regBits rn ++ regBits rd ++ op2.bits
  | .blockDataTransfer load p u sBit w rn list =>
      0b100#3 ++ BitVec.ofBool p ++ BitVec.ofBool u ++ BitVec.ofBool sBit ++ BitVec.ofBool w ++ BitVec.ofBool load
        ++ regBits rn ++ list

/-- The word of an instruction. -/
def encode (i : Instr) : Word := i.cond.code ++ i.variant.bits

/-! ## Words as bytes, and the host's view of the decoder -/

/-- The word that four bytes at rising addresses make (20_memory.md R31). -/
def wordOfBytes (order : ByteOrder) (b0 b1 b2 b3 : Byte) : Word :=
  match order with
  | .little => b3 ++ b2 ++ b1 ++ b0
  | .big => b0 ++ b1 ++ b2 ++ b3

/-- Byte `j` (0 to 3) of a word as it lies at the word's address + j (20_memory.md R31). -/
def byteOfWord (order : ByteOrder) (w : Word) (j : Nat) : Byte :=
  match order with
  | .little => w.extractLsb' (8 * j) 8
  | .big => w.extractLsb' (8 * (3 - j)) 8

/-- The instruction word whose low `nbits` bits are those of `w`, every bit above them 0 (30_encoding.md R40: one word,
bit 0 its least significant). -/
def tableWord (nbits w : Nat) : Word := BitVec.ofNat 32 (w % 2 ^ nbits)

/-- The instruction the decoder reads from the bits `w`, laid out as the default byte order stores them and read back as a word,
under the default COMPARE_RD_CHECK. -/
def decodeTableWord (nbits w : Nat) : Option Instr :=
  let x := tableWord nbits w
  let b := byteOfWord Params.standard.byteOrder x
  match decode Params.standard.compareRdCheck (wordOfBytes Params.standard.byteOrder (b 0) (b 1) (b 2) (b 3)) with
  | .ok i => some i
  | .error _ => none

end Sys2Proof
end

