-- ==== Sys2Proof/Machine/State.lean ====
section
/-! DEFINITION. Everything the spec gives the machine, as plain data: the banked register file, the status words, the
pipeline and bus-sequencer state, the run status (10_state.md), the memory behind the bus and the three streams of
the bus and trace ports (20_memory.md, 60_exceptions.md R126), with the parameters of 00_scope.md R7. -/

namespace Sys2Proof.Machine

/-! ## Why a step stops (60_exceptions.md R116: a closed list) -/

/-- The reason of a `Fatal` stop: the document's own class, an internal invariant violation. -/
inductive FatalReason where
  /-- The M field of CPSR is none of the seven modes. Raised by a status restore that wrote it (43_data_processing.md R87,
  44_block_transfer.md R111), and by the first register access of a step in a state that already holds such a field
  (10_state.md R14; notes/assumptions/9.md). Safe: it is the spec's own stop. -/
  | invalidMode
  deriving DecidableEq, Repr

/-- The reasons of a `Fault` stop: cases the spec will not give a value (60_exceptions.md R116). -/
inductive Fault where
  /-- Raised by LDM and STM with W = 1 and Rn = 15 (44_block_transfer.md R113 check 2). Safe: the spec's stop. -/
  | r15Writeback
  /-- Raised by LDM and STM with S = 1, W = 1 and a user-bank transfer under BLOCK_S_BIT = ArmV4 (R113 check 3). Safe:
  the spec's stop. -/
  | blockSBitWriteback
  /-- Raised by LDM and STM whose start address is not a multiple of 4 under MISALIGNED_BLOCK = Fault (R113 check 4,
  20_memory.md R33). Safe: the spec's stop. -/
  | misalignedBlock
  /-- Raised by a step fetch or a reload whose address is not a multiple of the fetch width under MISALIGNED_FETCH =
  Fault (20_memory.md R32). Safe: the spec's stop. -/
  | misalignedFetch
  deriving DecidableEq, Repr

/-- The reasons of a `Refused` stop: the spec has no meaning for the instruction (60_exceptions.md R116). -/
inductive Refusal where
  /-- An instruction of the table without a meaning in this model. Raised by no arm of exec: every row has its
  meaning. Safe. -/
  | notModelled (mnemonic : String)
  /-- Raised by a step that begins with CPSR.T = 1 (40_step_and_conditions.md R58). Safe: the spec's stop. -/
  | thumbUnmodelled
  /-- Raised by LDM and STM with S = 1 under BLOCK_S_BIT = Refuse (44_block_transfer.md R113 check 1). Safe: the spec's
  stop. -/
  | blockSBit
  deriving DecidableEq, Repr

/-- The run status (10_state.md R22). A stop outcome is a value of this field, so the state it leaves is kept
(60_exceptions.md R119; notes/assumptions/3.md). -/
inductive Status where
  | running
  | fatal (reason : FatalReason)
  | fault (reason : Fault)
  | refused (reason : Refusal)
  deriving DecidableEq, Repr

/-! ## Registers -/

/-- The seven processor modes (10_state.md R14). -/
inductive Mode where
  | user | fiq | irq | supervisor | abort | undefined | system
  deriving DecidableEq, Repr

/-- The identifier of one of the 31 physical general registers (10_state.md R9, R11, C15). -/
inductive Slot where
  /-- R0-R7, shared by all modes. -/
  | low (i : Fin 8)
  /-- R8-R14 of the user bank. -/
  | usr (i : Fin 7)
  /-- R8_fiq-R14_fiq. -/
  | fiq (i : Fin 7)
  /-- R13_svc, R14_svc. -/
  | svc (i : Fin 2)
  /-- R13_abt, R14_abt. -/
  | abt (i : Fin 2)
  /-- R13_irq, R14_irq. -/
  | irq (i : Fin 2)
  /-- R13_und, R14_und. -/
  | und (i : Fin 2)
  /-- R15. -/
  | pc
  deriving DecidableEq, Repr

/-- The 31 physical general registers, one array per bank (10_state.md R9). -/
structure RegFile where
  low : Vector Word 8
  usr : Vector Word 7
  fiq : Vector Word 7
  svc : Vector Word 2
  abt : Vector Word 2
  irq : Vector Word 2
  und : Vector Word 2
  pc  : Word
  deriving DecidableEq, Repr

/-- The five saved status words (10_state.md R16). -/
structure SavedWords where
  fiq : Word
  svc : Word
  abt : Word
  irq : Word
  und : Word
  deriving DecidableEq, Repr

/-! ## Bus and trace -/

/-- The sequential bit of an access kind (20_memory.md R27). -/
inductive Seq where
  | nonSeq | seq
  deriving DecidableEq, Repr

/-- The code or data bit of an access kind (20_memory.md R27). -/
inductive Space where
  | code | data
  deriving DecidableEq, Repr

/-- The tag of a bus transaction: two independent bits (20_memory.md R27). -/
structure AccessKind where
  space : Space
  seq   : Seq
  deriving DecidableEq, Repr

/-- One bus call of the core (20_memory.md R26). -/
inductive BusCall where
  | readWord (address : Word) (kind : AccessKind)
  | readHalfWord (address : Word) (kind : AccessKind)
  | writeWord (address : Word) (value : Word) (kind : AccessKind)
  /-- Part of the port's contract; no rule of the block issues it (R26). -/
  | writeHalfWord (address : Word) (value : BitVec 16) (kind : AccessKind)
  | idle
  deriving DecidableEq, Repr

/-- The only event of the trace output (60_exceptions.md R126). -/
structure UnrecognizedOpcode where
  word    : Word
  address : Word
  deriving DecidableEq, Repr

/-- The memory behind the bus: the bytes that differ from what an unlisted address reads as (`Memory.blank`), by rising
address (20_memory.md R28, R36; notes/assumptions/4.md). `Memory.wf` in Machine/Ops.lean is its canonical form. -/
abbrev Memory := List Host.Cell

/-! ## The machine -/

/-- The state of the core and of the memory behind its bus. -/
structure State where
  /-- R0-R15 of every bank (10_state.md R9). -/
  regs      : RegFile
  /-- The current status word (10_state.md R13). -/
  cpsr      : Word
  /-- The saved status words (10_state.md R16). -/
  spsr      : SavedWords
  /-- pipe[0], the decode slot: the word the next step executes (10_state.md R20). -/
  pipe0     : Word
  /-- pipe[1], the fetch slot (10_state.md R20). -/
  pipe1     : Word
  /-- pipe_valid (10_state.md R20). -/
  pipeValid : Bool
  /-- NK: N_CODE or S_CODE, the kind of the next code fetch (10_state.md R21). -/
  nk        : Seq
  /-- The run status (10_state.md R22). -/
  status    : Status
  /-- The trace output so far, oldest event first, or `none` with no sink attached (60_exceptions.md R126, D31). -/
  trace     : Option (List UnrecognizedOpcode)
  /-- The memory behind the bus (20_memory.md R36). -/
  mem       : Memory
  /-- The model's own: the answers the bus gives to the coming reads, oldest first. With none left the memory answers
  (20_memory.md R36, D34; notes/assumptions/5.md). -/
  busIn     : List Word
  /-- The model's own: the bus calls issued so far, oldest first (00_scope.md R5, R6; notes/assumptions/7.md). -/
  busLog    : List BusCall
  /-- The parameters the core was constructed with (00_scope.md R7, 70_reset_and_hazards.md R129). -/
  params    : Params
  deriving DecidableEq, Repr

/-- CPSR after construction (10_state.md R23): Supervisor, ARM, I and F by RESET_IF, every other bit 0. -/
def resetCpsr : ResetIF → Word
  | .bothSet => 0x000000D3#32
  | .bothClear => 0x00000013#32

/-- Every register 0 (10_state.md R23). -/
def RegFile.zero : RegFile where
  low := Vector.replicate 8 0#32
  usr := Vector.replicate 7 0#32
  fiq := Vector.replicate 7 0#32
  svc := Vector.replicate 2 0#32
  abt := Vector.replicate 2 0#32
  irq := Vector.replicate 2 0#32
  und := Vector.replicate 2 0#32
  pc := 0#32

/-- Construction with the parameters `p` (10_state.md R23, 70_reset_and_hazards.md R129). A trace sink is attached and
empty (notes/assumptions/8.md), and nothing is listed in memory. -/
def State.construct (p : Params) : State where
  regs := RegFile.zero
  cpsr := resetCpsr p.resetIF
  spsr := ⟨0#32, 0#32, 0#32, 0#32, 0#32⟩
  pipe0 := 0#32
  pipe1 := 0#32
  pipeValid := false
  nk := .nonSeq
  status := .running
  trace := some []
  mem := []
  busIn := []
  busLog := []
  params := p

/-- The machine right after reset: construction with the default parameters (10_state.md R23; notes/assumptions/2.md). -/
def State.reset : State := State.construct Params.standard

end Sys2Proof.Machine
end

