-- ==== Sys2Proof/Machine/Flags.lean ====
section
/-! DEFINITION. The status word and everything computed from or for it: its fields (10_state.md R13-R15, R18), the
condition predicates (40_step_and_conditions.md R62), the ALU (43_data_processing.md R84, R89-R104) and the flag updates (R85, R86). -/

namespace Sys2Proof.Machine

/-! ## Fields of a status word (10_state.md R13) -/

/-- CPSR.N, the "Sign" flag. -/
def Cpsr.n (w : Word) : Bool := w.getLsbD 31

/-- CPSR.Z. -/
def Cpsr.z (w : Word) : Bool := w.getLsbD 30

/-- CPSR.C. -/
def Cpsr.c (w : Word) : Bool := w.getLsbD 29

/-- CPSR.V. -/
def Cpsr.v (w : Word) : Bool := w.getLsbD 28

/-- CPSR.I: storage only, read by no rule (60_exceptions.md R121). -/
def Cpsr.i (w : Word) : Bool := w.getLsbD 7

/-- CPSR.F: storage only, read by no rule (60_exceptions.md R121). -/
def Cpsr.f (w : Word) : Bool := w.getLsbD 6

/-- CPSR.T: 0 = ARM, 1 = Thumb (10_state.md R15). -/
def Cpsr.t (w : Word) : Bool := w.getLsbD 5

/-- The mode field CPSR.M. -/
def Cpsr.m (w : Word) : BitVec 5 := w.extractLsb' 0 5

/-- The word with bit `i` replaced by `b` and every other bit kept. -/
def setBit (w : Word) (i : Nat) (b : Bool) : Word :=
  if b then w ||| (1#32 <<< i) else w &&& ~~~(1#32 <<< i)

/-- The four flags (10_state.md R18). -/
inductive Flag where
  | sign | zero | carry | overflow
  deriving DecidableEq, Repr

/-- The CPSR bit of a flag (10_state.md R18). -/
def Flag.bit : Flag → Nat
  | .sign => 31
  | .zero => 30
  | .carry => 29
  | .overflow => 28

/-- `flag(kind)` of 10_state.md R18. -/
def Cpsr.flag (w : Word) (k : Flag) : Bool := w.getLsbD k.bit

/-- `setFlag(kind, value)` of 10_state.md R18. -/
def Cpsr.setFlag (w : Word) (k : Flag) (b : Bool) : Word := setBit w k.bit b

/-- The status word with T = 1 (41_branch.md R71). -/
def Cpsr.setThumb (w : Word) : Word := setBit w 5 true

/-- The mode a five-bit field encodes; the other 25 values encode none (10_state.md R14). -/
def Mode.ofBits (m : BitVec 5) : Option Mode :=
  match m.toNat with
  | 0b10000 => some .user
  | 0b10001 => some .fiq
  | 0b10010 => some .irq
  | 0b10011 => some .supervisor
  | 0b10111 => some .abort
  | 0b11011 => some .undefined
  | 0b11111 => some .system
  | _ => none

/-- The encoding of a mode (10_state.md R14). -/
def Mode.bits : Mode → BitVec 5
  | .user => 0b10000#5
  | .fiq => 0b10001#5
  | .irq => 0b10010#5
  | .supervisor => 0b10011#5
  | .abort => 0b10111#5
  | .undefined => 0b11011#5
  | .system => 0b11111#5

/-- `mode()` of 10_state.md R18. -/
def Cpsr.mode? (w : Word) : Option Mode := Mode.ofBits (Cpsr.m w)

/-! ## Conditions -/

/-- `ConditionHolds` of 40_step_and_conditions.md R62. -/
def condHolds (c : Cond) (w : Word) : Bool :=
  match c with
  | .equal => Cpsr.z w
  | .notEqual => !Cpsr.z w
  | .carrySet => Cpsr.c w
  | .carryClear => !Cpsr.c w
  | .minus => Cpsr.n w
  | .plus => !Cpsr.n w
  | .overflow => Cpsr.v w
  | .noOverflow => !Cpsr.v w
  | .unsignedHigher => Cpsr.c w && !Cpsr.z w
  | .unsignedLowerOrSame => !Cpsr.c w || Cpsr.z w
  | .greaterOrEqual => Cpsr.n w == Cpsr.v w
  | .lessThan => Cpsr.n w != Cpsr.v w
  | .greaterThan => !Cpsr.z w && (Cpsr.n w == Cpsr.v w)
  | .lessOrEqual => Cpsr.z w || (Cpsr.n w != Cpsr.v w)
  | .always => true
  | .never => false

/-! ## The ALU -/

/-- What an ALU sub-operation returns (43_data_processing.md R83): result, carry and overflow. -/
structure AluOut where
  res : Word
  c   : Bool
  v   : Bool
  deriving DecidableEq, Repr

/-- `AddWithCarry` of 43_data_processing.md R84: the exact sum, then narrowed. -/
def addWithCarry (x y : Word) (cin : Bool) : AluOut :=
  let sum := x.toNat + y.toNat + cin.toNat
  let res := BitVec.ofNat 32 sum
  { res := res
    c := decide (2 ^ 32 ≤ sum)
    v := (x.getLsbD 31 == y.getLsbD 31) && (res.getLsbD 31 != x.getLsbD 31) }

/-- `ALU_op` of 43_data_processing.md R83: one line per rule R89 to R104. A logical operation passes the shifter carry
and the old V through (R85). -/
def aluOp (op : DpOp) (a b : Word) (cin shc vin : Bool) : AluOut :=
  match op with
  | .and => ⟨a &&& b, shc, vin⟩
  | .eor => ⟨a ^^^ b, shc, vin⟩
  | .sub => addWithCarry a (~~~b) true
  | .rsb => addWithCarry b (~~~a) true
  | .add => addWithCarry a b false
  | .adc => addWithCarry a b cin
  | .sbc => addWithCarry a (~~~b) cin
  | .rsc => addWithCarry b (~~~a) cin
  | .tst => ⟨a &&& b, shc, vin⟩
  | .teq => ⟨a ^^^ b, shc, vin⟩
  | .cmp => addWithCarry a (~~~b) true
  | .cmn => addWithCarry a b false
  | .orr => ⟨a ||| b, shc, vin⟩
  | .mov => ⟨b, shc, vin⟩
  | .bic => ⟨a &&& ~~~b, shc, vin⟩
  | .mvn => ⟨~~~b, shc, vin⟩

/-- The arithmetic class of 30_encoding.md R47; the rest are logical. -/
def isArithmetic : DpOp → Bool
  | .sub | .rsb | .add | .adc | .sbc | .rsc | .cmp | .cmn => true
  | .and | .eor | .tst | .teq | .orr | .mov | .bic | .mvn => false

/-- N, Z and C from a result and a carry, V kept (43_data_processing.md R85). -/
def Cpsr.setNZC (w : Word) (res : Word) (c : Bool) : Word :=
  Cpsr.setFlag (Cpsr.setFlag (Cpsr.setFlag w .sign (res.getLsbD 31)) .zero (res == 0#32)) .carry c

/-- `SetFlags` of 43_data_processing.md R83: R86 for arithmetic operations, R85 for logical ones. -/
def Cpsr.update (w : Word) (op : DpOp) (r : AluOut) : Word :=
  let w' := Cpsr.setNZC w r.res r.c
  if isArithmetic op then Cpsr.setFlag w' .overflow r.v else w'

end Sys2Proof.Machine
end

