-- ==== Sys2Proof/Machine/Ops.lean ====
section
/-! DEFINITION. The named operations the instructions are written with: memory, the bus port (20_memory.md), the banked registers
(10_state.md R11), the stops (60_exceptions.md R116, R119), the pipeline (40_step_and_conditions.md R59-R66), and the
status restore, which is the block's only return from an exception (60_exceptions.md R122). The block has NO exception
entry (R118), so there is none here. -/

namespace Sys2Proof.Machine

/-! ## Memory behind the bus -/

/-- What an address nothing has written reads as. DESIGN CHOICE, notes/assumptions/4.md. -/
def Memory.blank : Byte := 0#8

/-- The byte at an address. -/
def Memory.read : Memory → Nat → Byte
  | [], _ => Memory.blank
  | (k, v) :: rest, a => if k = a then v else Memory.read rest a

/-- The memory with one byte written, in canonical form again. -/
def Memory.write : Memory → Nat → Byte → Memory
  | [], a, v => if v = Memory.blank then [] else [(a, v)]
  | (k, u) :: rest, a, v =>
    if a < k then (if v = Memory.blank then (k, u) :: rest else (a, v) :: (k, u) :: rest)
    else if a = k then (if v = Memory.blank then rest else (a, v) :: rest)
    else (k, u) :: Memory.write rest a v

/-- The canonical form from address `lo` on: rising addresses inside the address space, no blank entry. -/
def Memory.wfFrom (lo : Nat) : Memory → Bool
  | [] => true
  | (k, v) :: rest => decide (lo ≤ k) && decide (k < 2 ^ 32) && (v != Memory.blank) && Memory.wfFrom (k + 1) rest

/-- The canonical form of a memory. -/
def Memory.wf (m : Memory) : Bool := Memory.wfFrom 0 m

/-- The address of byte `j` of an access at `a`. It wraps at 2^32 (notes/assumptions/6.md). -/
def byteAddr (a : Word) (j : Nat) : Nat := (a + BitVec.ofNat 32 j).toNat

/-- The word at an address (20_memory.md R31). -/
def Memory.readWord (order : ByteOrder) (m : Memory) (a : Word) : Word :=
  wordOfBytes order (m.read (byteAddr a 0)) (m.read (byteAddr a 1)) (m.read (byteAddr a 2)) (m.read (byteAddr a 3))

/-- The halfword at an address (20_memory.md R31; notes/assumptions/6.md). -/
def Memory.readHalfWord (order : ByteOrder) (m : Memory) (a : Word) : BitVec 16 :=
  match order with
  | .little => m.read (byteAddr a 1) ++ m.read (byteAddr a 0)
  | .big => m.read (byteAddr a 0) ++ m.read (byteAddr a 1)

/-- The memory with a word written (20_memory.md R31). -/
def Memory.writeWord (order : ByteOrder) (m : Memory) (a : Word) (v : Word) : Memory :=
  (((m.write (byteAddr a 0) (byteOfWord order v 0)).write (byteAddr a 1) (byteOfWord order v 1)).write
    (byteAddr a 2) (byteOfWord order v 2)).write (byteAddr a 3) (byteOfWord order v 3)

/-! ## The bus port (20_memory.md R26, R27) -/

/-- `N_CODE` and `S_CODE`. -/
def codeKind (q : Seq) : AccessKind := ⟨.code, q⟩

/-- `N_DATA` and `S_DATA`. -/
def dataKind (q : Seq) : AccessKind := ⟨.data, q⟩

/-- What the bus answers to a word read at `a`: the next pending answer, or else the memory's word
(20_memory.md R36, D34; notes/assumptions/5.md). -/
def State.wordAnswer (s : State) (a : Word) : Word :=
  match s.busIn with
  | [] => s.mem.readWord s.params.byteOrder a
  | d :: _ => d

/-- What the bus answers to a halfword read at `a`. A pending answer gives its low half (notes/assumptions/5.md). -/
def State.halfAnswer (s : State) (a : Word) : BitVec 16 :=
  match s.busIn with
  | [] => s.mem.readHalfWord s.params.byteOrder a
  | d :: _ => d.extractLsb' 0 16

/-- A read has been answered: it is on record, and its pending answer is used up. -/
def State.afterRead (s : State) (call : BusCall) : State :=
  { s with busLog := s.busLog ++ [call], busIn := s.busIn.tail }

/-- `MemWrite(addr, 4, v, kind)`. -/
def State.busWrite (s : State) (a v : Word) (k : AccessKind) : State :=
  { s with busLog := s.busLog ++ [.writeWord a v k], mem := s.mem.writeWord s.params.byteOrder a v }

/-- `BusIdle()`. -/
def State.busIdle (s : State) : State := { s with busLog := s.busLog ++ [.idle] }

/-! ## Registers -/

/-- The slot of an index 13 or 14 (`j` is 0 or 1) in a mode (10_state.md R11). -/
def slotHigh (m : Mode) (j : Fin 2) : Slot :=
  match m with
  | .user | .system => .usr ⟨5 + j.val, by omega⟩
  | .fiq => .fiq ⟨5 + j.val, by omega⟩
  | .supervisor => .svc j
  | .abort => .abt j
  | .irq => .irq j
  | .undefined => .und j

/-- The slot of an index 8 to 12 (`j` is 0 to 4) in a mode (10_state.md R11). -/
def slotMid (m : Mode) (j : Fin 5) : Slot :=
  match m with
  | .fiq => .fiq ⟨j.val, by omega⟩
  | .user | .system | .supervisor | .abort | .irq | .undefined => .usr ⟨j.val, by omega⟩

/-- `slot(mode, i)` of 10_state.md R11. -/
def slot (m : Mode) (i : Reg) : Slot :=
  if h : i.val < 8 then .low ⟨i.val, h⟩
  else if h' : i.val < 13 then slotMid m ⟨i.val - 8, by omega⟩
  else if h'' : i.val < 15 then slotHigh m ⟨i.val - 13, by omega⟩
  else .pc

/-- The content of a physical register. -/
def RegFile.get (r : RegFile) : Slot → Word
  | .low i => r.low[i]
  | .usr i => r.usr[i]
  | .fiq i => r.fiq[i]
  | .svc i => r.svc[i]
  | .abt i => r.abt[i]
  | .irq i => r.irq[i]
  | .und i => r.und[i]
  | .pc => r.pc

/-- The register file with one physical register written. -/
def RegFile.set (r : RegFile) (k : Slot) (v : Word) : RegFile :=
  match k with
  | .low i => { r with low := r.low.set i v }
  | .usr i => { r with usr := r.usr.set i v }
  | .fiq i => { r with fiq := r.fiq.set i v }
  | .svc i => { r with svc := r.svc.set i v }
  | .abt i => { r with abt := r.abt.set i v }
  | .irq i => { r with irq := r.irq.set i v }
  | .und i => { r with und := r.und.set i v }
  | .pc => { r with pc := v }

/-- A physical register of the machine. -/
def State.getSlot (s : State) (k : Slot) : Word := s.regs.get k

/-- The machine with a physical register written. -/
def State.setSlot (s : State) (k : Slot) (v : Word) : State := { s with regs := s.regs.set k v }

/-- `R_m[i]` read (10_state.md R11). No register is hardwired (R10). -/
def State.reg (s : State) (m : Mode) (i : Reg) : Word := s.getSlot (slot m i)

/-- `R_m[i] <- v` (10_state.md R11). -/
def State.setReg (s : State) (m : Mode) (i : Reg) (v : Word) : State := s.setSlot (slot m i) v

/-- R15, the same slot in every mode (10_state.md R11, R19). -/
def State.pc (s : State) : Word := s.regs.pc

/-- `pc <- t`. -/
def State.setPc (s : State) (t : Word) : State := s.setSlot .pc t

/-- The current mode, if CPSR.M encodes one (10_state.md R14). -/
def State.mode? (s : State) : Option Mode := Cpsr.mode? s.cpsr

/-- `SavedStatus()` of 10_state.md R16: in User and System mode it is CPSR itself (C13). -/
def State.savedStatus (s : State) (m : Mode) : Word :=
  match m with
  | .fiq => s.spsr.fiq
  | .irq => s.spsr.irq
  | .supervisor => s.spsr.svc
  | .abort => s.spsr.abt
  | .undefined => s.spsr.und
  | .user | .system => s.cpsr

/-! ## Stops -/

/-- A stretch of a step: it goes on, or a stop outcome has ended the step with the state it leaves
(60_exceptions.md R117, R119). -/
inductive Flow where
  | goOn (s : State)
  | halt (s : State)
  deriving DecidableEq, Repr

/-- The rest of the step, unless it has ended. -/
def Flow.andThen (x : Flow) (f : State → Flow) : Flow :=
  match x with
  | .goOn s => f s
  | .halt s => .halt s

/-- The state at the end of the step. -/
def Flow.final : Flow → State
  | .goOn s => s
  | .halt s => s

/-- The machine with a stop outcome in its status (60_exceptions.md R116, R119). -/
def State.stopped (s : State) (x : Status) : State := { s with status := x }

/-- `raise`: the step ends at once and what was done before remains (60_exceptions.md R119). -/
def raise (s : State) (x : Status) : Flow := .halt (s.stopped x)

/-! ## Pipeline -/

/-- `CheckFetch(addr, n)` of 20_memory.md R32. -/
def checkFetch (addr : Word) (n : Nat) (s : State) : Flow :=
  if addr.toNat % n = 0 then .goOn s
  else
    match s.params.misalignedFetch with
    | .fault => raise s (.fault .misalignedFetch)
    | .passToBus => .goOn s

/-- `AdvancePC()` of 40_step_and_conditions.md R64. -/
def State.advancePC (s : State) : State := s.setPc (s.pc + 4#32)

/-- The width in bytes of a reload's reads: 4 in ARM state, 2 in Thumb state (40_step_and_conditions.md R65). -/
def State.codeWidth (s : State) : Nat := if Cpsr.t s.cpsr then 2 else 4

/-- What a reload's read at `a` puts in its slot: a word, or a halfword zero-extended (40_step_and_conditions.md R65, D27). -/
def State.codeAnswer (s : State) (a : Word) : Word :=
  if Cpsr.t s.cpsr then (s.halfAnswer a).setWidth 32 else s.wordAnswer a

/-- The bus call of a reload's read (20_memory.md R29). -/
def State.codeRead (s : State) (a : Word) (q : Seq) : BusCall :=
  if Cpsr.t s.cpsr then .readHalfWord a (codeKind q) else .readWord a (codeKind q)

/-- The first half of a reload: slot 0 from R15, R15 moved up by the width. -/
def State.reloadSlot0 (s : State) : State :=
  { (s.afterRead (s.codeRead s.pc .nonSeq)).setPc (s.pc + BitVec.ofNat 32 s.codeWidth) with pipe0 := s.codeAnswer s.pc }

/-- The second half of a reload: slot 1 from R15, R15 moved up by the width, NK and pipe_valid set. -/
def State.reloadSlot1 (s : State) : State :=
  { (s.afterRead (s.codeRead s.pc .seq)).setPc (s.pc + BitVec.ofNat 32 s.codeWidth) with
    pipe1 := s.codeAnswer s.pc, nk := .seq, pipeValid := true }

/-- `Reload()` of 40_step_and_conditions.md R65, at the R15 the executor wrote. -/
def reload (s : State) : Flow :=
  (checkFetch s.pc s.codeWidth s).andThen fun s =>
    let s := s.reloadSlot0
    (checkFetch s.pc s.codeWidth s).andThen fun s => .goOn s.reloadSlot1

/-- The initial reload of 40_step_and_conditions.md R59: only while the pipeline is empty. -/
def fillPipeline (s : State) : Flow := if s.pipeValid then .goOn s else reload s

/-- The fetch of 40_step_and_conditions.md R60: the fetch slot moves to the decode slot, and the word at R15 is fetched into the
fetch slot with the kind NK. The caller has taken the old decode slot as the word to execute. -/
def fetchNext (s : State) : Flow :=
  let s := { s with pipe0 := s.pipe1 }
  (checkFetch s.pc 4 s).andThen fun s =>
    .goOn { s.afterRead (.readWord s.pc (codeKind s.nk)) with pipe1 := s.wordAnswer s.pc }

/-- A recognized word whose condition fails (40_step_and_conditions.md R63). -/
def State.conditionFailed (s : State) : State := { s.advancePC with nk := .seq }

/-- `Report` (60_exceptions.md R126): with no sink attached the event is dropped (D31). -/
def State.report (s : State) (e : UnrecognizedOpcode) : State :=
  { s with trace := s.trace.map fun t => t ++ [e] }

/-- `Unrecognized(w, A)` of 40_step_and_conditions.md R66. -/
def State.unrecognized (s : State) (w a : Word) : State :=
  { (s.report ⟨w, a⟩).advancePC with nk := .seq }

/-- The frame of every instruction, after the step's fetch: the mode is resolved (10_state.md R14;
notes/assumptions/9.md), the condition is checked (40_step_and_conditions.md R56, R62, R63), and the executor runs to its end, PC
advance or reload included. Every end is a next state: a stop outcome is in its status (notes/assumptions/3.md). -/
def conditionally (c : Cond) (s : State) (body : Mode → State → Flow) : Host.Outcome State Fault Refusal :=
  match s.mode? with
  | none => .next (s.stopped (.fatal .invalidMode))
  | some m => if condHolds c s.cpsr then .next (body m s).final else .next s.conditionFailed

/-- The gates before a step's first bus call: status (40_step_and_conditions.md R57), Thumb (R58), and the mode
(10_state.md R14; notes/assumptions/9.md). `none` lets the step run; `some s'` is the state the step ends with. -/
def gate (s : State) : Option State :=
  match s.status with
  | .fatal _ | .fault _ | .refused _ => some s
  | .running =>
    if Cpsr.t s.cpsr then some (s.stopped (.refused .thumbUnmodelled))
    else
      match s.mode? with
      | none => some (s.stopped (.fatal .invalidMode))
      | some _ => none

/-- The stretch of a step before the decoder (40_step_and_conditions.md R56): the gates, the initial reload (R59) and the
fetch (R60). It ends the step with the state it leaves, or hands on the retired word and the state after the fetch. -/
def retire (s : State) : Except State (Word × State) :=
  match gate s with
  | some t => .error t
  | none =>
    match fillPipeline s with
    | .halt t => .error t
    | .goOn s1 =>
      match fetchNext s1 with
      | .halt t => .error t
      | .goOn s2 => .ok (s1.pipe0, s2)

/-! ## Return from an exception -/

/-- The status restore (43_data_processing.md R87, 44_block_transfer.md R111, 60_exceptions.md R122): all 32 bits of the saved
word of mode `m` go to CPSR (D18), and a mode field that encodes no mode is fatal, with CPSR already written (D17). -/
def restoreStatus (m : Mode) (s : State) : Flow :=
  let s := { s with cpsr := s.savedStatus m }
  match s.mode? with
  | some _ => .goOn s
  | none => raise s (.fatal .invalidMode)

/-! ## Placing an instruction -/

/-- The state with the word `w` placed where the next step takes its instruction from: the decode slot of a filled pipeline
(40_step_and_conditions.md R60), or else the address in R15, which the initial reload reads first (R59): the next pending
bus answer if there is one, else the memory there. -/
def State.placeWord (s : State) (w : Word) : State :=
  if s.pipeValid then { s with pipe0 := w }
  else
    match s.busIn with
    | [] => { s with mem := s.mem.writeWord s.params.byteOrder s.pc w }
    | _ :: ds => { s with busIn := w :: ds }

end Sys2Proof.Machine
end

