-- ==== Sys2Proof/Machine/Operands.lean ====
section
/-! DEFINITION. Operand forms: the second operand of data processing through the barrel shifter (42_shifter.md R72-R82), and
the register list, addresses and banks of a block transfer (44_block_transfer.md R105, R106, R112). -/

namespace Sys2Proof.Machine

/-! ## The barrel shifter -/

/-- What `Shift` returns (42_shifter.md R72): the operand value and the shifter carry. -/
structure ShiftOut where
  value : Word
  carry : Bool
  deriving DecidableEq, Repr

/-- The immediate operand (42_shifter.md R73). -/
def shiftImmediate (rot : BitVec 4) (imm8 : BitVec 8) (cin : Bool) : ShiftOut :=
  let value := (imm8.setWidth 32).rotateRight (2 * rot.toNat)
  if rot = 0#4 then ⟨value, cin⟩ else ⟨value, value.getLsbD 31⟩

/-- Every bit a copy of bit 31: an arithmetic right shift by 32 or more. -/
def signFill (x : Word) : Word := if x.getLsbD 31 then 0xFFFFFFFF#32 else 0#32

/-- Rotate right with extend (42_shifter.md R77): `Cin : x[31:1]`, carry `x[0]`. -/
def rrx (x : Word) (cin : Bool) : ShiftOut := ⟨BitVec.ofBool cin ++ x.extractLsb' 1 31, x.getLsbD 0⟩

/-- A shift by an immediate amount (42_shifter.md R74-R77). -/
def shiftByAmount (ty : ShiftType) (amount5 : BitVec 5) (x : Word) (cin : Bool) : ShiftOut :=
  let n := amount5.toNat
  match ty with
  | .lsl => if n = 0 then ⟨x, cin⟩ else ⟨x <<< n, x.getLsbD (32 - n)⟩
  | .lsr => if n = 0 then ⟨0#32, x.getLsbD 31⟩ else ⟨x >>> n, x.getLsbD (n - 1)⟩
  | .asr => if n = 0 then ⟨signFill x, x.getLsbD 31⟩ else ⟨x.sshiftRight n, x.getLsbD (n - 1)⟩
  | .ror => if n = 0 then rrx x cin else ⟨x.rotateRight n, x.getLsbD (n - 1)⟩

/-- A shift by a register amount `n`, 0 to 255 (42_shifter.md R79-R82). -/
def shiftByRegister (ty : ShiftType) (n : Nat) (x : Word) (cin : Bool) : ShiftOut :=
  if n = 0 then ⟨x, cin⟩
  else
    match ty with
    | .lsl =>
      if n < 32 then ⟨x <<< n, x.getLsbD (32 - n)⟩ else if n = 32 then ⟨0#32, x.getLsbD 0⟩ else ⟨0#32, false⟩
    | .lsr =>
      if n < 32 then ⟨x >>> n, x.getLsbD (n - 1)⟩ else if n = 32 then ⟨0#32, x.getLsbD 31⟩ else ⟨0#32, false⟩
    | .asr => if n < 32 then ⟨x.sshiftRight n, x.getLsbD (n - 1)⟩ else ⟨signFill x, x.getLsbD 31⟩
    | .ror =>
      if n % 32 = 0 then ⟨x, x.getLsbD 31⟩ else ⟨x.rotateRight (n % 32), x.getLsbD (n % 32 - 1)⟩

/-- The register-specified-shift form (42_shifter.md R78). -/
def isRegisterShift : Operand2 → Bool
  | .regReg .. => true
  | .imm .. | .regImm .. => false

/-- `Shift(op2, Cin)` of 42_shifter.md R72, its registers read in mode `m`. -/
def shiftOperand (op2 : Operand2) (cin : Bool) (m : Mode) (s : State) : ShiftOut :=
  match op2 with
  | .imm rot imm8 => shiftImmediate rot imm8 cin
  | .regImm rm ty amount5 => shiftByAmount ty amount5 (s.reg m rm) cin
  | .regReg rm ty rs => shiftByRegister ty ((s.reg m rs).extractLsb' 0 8).toNat (s.reg m rm) cin

/-! ## Block transfers -/

/-- The effective register list (44_block_transfer.md R105): an empty list is exactly the list of R15. -/
def effectiveList (list : BitVec 16) : BitVec 16 := if list = 0#16 then 0x8000#16 else list

/-- The 16 register numbers in the order of the walk (44_block_transfer.md R107). -/
def walkOrder : List Reg := [0, 1, 2, 3, 4, 5, 6, 7, 8, 9, 10, 11, 12, 13, 14, 15]

/-- The registers of a list from bit 0 to bit 15 (44_block_transfer.md R107). -/
def listed (eff : BitVec 16) : List Reg := walkOrder.filter fun i => eff.getLsbD i.val

/-- `popcount` of a register list (44_block_transfer.md R105). -/
def transferCount (eff : BitVec 16) : Nat := (listed eff).length

/-- Four bytes for each of `n` registers. -/
def blockBytes (n : Nat) : Word := BitVec.ofNat 32 (4 * n)

/-- `start`, the lowest address transferred (44_block_transfer.md R106). -/
def blockStart (p u : Bool) (base : Word) (n : Nat) : Word :=
  if u then base + (if p then 4#32 else 0#32) else base - blockBytes n + (if p then 0#32 else 4#32)

/-- `wb`, the value a writeback writes (44_block_transfer.md R106). -/
def blockWriteback (u : Bool) (base : Word) (n : Nat) : Word :=
  if u then base + blockBytes n else base - blockBytes n

/-- Do the transfers use the user bank? With S = 1 they do, but for an LDM that loads R15 (44_block_transfer.md R112). -/
def userBankTransfer (load sBit : Bool) (eff : BitVec 16) : Bool := sBit && !(load && eff.getLsbD 15)

/-- The mode whose bank the transfers use (44_block_transfer.md R112). -/
def transferMode (load sBit : Bool) (eff : BitVec 16) (m : Mode) : Mode :=
  if userBankTransfer load sBit eff then .user else m

end Sys2Proof.Machine
end

