-- ==== Sys2Proof/Machine/BlockTransfer.lean ====
section
/-! DEFINITION. LDM and STM (44_block_transfer.md R105-R115). In each, R15 is the exec address A + 8 on entry. -/

namespace Sys2Proof.Machine

/-- The first of the checks of 44_block_transfer.md R113 that fails, in the rule's order; `start` is the lowest address. -/
def blockCheck (load sBit w : Bool) (rn : Reg) (eff : BitVec 16) (start : Word) (p : Params) : Option Status :=
  if sBit && p.blockSBit == .refuse then some (.refused .blockSBit)
  else if w && decide (rn = 15) then some (.fault .r15Writeback)
  else if w && userBankTransfer load sBit eff then some (.fault .blockSBitWriteback)
  else if decide (start.toNat % 4 ≠ 0) && p.misalignedBlock == .fault then some (.fault .misalignedBlock)
  else none

/-- `LoadOne` of 44_block_transfer.md R109. -/
def loadOne (bank : Mode) (i : Reg) (addr : Word) (q : Seq) (s : State) : State :=
  (s.afterRead (.readWord addr (dataKind q))).setReg bank i (s.wordAnswer addr)

/-- The walk of 44_block_transfer.md R107 for a load. -/
def loadWalk (bank : Mode) : List Reg → Word → Seq → State → State
  | [], _, _, s => s
  | i :: rest, addr, q, s => loadWalk bank rest (addr + 4#32) .seq (loadOne bank i addr q s)

/-- What an STM reads of its surroundings to know the value of each register (44_block_transfer.md R108). -/
structure StoreContext where
  bank  : Mode
  rn    : Reg
  w     : Bool
  eff   : BitVec 16
  base  : Word
  wb    : Word
  deriving DecidableEq, Repr

/-- `A + STM_PC_LEAD`, with A = R15 - 8 (44_block_transfer.md R108). -/
def storedPc (s : State) : Word :=
  match s.params.stmPcLead with
  | .eight => s.pc - 8#32 + 8#32
  | .twelve => s.pc - 8#32 + 12#32

/-- The value stored for register `i` (44_block_transfer.md R108). -/
def storedValue (x : StoreContext) (i : Reg) (s : State) : Word :=
  if decide (i = x.rn) && x.w then (if (listed x.eff).head? = some i then x.base else x.wb)
  else if i = 15 then storedPc s
  else s.reg x.bank i

/-- The walk of 44_block_transfer.md R107 for a store. -/
def storeWalk (x : StoreContext) : List Reg → Word → Seq → State → State
  | [], _, _, s => s
  | i :: rest, addr, q, s =>
    storeWalk x rest (addr + 4#32) .seq (s.busWrite addr (storedValue x i s) (dataKind q))

/-- The end of an LDM after the writeback (44_block_transfer.md R111): the idle turn, then the restore and the reload of a
loaded R15, or the PC advance. -/
def finishLoad (m : Mode) (sBit loadsPc : Bool) (s : State) : Flow :=
  let s := s.busIdle
  if loadsPc then (if sBit then restoreStatus m s else .goOn s).andThen reload
  else .goOn { s with nk := .seq }.advancePC

/-- `ExecLDM` of 44_block_transfer.md R114. -/
def loadMultiple (m : Mode) (p u sBit w : Bool) (rn : Reg) (list : BitVec 16) (s : State) : Flow :=
  let eff := effectiveList list
  let n := transferCount eff
  let base := s.reg m rn
  let start := blockStart p u base n
  match blockCheck true sBit w rn eff start s.params with
  | some x => raise s x
  | none =>
    let s := loadWalk (transferMode true sBit eff m) (listed eff) start .nonSeq s
    let s := if w && !eff.getLsbD rn.val then s.setReg m rn (blockWriteback u base n) else s
    finishLoad m sBit (eff.getLsbD 15) s

/-- `ExecSTM` of 44_block_transfer.md R115. -/
def storeMultiple (m : Mode) (p u sBit w : Bool) (rn : Reg) (list : BitVec 16) (s : State) : Flow :=
  let eff := effectiveList list
  let n := transferCount eff
  let base := s.reg m rn
  let start := blockStart p u base n
  let wb := blockWriteback u base n
  match blockCheck false sBit w rn eff start s.params with
  | some x => raise s x
  | none =>
    let s := storeWalk ⟨transferMode false sBit eff m, rn, w, eff, base, wb⟩ (listed eff) start .nonSeq s
    let s := if w then s.setReg m rn wb else s
    .goOn { s with nk := .nonSeq }.advancePC

/-- LDM (R114). -/
def execLdm (c : Cond) (p u sBit w : Bool) (rn : Reg) (list : BitVec 16) (s : State) :
    Host.Outcome State Fault Refusal :=
  conditionally c s fun m s => loadMultiple m p u sBit w rn list s

/-- STM (R115). -/
def execStm (c : Cond) (p u sBit w : Bool) (rn : Reg) (list : BitVec 16) (s : State) :
    Host.Outcome State Fault Refusal :=
  conditionally c s fun m s => storeMultiple m p u sBit w rn list s

end Sys2Proof.Machine
end

