-- ==== Sys2Proof/Machine/Branch.lean ====
section
/-! DEFINITION. B, BL and BX (41_branch.md R69-R71). In each, R15 is the exec address A + 8 on entry. -/

namespace Sys2Proof.Machine

/-- The byte displacement `sext_32(offset24 : 0b00)` (30_encoding.md R44). -/
def branchDisplacement (offset24 : BitVec 24) : Word := (offset24 ++ 0b00#2).signExtend 32

/-- `ExecB` of 41_branch.md R69. -/
def branchTo (offset24 : BitVec 24) (s : State) : Flow := reload (s.setPc (s.pc + branchDisplacement offset24))

/-- `ExecBX` of 41_branch.md R71. -/
def exchangeTo (m : Mode) (rm : Reg) (s : State) : Flow :=
  let t := s.reg m rm
  if t.getLsbD 0 then reload (({ s with cpsr := Cpsr.setThumb s.cpsr }).setPc (t &&& 0xFFFFFFFE#32))
  else reload (s.setPc t)

/-- B (R69). -/
def execB (c : Cond) (offset24 : BitVec 24) (s : State) : Host.Outcome State Fault Refusal :=
  conditionally c s fun _ s => branchTo offset24 s

/-- BL (R70): the link value A + 4 goes to the current mode's R14 before the branch writes R15. -/
def execBl (c : Cond) (offset24 : BitVec 24) (s : State) : Host.Outcome State Fault Refusal :=
  conditionally c s fun m s => branchTo offset24 (s.setReg m 14 (s.pc - 4#32))

/-- BX (R71). -/
def execBx (c : Cond) (rm : Reg) (s : State) : Host.Outcome State Fault Refusal :=
  conditionally c s fun m s => exchangeTo m rm s

end Sys2Proof.Machine
end

