-- ==== Sys2Proof/Machine/DataProcessing.lean ====
section
/-! DEFINITION. The sixteen data-processing operations in their three operand forms (43_data_processing.md R83-R104): the
common execution once, then one meaning per row of the table. R15 is the exec address A + 8 on entry. -/

namespace Sys2Proof.Machine

/-- The register-shift sequence (42_shifter.md R78): the idle turn and the PC advance come before every operand read. -/
def dpPrepare (op2 : Operand2) (s : State) : State := if isRegisterShift op2 then s.busIdle.advancePC else s

/-- The PC advance at the end of a step that did not reload (40_step_and_conditions.md R64): done already in the
register-shift form. -/
def dpAdvance (op2 : Operand2) (s : State) : State := if isRegisterShift op2 then s else s.advancePC

/-- `DestPC` and the end of the step (43_data_processing.md R83, R87, R88): with Rd = 15, the status restore when S = 1 and
the reload of all but the compares; otherwise NK and the PC advance. -/
def dpFinish (m : Mode) (op : DpOp) (rd : Reg) (op2 : Operand2) (setFlags : Bool) (s : State) : Flow :=
  (if decide (rd = 15) && setFlags then restoreStatus m s else .goOn s).andThen fun s =>
    if decide (rd = 15) && !op.isCompare then reload s
    else .goOn (dpAdvance op2 { s with nk := .seq })

/-- The ALU result of the operation on its operands (43_data_processing.md R83). `cin` and `vin` are CPSR.C and CPSR.V at
the start. MOV and MVN ignore the first operand. -/
def dpResult (m : Mode) (op : DpOp) (rn : Reg) (op2 : Operand2) (cin vin : Bool) (s : State) : AluOut :=
  let sh := shiftOperand op2 cin m s
  aluOp op (s.reg m rn) sh.value cin sh.carry vin

/-- The register write and the flag update, in the order of 43_data_processing.md R83. -/
def dpWrite (m : Mode) (op : DpOp) (rd : Reg) (setFlags : Bool) (r : AluOut) (s : State) : State :=
  let s := if op.isCompare then s else s.setReg m rd r.res
  if setFlags then { s with cpsr := Cpsr.update s.cpsr op r } else s

/-- `ExecDP` of 43_data_processing.md R83, after the condition check. -/
def dpBody (op : DpOp) (rd rn : Reg) (op2 : Operand2) (setFlags : Bool) (m : Mode) (s : State) : Flow :=
  let s := dpPrepare op2 s
  let r := dpResult m op rn op2 (Cpsr.c s.cpsr) (Cpsr.v s.cpsr) s
  dpFinish m op rd op2 setFlags (dpWrite m op rd setFlags r s)

/-- A data-processing instruction (43_data_processing.md R83). -/
def dataProcessing (c : Cond) (op : DpOp) (rd rn : Reg) (op2 : Operand2) (setFlags : Bool) (s : State) :
    Host.Outcome State Fault Refusal :=
  conditionally c s (dpBody op rd rn op2 setFlags)

/-! ## One meaning per row -/

/-- AND (R89), immediate operand. -/
def execAndImm (c : Cond) (setFlags : Bool) (rn rd : Reg) (rot : BitVec 4) (imm8 : BitVec 8)
    (s : State) : Host.Outcome State Fault Refusal :=
  dataProcessing c .and rd rn (.imm rot imm8) setFlags s

/-- AND (R89), register operand with immediate shift. -/
def execAndShiftImm (c : Cond) (setFlags : Bool) (rn rd : Reg) (amount5 : BitVec 5) (ty : ShiftType) (rm : Reg)
    (s : State) : Host.Outcome State Fault Refusal :=
  dataProcessing c .and rd rn (.regImm rm ty amount5) setFlags s

/-- AND (R89), register operand with register shift. -/
def execAndShiftReg (c : Cond) (setFlags : Bool) (rn rd : Reg) (rs : Reg) (ty : ShiftType) (rm : Reg)
    (s : State) : Host.Outcome State Fault Refusal :=
  dataProcessing c .and rd rn (.regReg rm ty rs) setFlags s

/-- EOR (R90), immediate operand. -/
def execEorImm (c : Cond) (setFlags : Bool) (rn rd : Reg) (rot : BitVec 4) (imm8 : BitVec 8)
    (s : State) : Host.Outcome State Fault Refusal :=
  dataProcessing c .eor rd rn (.imm rot imm8) setFlags s

/-- EOR (R90), register operand with immediate shift. -/
def execEorShiftImm (c : Cond) (setFlags : Bool) (rn rd : Reg) (amount5 : BitVec 5) (ty : ShiftType) (rm : Reg)
    (s : State) : Host.Outcome State Fault Refusal :=
  dataProcessing c .eor rd rn (.regImm rm ty amount5) setFlags s

/-- EOR (R90), register operand with register shift. -/
def execEorShiftReg (c : Cond) (setFlags : Bool) (rn rd : Reg) (rs : Reg) (ty : ShiftType) (rm : Reg)
    (s : State) : Host.Outcome State Fault Refusal :=
  dataProcessing c .eor rd rn (.regReg rm ty rs) setFlags s

/-- SUB (R91), immediate operand. -/
def execSubImm (c : Cond) (setFlags : Bool) (rn rd : Reg) (rot : BitVec 4) (imm8 : BitVec 8)
    (s : State) : Host.Outcome State Fault Refusal :=
  dataProcessing c .sub rd rn (.imm rot imm8) setFlags s

/-- SUB (R91), register operand with immediate shift. -/
def execSubShiftImm (c : Cond) (setFlags : Bool) (rn rd : Reg) (amount5 : BitVec 5) (ty : ShiftType) (rm : Reg)
    (s : State) : Host.Outcome State Fault Refusal :=
  dataProcessing c .sub rd rn (.regImm rm ty amount5) setFlags s

/-- SUB (R91), register operand with register shift. -/
def execSubShiftReg (c : Cond) (setFlags : Bool) (rn rd : Reg) (rs : Reg) (ty : ShiftType) (rm : Reg)
    (s : State) : Host.Outcome State Fault Refusal :=
  dataProcessing c .sub rd rn (.regReg rm ty rs) setFlags s

/-- RSB (R92), immediate operand. -/
def execRsbImm (c : Cond) (setFlags : Bool) (rn rd : Reg) (rot : BitVec 4) (imm8 : BitVec 8)
    (s : State) : Host.Outcome State Fault Refusal :=
  dataProcessing c .rsb rd rn (.imm rot imm8) setFlags s

/-- RSB (R92), register operand with immediate shift. -/
def execRsbShiftImm (c : Cond) (setFlags : Bool) (rn rd : Reg) (amount5 : BitVec 5) (ty : ShiftType) (rm : Reg)
    (s : State) : Host.Outcome State Fault Refusal :=
  dataProcessing c .rsb rd rn (.regImm rm ty amount5) setFlags s

/-- RSB (R92), register operand with register shift. -/
def execRsbShiftReg (c : Cond) (setFlags : Bool) (rn rd : Reg) (rs : Reg) (ty : ShiftType) (rm : Reg)
    (s : State) : Host.Outcome State Fault Refusal :=
  dataProcessing c .rsb rd rn (.regReg rm ty rs) setFlags s

/-- ADD (R93), immediate operand. -/
def execAddImm (c : Cond) (setFlags : Bool) (rn rd : Reg) (rot : BitVec 4) (imm8 : BitVec 8)
    (s : State) : Host.Outcome State Fault Refusal :=
  dataProcessing c .add rd rn (.imm rot imm8) setFlags s

/-- ADD (R93), register operand with immediate shift. -/
def execAddShiftImm (c : Cond) (setFlags : Bool) (rn rd : Reg) (amount5 : BitVec 5) (ty : ShiftType) (rm : Reg)
    (s : State) : Host.Outcome State Fault Refusal :=
  dataProcessing c .add rd rn (.regImm rm ty amount5) setFlags s

/-- ADD (R93), register operand with register shift. -/
def execAddShiftReg (c : Cond) (setFlags : Bool) (rn rd : Reg) (rs : Reg) (ty : ShiftType) (rm : Reg)
    (s : State) : Host.Outcome State Fault Refusal :=
  dataProcessing c .add rd rn (.regReg rm ty rs) setFlags s

/-- ADC (R94), immediate operand. -/
def execAdcImm (c : Cond) (setFlags : Bool) (rn rd : Reg) (rot : BitVec 4) (imm8 : BitVec 8)
    (s : State) : Host.Outcome State Fault Refusal :=
  dataProcessing c .adc rd rn (.imm rot imm8) setFlags s

/-- ADC (R94), register operand with immediate shift. -/
def execAdcShiftImm (c : Cond) (setFlags : Bool) (rn rd : Reg) (amount5 : BitVec 5) (ty : ShiftType) (rm : Reg)
    (s : State) : Host.Outcome State Fault Refusal :=
  dataProcessing c .adc rd rn (.regImm rm ty amount5) setFlags s

/-- ADC (R94), register operand with register shift. -/
def execAdcShiftReg (c : Cond) (setFlags : Bool) (rn rd : Reg) (rs : Reg) (ty : ShiftType) (rm : Reg)
    (s : State) : Host.Outcome State Fault Refusal :=
  dataProcessing c .adc rd rn (.regReg rm ty rs) setFlags s

/-- SBC (R95), immediate operand. -/
def execSbcImm (c : Cond) (setFlags : Bool) (rn rd : Reg) (rot : BitVec 4) (imm8 : BitVec 8)
    (s : State) : Host.Outcome State Fault Refusal :=
  dataProcessing c .sbc rd rn (.imm rot imm8) setFlags s

/-- SBC (R95), register operand with immediate shift. -/
def execSbcShiftImm (c : Cond) (setFlags : Bool) (rn rd : Reg) (amount5 : BitVec 5) (ty : ShiftType) (rm : Reg)
    (s : State) : Host.Outcome State Fault Refusal :=
  dataProcessing c .sbc rd rn (.regImm rm ty amount5) setFlags s

/-- SBC (R95), register operand with register shift. -/
def execSbcShiftReg (c : Cond) (setFlags : Bool) (rn rd : Reg) (rs : Reg) (ty : ShiftType) (rm : Reg)
    (s : State) : Host.Outcome State Fault Refusal :=
  dataProcessing c .sbc rd rn (.regReg rm ty rs) setFlags s

/-- RSC (R96), immediate operand. -/
def execRscImm (c : Cond) (setFlags : Bool) (rn rd : Reg) (rot : BitVec 4) (imm8 : BitVec 8)
    (s : State) : Host.Outcome State Fault Refusal :=
  dataProcessing c .rsc rd rn (.imm rot imm8) setFlags s

/-- RSC (R96), register operand with immediate shift. -/
def execRscShiftImm (c : Cond) (setFlags : Bool) (rn rd : Reg) (amount5 : BitVec 5) (ty : ShiftType) (rm : Reg)
    (s : State) : Host.Outcome State Fault Refusal :=
  dataProcessing c .rsc rd rn (.regImm rm ty amount5) setFlags s

/-- RSC (R96), register operand with register shift. -/
def execRscShiftReg (c : Cond) (setFlags : Bool) (rn rd : Reg) (rs : Reg) (ty : ShiftType) (rm : Reg)
    (s : State) : Host.Outcome State Fault Refusal :=
  dataProcessing c .rsc rd rn (.regReg rm ty rs) setFlags s

/-- TST (R97), immediate operand. -/
def execTstImm (c : Cond) (rn rd : Reg) (rot : BitVec 4) (imm8 : BitVec 8)
    (s : State) : Host.Outcome State Fault Refusal :=
  dataProcessing c .tst rd rn (.imm rot imm8) true s

/-- TST (R97), register operand with immediate shift. -/
def execTstShiftImm (c : Cond) (rn rd : Reg) (amount5 : BitVec 5) (ty : ShiftType) (rm : Reg)
    (s : State) : Host.Outcome State Fault Refusal :=
  dataProcessing c .tst rd rn (.regImm rm ty amount5) true s

/-- TST (R97), register operand with register shift. -/
def execTstShiftReg (c : Cond) (rn rd : Reg) (rs : Reg) (ty : ShiftType) (rm : Reg)
    (s : State) : Host.Outcome State Fault Refusal :=
  dataProcessing c .tst rd rn (.regReg rm ty rs) true s

/-- TEQ (R98), immediate operand. -/
def execTeqImm (c : Cond) (rn rd : Reg) (rot : BitVec 4) (imm8 : BitVec 8)
    (s : State) : Host.Outcome State Fault Refusal :=
  dataProcessing c .teq rd rn (.imm rot imm8) true s

/-- TEQ (R98), register operand with immediate shift. -/
def execTeqShiftImm (c : Cond) (rn rd : Reg) (amount5 : BitVec 5) (ty : ShiftType) (rm : Reg)
    (s : State) : Host.Outcome State Fault Refusal :=
  dataProcessing c .teq rd rn (.regImm rm ty amount5) true s

/-- TEQ (R98), register operand with register shift. -/
def execTeqShiftReg (c : Cond) (rn rd : Reg) (rs : Reg) (ty : ShiftType) (rm : Reg)
    (s : State) : Host.Outcome State Fault Refusal :=
  dataProcessing c .teq rd rn (.regReg rm ty rs) true s

/-- CMP (R99), immediate operand. -/
def execCmpImm (c : Cond) (rn rd : Reg) (rot : BitVec 4) (imm8 : BitVec 8)
    (s : State) : Host.Outcome State Fault Refusal :=
  dataProcessing c .cmp rd rn (.imm rot imm8) true s

/-- CMP (R99), register operand with immediate shift. -/
def execCmpShiftImm (c : Cond) (rn rd : Reg) (amount5 : BitVec 5) (ty : ShiftType) (rm : Reg)
    (s : State) : Host.Outcome State Fault Refusal :=
  dataProcessing c .cmp rd rn (.regImm rm ty amount5) true s

/-- CMP (R99), register operand with register shift. -/
def execCmpShiftReg (c : Cond) (rn rd : Reg) (rs : Reg) (ty : ShiftType) (rm : Reg)
    (s : State) : Host.Outcome State Fault Refusal :=
  dataProcessing c .cmp rd rn (.regReg rm ty rs) true s

/-- CMN (R100), immediate operand. -/
def execCmnImm (c : Cond) (rn rd : Reg) (rot : BitVec 4) (imm8 : BitVec 8)
    (s : State) : Host.Outcome State Fault Refusal :=
  dataProcessing c .cmn rd rn (.imm rot imm8) true s

/-- CMN (R100), register operand with immediate shift. -/
def execCmnShiftImm (c : Cond) (rn rd : Reg) (amount5 : BitVec 5) (ty : ShiftType) (rm : Reg)
    (s : State) : Host.Outcome State Fault Refusal :=
  dataProcessing c .cmn rd rn (.regImm rm ty amount5) true s

/-- CMN (R100), register operand with register shift. -/
def execCmnShiftReg (c : Cond) (rn rd : Reg) (rs : Reg) (ty : ShiftType) (rm : Reg)
    (s : State) : Host.Outcome State Fault Refusal :=
  dataProcessing c .cmn rd rn (.regReg rm ty rs) true s

/-- ORR (R101), immediate operand. -/
def execOrrImm (c : Cond) (setFlags : Bool) (rn rd : Reg) (rot : BitVec 4) (imm8 : BitVec 8)
    (s : State) : Host.Outcome State Fault Refusal :=
  dataProcessing c .orr rd rn (.imm rot imm8) setFlags s

/-- ORR (R101), register operand with immediate shift. -/
def execOrrShiftImm (c : Cond) (setFlags : Bool) (rn rd : Reg) (amount5 : BitVec 5) (ty : ShiftType) (rm : Reg)
    (s : State) : Host.Outcome State Fault Refusal :=
  dataProcessing c .orr rd rn (.regImm rm ty amount5) setFlags s

/-- ORR (R101), register operand with register shift. -/
def execOrrShiftReg (c : Cond) (setFlags : Bool) (rn rd : Reg) (rs : Reg) (ty : ShiftType) (rm : Reg)
    (s : State) : Host.Outcome State Fault Refusal :=
  dataProcessing c .orr rd rn (.regReg rm ty rs) setFlags s

/-- MOV (R102), immediate operand. -/
def execMovImm (c : Cond) (setFlags : Bool) (rd : Reg) (rot : BitVec 4) (imm8 : BitVec 8)
    (s : State) : Host.Outcome State Fault Refusal :=
  dataProcessing c .mov rd 0 (.imm rot imm8) setFlags s

/-- MOV (R102), register operand with immediate shift. -/
def execMovShiftImm (c : Cond) (setFlags : Bool) (rd : Reg) (amount5 : BitVec 5) (ty : ShiftType) (rm : Reg)
    (s : State) : Host.Outcome State Fault Refusal :=
  dataProcessing c .mov rd 0 (.regImm rm ty amount5) setFlags s

/-- MOV (R102), register operand with register shift. -/
def execMovShiftReg (c : Cond) (setFlags : Bool) (rd : Reg) (rs : Reg) (ty : ShiftType) (rm : Reg)
    (s : State) : Host.Outcome State Fault Refusal :=
  dataProcessing c .mov rd 0 (.regReg rm ty rs) setFlags s

/-- BIC (R103), immediate operand. -/
def execBicImm (c : Cond) (setFlags : Bool) (rn rd : Reg) (rot : BitVec 4) (imm8 : BitVec 8)
    (s : State) : Host.Outcome State Fault Refusal :=
  dataProcessing c .bic rd rn (.imm rot imm8) setFlags s

/-- BIC (R103), register operand with immediate shift. -/
def execBicShiftImm (c : Cond) (setFlags : Bool) (rn rd : Reg) (amount5 : BitVec 5) (ty : ShiftType) (rm : Reg)
    (s : State) : Host.Outcome State Fault Refusal :=
  dataProcessing c .bic rd rn (.regImm rm ty amount5) setFlags s

/-- BIC (R103), register operand with register shift. -/
def execBicShiftReg (c : Cond) (setFlags : Bool) (rn rd : Reg) (rs : Reg) (ty : ShiftType) (rm : Reg)
    (s : State) : Host.Outcome State Fault Refusal :=
  dataProcessing c .bic rd rn (.regReg rm ty rs) setFlags s

/-- MVN (R104), immediate operand. -/
def execMvnImm (c : Cond) (setFlags : Bool) (rd : Reg) (rot : BitVec 4) (imm8 : BitVec 8)
    (s : State) : Host.Outcome State Fault Refusal :=
  dataProcessing c .mvn rd 0 (.imm rot imm8) setFlags s

/-- MVN (R104), register operand with immediate shift. -/
def execMvnShiftImm (c : Cond) (setFlags : Bool) (rd : Reg) (amount5 : BitVec 5) (ty : ShiftType) (rm : Reg)
    (s : State) : Host.Outcome State Fault Refusal :=
  dataProcessing c .mvn rd 0 (.regImm rm ty amount5) setFlags s

/-- MVN (R104), register operand with register shift. -/
def execMvnShiftReg (c : Cond) (setFlags : Bool) (rd : Reg) (rs : Reg) (ty : ShiftType) (rm : Reg)
    (s : State) : Host.Outcome State Fault Refusal :=
  dataProcessing c .mvn rd 0 (.regReg rm ty rs) setFlags s

end Sys2Proof.Machine
end

