-- ==== Sys2Proof/Machine/Dispatch.lean ====
section
/-! DEFINITION. exec: one arm per constructor of Instr, each one direct call of its meaning. -/

namespace Sys2Proof.Machine

/-- Execute an instruction whose word the step has fetched past: the condition check, the executor, and the PC
advance or reload that ends the step (40_step_and_conditions.md R56, from the condition check on). -/
def exec (i : Instr) (s : State) : Host.Outcome State Fault Refusal :=
  match i with
  | .b c offset => Sys2Proof.Machine.execB c offset s
  | .bl c offset => Sys2Proof.Machine.execBl c offset s
  | .bx c rm => Sys2Proof.Machine.execBx c rm s
  | .andImm c setFlags rn rd rot imm8 => Sys2Proof.Machine.execAndImm c setFlags rn rd rot imm8 s
  | .andShiftImm c setFlags rn rd amount5 ty rm => Sys2Proof.Machine.execAndShiftImm c setFlags rn rd amount5 ty rm s
  | .andShiftReg c setFlags rn rd rs ty rm => Sys2Proof.Machine.execAndShiftReg c setFlags rn rd rs ty rm s
  | .eorImm c setFlags rn rd rot imm8 => Sys2Proof.Machine.execEorImm c setFlags rn rd rot imm8 s
  | .eorShiftImm c setFlags rn rd amount5 ty rm => Sys2Proof.Machine.execEorShiftImm c setFlags rn rd amount5 ty rm s
  | .eorShiftReg c setFlags rn rd rs ty rm => Sys2Proof.Machine.execEorShiftReg c setFlags rn rd rs ty rm s
  | .subImm c setFlags rn rd rot imm8 => Sys2Proof.Machine.execSubImm c setFlags rn rd rot imm8 s
  | .subShiftImm c setFlags rn rd amount5 ty rm => Sys2Proof.Machine.execSubShiftImm c setFlags rn rd amount5 ty rm s
  | .subShiftReg c setFlags rn rd rs ty rm => Sys2Proof.Machine.execSubShiftReg c setFlags rn rd rs ty rm s
  | .rsbImm c setFlags rn rd rot imm8 => Sys2Proof.Machine.execRsbImm c setFlags rn rd rot imm8 s
  | .rsbShiftImm c setFlags rn rd amount5 ty rm => Sys2Proof.Machine.execRsbShiftImm c setFlags rn rd amount5 ty rm s
  | .rsbShiftReg c setFlags rn rd rs ty rm => Sys2Proof.Machine.execRsbShiftReg c setFlags rn rd rs ty rm s
  | .addImm c setFlags rn rd rot imm8 => Sys2Proof.Machine.execAddImm c setFlags rn rd rot imm8 s
  | .addShiftImm c setFlags rn rd amount5 ty rm => Sys2Proof.Machine.execAddShiftImm c setFlags rn rd amount5 ty rm s
  | .addShiftReg c setFlags rn rd rs ty rm => Sys2Proof.Machine.execAddShiftReg c setFlags rn rd rs ty rm s
  | .adcImm c setFlags rn rd rot imm8 => Sys2Proof.Machine.execAdcImm c setFlags rn rd rot imm8 s
  | .adcShiftImm c setFlags rn rd amount5 ty rm => Sys2Proof.Machine.execAdcShiftImm c setFlags rn rd amount5 ty rm s
  | .adcShiftReg c setFlags rn rd rs ty rm => Sys2Proof.Machine.execAdcShiftReg c setFlags rn rd rs ty rm s
  | .sbcImm c setFlags rn rd rot imm8 => Sys2Proof.Machine.execSbcImm c setFlags rn rd rot imm8 s
  | .sbcShiftImm c setFlags rn rd amount5 ty rm => Sys2Proof.Machine.execSbcShiftImm c setFlags rn rd amount5 ty rm s
  | .sbcShiftReg c setFlags rn rd rs ty rm => Sys2Proof.Machine.execSbcShiftReg c setFlags rn rd rs ty rm s
  | .rscImm c setFlags rn rd rot imm8 => Sys2Proof.Machine.execRscImm c setFlags rn rd rot imm8 s
  | .rscShiftImm c setFlags rn rd amount5 ty rm => Sys2Proof.Machine.execRscShiftImm c setFlags rn rd amount5 ty rm s
  | .rscShiftReg c setFlags rn rd rs ty rm => Sys2Proof.Machine.execRscShiftReg c setFlags rn rd rs ty rm s
  | .tstImm c rn rd rot imm8 => Sys2Proof.Machine.execTstImm c rn rd rot imm8 s
  | .tstShiftImm c rn rd amount5 ty rm => Sys2Proof.Machine.execTstShiftImm c rn rd amount5 ty rm s
  | .tstShiftReg c rn rd rs ty rm => Sys2Proof.Machine.execTstShiftReg c rn rd rs ty rm s
  | .teqImm c rn rd rot imm8 => Sys2Proof.Machine.execTeqImm c rn rd rot imm8 s
  | .teqShiftImm c rn rd amount5 ty rm => Sys2Proof.Machine.execTeqShiftImm c rn rd amount5 ty rm s
  | .teqShiftReg c rn rd rs ty rm => Sys2Proof.Machine.execTeqShiftReg c rn rd rs ty rm s
  | .cmpImm c rn rd rot imm8 => Sys2Proof.Machine.execCmpImm c rn rd rot imm8 s
  | .cmpShiftImm c rn rd amount5 ty rm => Sys2Proof.Machine.execCmpShiftImm c rn rd amount5 ty rm s
  | .cmpShiftReg c rn rd rs ty rm => Sys2Proof.Machine.execCmpShiftReg c rn rd rs ty rm s
  | .cmnImm c rn rd rot imm8 => Sys2Proof.Machine.execCmnImm c rn rd rot imm8 s
  | .cmnShiftImm c rn rd amount5 ty rm => Sys2Proof.Machine.execCmnShiftImm c rn rd amount5 ty rm s
  | .cmnShiftReg c rn rd rs ty rm => Sys2Proof.Machine.execCmnShiftReg c rn rd rs ty rm s
  | .orrImm c setFlags rn rd rot imm8 => Sys2Proof.Machine.execOrrImm c setFlags rn rd rot imm8 s
  | .orrShiftImm c setFlags rn rd amount5 ty rm => Sys2Proof.Machine.execOrrShiftImm c setFlags rn rd amount5 ty rm s
  | .orrShiftReg c setFlags rn rd rs ty rm => Sys2Proof.Machine.execOrrShiftReg c setFlags rn rd rs ty rm s
  | .movImm c setFlags rd rot imm8 => Sys2Proof.Machine.execMovImm c setFlags rd rot imm8 s
  | .movShiftImm c setFlags rd amount5 ty rm => Sys2Proof.Machine.execMovShiftImm c setFlags rd amount5 ty rm s
  | .movShiftReg c setFlags rd rs ty rm => Sys2Proof.Machine.execMovShiftReg c setFlags rd rs ty rm s
  | .bicImm c setFlags rn rd rot imm8 => Sys2Proof.Machine.execBicImm c setFlags rn rd rot imm8 s
  | .bicShiftImm c setFlags rn rd amount5 ty rm => Sys2Proof.Machine.execBicShiftImm c setFlags rn rd amount5 ty rm s
  | .bicShiftReg c setFlags rn rd rs ty rm => Sys2Proof.Machine.execBicShiftReg c setFlags rn rd rs ty rm s
  | .mvnImm c setFlags rd rot imm8 => Sys2Proof.Machine.execMvnImm c setFlags rd rot imm8 s
  | .mvnShiftImm c setFlags rd amount5 ty rm => Sys2Proof.Machine.execMvnShiftImm c setFlags rd amount5 ty rm s
  | .mvnShiftReg c setFlags rd rs ty rm => Sys2Proof.Machine.execMvnShiftReg c setFlags rd rs ty rm s
  | .ldm c p u sBit w rn list => Sys2Proof.Machine.execLdm c p u sBit w rn list s
  | .stm c p u sBit w rn list => Sys2Proof.Machine.execStm c p u sBit w rn list s

end Sys2Proof.Machine
end

