-- ==== Sys2Proof/Machine/Step.lean ====
section
/-! DEFINITION. One step of the core (40_step_and_conditions.md R56), and how the host places an instruction in front of it. -/

namespace Sys2Proof.Machine

/-- `Step(bus)` of 40_step_and_conditions.md R56, from operations of Machine/Ops.lean: the gates (R57, R58), the initial
reload (R59) and the fetch (R60) in `retire`, the decode (R61), and then exec or the unrecognized-word report (R66). A stopped core answers
the same state (R57; notes/assumptions/3.md). -/
def step (s : State) : Host.Outcome State Fault Refusal :=
  match retire s with
  | .error t => .next t
  | .ok (w, u) =>
    match decode u.params.compareRdCheck w with
    | .ok i => exec i u
    | .error _ => .next (u.unrecognized w (u.pc - 8#32))

/-- `s` with the instruction of the low `nbits` bits of `w` placed where the next step takes its instruction from
(`State.placeWord` in Machine/Ops.lean; notes/assumptions/12.md). -/
def State.withFetchWord (s : State) (nbits w : Nat) : State := s.placeWord (tableWord nbits w)

end Sys2Proof.Machine
end

