-- ==== Sys2Proof/Machine/Run.lean ====
section
/-! DEFINITION. A run and its three ends (70_reset_and_hazards.md R137). The core has no halt instruction and no halt state: the host
decides how often to call step, and a run is that many calls, cut short at its first end. -/

namespace Sys2Proof.Machine

/-- How a run is over (70_reset_and_hazards.md R137). -/
inductive RunEnd where
  /-- (a) A step executed a B whose target is its own address. -/
  | normal
  /-- (b) The status is not Running after a step. Never a normal end (60_exceptions.md R119). -/
  | stopped
  /-- (c) The host stopped calling step before (a) or (b). Not an end of the program. -/
  | outOfFuel
  deriving DecidableEq, Repr

/-- The instruction is a B whose target, in a state whose R15 is 8 ahead of its address (41_branch.md R69), is the address
`a`. -/
def branchesTo (i : Instr) (u : State) (a : Word) : Bool :=
  match i.variant with
  | .branch offset24 => decide (u.pc + branchDisplacement offset24 = a)
  | .branchLink _ | .branchExchange _ | .dataProcessing .. | .blockDataTransfer .. => false

/-- A step from `s` executes a B whose target is its own address: the step gets past its gates and fetches, the retired word
decodes to such a B, and its condition passes (70_reset_and_hazards.md R137 (a)). With an empty pipeline the retired word is the one
the initial reload reads (40_step_and_conditions.md R59). -/
def executesSelfBranch (s : State) : Bool :=
  match retire s with
  | .error _ => false
  | .ok (w, u) =>
    match decode u.params.compareRdCheck w with
    | .ok i => condHolds i.cond u.cpsr && branchesTo i u (u.pc - 8#32)
    | .error _ => false

/-- At most `fuel` steps from `s`, up to the first end: how the run is over, and the state it leaves
(70_reset_and_hazards.md R137; notes/assumptions/16.md). A step answers a next state only (notes/assumptions/3.md), and the last
arm, which no step reaches, would be a stop too. -/
def run : Nat → State → RunEnd × State
  | 0, s => (.outOfFuel, s)
  | fuel + 1, s =>
    match step s with
    | .next t =>
      if t.status ≠ .running then (.stopped, t)
      else if executesSelfBranch s then (.normal, t)
      else run fuel t
    | .fault _ | .refused _ => (.stopped, s)

end Sys2Proof.Machine
end

