-- ==== Sys2Proof/Safety.lean ====
section
/-! DEFINITION. The words the claims are made in: the invariant of the machine, what an instruction may be run on, and what
it leaves (its result, its frame, its bus calls). The values expected of an instruction are written here from the
spec's formulas, not from the meanings they are compared with. -/

namespace Sys2Proof.Machine

/-! ## The invariant -/

/-- What every step keeps: the memory is in canonical form, a running core has a valid mode (10_state.md R14, R25), and,
under MISALIGNED_FETCH = Fault, a running core with a filled pipeline has an R15 aligned to its state's width
(20_memory.md R32, 10_state.md R19). -/
structure Inv (s : State) : Prop where
  memory : s.mem.wf = true
  mode : s.status = .running → ∃ m, s.mode? = some m
  aligned : s.status = .running → s.pipeValid = true → s.params.misalignedFetch = .fault →
    s.pc.toNat % s.codeWidth = 0

/-! ## When an instruction runs -/

/-- The current mode is `m` and the condition holds (40_step_and_conditions.md R62). -/
abbrev Ready (c : Cond) (s : State) (m : Mode) : Prop := s.mode? = some m ∧ condHolds c s.cpsr = true

/-- A code fetch of `n` bytes at `a` does not stop the core (20_memory.md R32). -/
abbrev FetchOk (s : State) (a : Word) (n : Nat) : Prop := a.toNat % n = 0 ∨ s.params.misalignedFetch = .passToBus

/-- A code fetch of `n` bytes at `a` stops the core (20_memory.md R32). -/
abbrev FetchStops (s : State) (a : Word) (n : Nat) : Prop := a.toNat % n ≠ 0 ∧ s.params.misalignedFetch = .fault

/-- The gates of a step are open: running, ARM state, a valid mode (40_step_and_conditions.md R57, R58). -/
abbrev StepOpen (s : State) : Prop := s.status = .running ∧ Cpsr.t s.cpsr = false ∧ s.mode?.isSome = true

/-! ## What the bus answers -/

/-- The answer to the word read at `a` that comes after `k` other reads, if nothing is written in between: the pending answer
at position `k`, or else the memory's word (20_memory.md R36, D34). -/
def State.nthWordAnswer (s : State) (k : Nat) (a : Word) : Word :=
  (s.busIn[k]?).getD (s.mem.readWord s.params.byteOrder a)

/-- The same for a halfword read. -/
def State.nthHalfAnswer (s : State) (k : Nat) (a : Word) : BitVec 16 :=
  match s.busIn[k]? with
  | some d => d.extractLsb' 0 16
  | none => s.mem.readHalfWord s.params.byteOrder a

/-! ## Frames -/

/-- Every physical register but R15 and those in `changed` holds what it held. -/
def RegsKept (s t : State) (changed : Slot → Prop) : Prop :=
  ∀ k : Slot, k ≠ .pc → ¬ changed k → t.getSlot k = s.getSlot k

/-- Saved status words, trace, memory, parameters and run status are what they were. -/
structure RestKept (s t : State) : Prop where
  spsr : t.spsr = s.spsr
  trace : t.trace = s.trace
  mem : t.mem = s.mem
  params : t.params = s.params
  status : t.status = s.status

/-- Both pipeline slots and pipe_valid are what they were. -/
structure PipeKept (s t : State) : Prop where
  pipe0 : t.pipe0 = s.pipe0
  pipe1 : t.pipe1 = s.pipe1
  pipeValid : t.pipeValid = s.pipeValid

/-- An ARM-width reload at `target` (40_step_and_conditions.md R65), after `k` reads and the bus calls `calls` since `s`. -/
structure ReloadedArm (s t : State) (k : Nat) (calls : List BusCall) (target : Word) : Prop where
  pc : t.pc = target + 8#32
  pipe0 : t.pipe0 = s.nthWordAnswer k target
  pipe1 : t.pipe1 = s.nthWordAnswer (k + 1) (target + 4#32)
  pipeValid : t.pipeValid = true
  nk : t.nk = .seq
  busIn : t.busIn = s.busIn.drop (k + 2)
  busLog : t.busLog = s.busLog ++ calls ++
    [.readWord target (codeKind .nonSeq), .readWord (target + 4#32) (codeKind .seq)]

/-- A Thumb-width reload at `target` (40_step_and_conditions.md R65), after `k` reads and the bus calls `calls` since `s`. -/
structure ReloadedThumb (s t : State) (k : Nat) (calls : List BusCall) (target : Word) : Prop where
  pc : t.pc = target + 4#32
  pipe0 : t.pipe0 = (s.nthHalfAnswer k target).setWidth 32
  pipe1 : t.pipe1 = (s.nthHalfAnswer (k + 1) (target + 2#32)).setWidth 32
  pipeValid : t.pipeValid = true
  nk : t.nk = .seq
  busIn : t.busIn = s.busIn.drop (k + 2)
  busLog : t.busLog = s.busLog ++ calls ++
    [.readHalfWord target (codeKind .nonSeq), .readHalfWord (target + 2#32) (codeKind .seq)]

/-- A reload at `target`, its width by CPSR.T of the state it leaves (40_step_and_conditions.md R65). -/
def Reloaded (s t : State) (k : Nat) (calls : List BusCall) (target : Word) : Prop :=
  if Cpsr.t t.cpsr then ReloadedThumb s t k calls target else ReloadedArm s t k calls target

/-! ## Data processing -/

/-- The bus calls of a data-processing instruction before a reload (43_data_processing.md R88). -/
def dpCalls (op2 : Operand2) : List BusCall := if isRegisterShift op2 then [.idle] else []

/-- An operand register as a data-processing instruction reads it, with R15 = A + 8 in `s`: R15 reads A + 8, or A + 12 in
the register-shift form (70_reset_and_hazards.md R132). -/
def operandReg (m : Mode) (op2 : Operand2) (r : Reg) (s : State) : Word :=
  if r = 15 ∧ isRegisterShift op2 = true then s.pc + 4#32 else s.reg m r

/-- The second operand and the shifter carry of a data-processing instruction run in `s` (42_shifter.md R72, R78). -/
def operand2 (m : Mode) (op2 : Operand2) (s : State) : ShiftOut :=
  match op2 with
  | .imm rot imm8 => shiftImmediate rot imm8 (Cpsr.c s.cpsr)
  | .regImm rm ty amount5 => shiftByAmount ty amount5 (operandReg m op2 rm s) (Cpsr.c s.cpsr)
  | .regReg rm ty rs =>
    shiftByRegister ty ((operandReg m op2 rs s).extractLsb' 0 8).toNat (operandReg m op2 rm s) (Cpsr.c s.cpsr)

/-- What the status word of `t` holds of the flags when an instruction wrote N, Z, C and V, all 28 bits below being
those of `s` (43_data_processing.md R85, R86). -/
structure FlagsWritten (s t : State) (n z c v : Bool) : Prop where
  n : Cpsr.n t.cpsr = n
  z : Cpsr.z t.cpsr = z
  c : Cpsr.c t.cpsr = c
  v : Cpsr.v t.cpsr = v
  below : t.cpsr.extractLsb' 0 28 = s.cpsr.extractLsb' 0 28

/-- The flags after a logical operation with result `res` and shifter carry `shc` (43_data_processing.md R85). -/
def LogicalFlags (s t : State) (setFlags : Bool) (res : Word) (shc : Bool) : Prop :=
  if setFlags then FlagsWritten s t (res.getLsbD 31) (decide (res = 0#32)) shc (Cpsr.v s.cpsr) else t.cpsr = s.cpsr

/-- The flags after an arithmetic operation with result `res`, carry `c` and overflow `v` (43_data_processing.md R86). -/
def ArithFlags (s t : State) (setFlags : Bool) (res : Word) (c v : Bool) : Prop :=
  if setFlags then FlagsWritten s t (res.getLsbD 31) (decide (res = 0#32)) c v else t.cpsr = s.cpsr

/-- The end of a data-processing instruction that does not reload (43_data_processing.md R88, 40_step_and_conditions.md R64):
R15 moves up by 4, NK is S_CODE, the idle turn of a register shift is on record, nothing else. -/
structure DpEnd (s t : State) (op2 : Operand2) : Prop where
  pc : t.pc = s.pc + 4#32
  nk : t.nk = .seq
  busIn : t.busIn = s.busIn
  busLog : t.busLog = s.busLog ++ dpCalls op2
  pipe : PipeKept s t
  rest : RestKept s t

/-- A logical operation with destination `rd` (not R15) and result `res` has run from `s` to `t`. -/
structure LogicalDone (s t : State) (m : Mode) (rd : Reg) (op2 : Operand2) (setFlags : Bool) (res : Word) : Prop where
  result : t.reg m rd = res
  flags : LogicalFlags s t setFlags res (operand2 m op2 s).carry
  others : RegsKept s t (· = slot m rd)
  fin : DpEnd s t op2

/-- An arithmetic operation with destination `rd` (not R15), result `res`, carry `c` and overflow `v` has run from `s` to `t`. -/
structure ArithDone (s t : State) (m : Mode) (rd : Reg) (op2 : Operand2) (setFlags : Bool) (res : Word) (c v : Bool) :
    Prop where
  result : t.reg m rd = res
  flags : ArithFlags s t setFlags res c v
  others : RegsKept s t (· = slot m rd)
  fin : DpEnd s t op2

/-- A compare has run from `s` to `t`: only the four flags, R15, NK and the bus record may differ. -/
structure CompareDone (s t : State) (op2 : Operand2) (n z c v : Bool) : Prop where
  flags : FlagsWritten s t n z c v
  others : RegsKept s t fun _ => False
  fin : DpEnd s t op2

/-- The value of a flag as a number. -/
def bit (b : Bool) : Int := if b then 1 else 0

/-- Signed overflow: the exact value is no 32-bit two's complement number (43_data_processing.md R84). -/
def signedOverflow (x : Int) : Bool := decide (x < -(2 ^ 31) ∨ 2 ^ 31 ≤ x)

/-- A statement about the three rows of one data-processing operation: the constructors of its immediate, immediate-shift
and register-shift rows, each with the second operand it stands for. -/
def EachForm (ofImm : BitVec 4 → BitVec 8 → Instr) (ofShiftImm : BitVec 5 → ShiftType → Reg → Instr)
    (ofShiftReg : Reg → ShiftType → Reg → Instr) (P : Instr → Operand2 → Prop) : Prop :=
  (∀ rot imm8, P (ofImm rot imm8) (.imm rot imm8)) ∧
  (∀ amount5 ty rm, P (ofShiftImm amount5 ty rm) (.regImm rm ty amount5)) ∧
  (∀ rs ty rm, P (ofShiftReg rs ty rm) (.regReg rm ty rs))

/-- The ALU result of a data-processing instruction run in `s`. -/
def resultIn (m : Mode) (op : DpOp) (rn : Reg) (op2 : Operand2) (s : State) : AluOut :=
  aluOp op (operandReg m op2 rn s) (operand2 m op2 s).value (Cpsr.c s.cpsr) (operand2 m op2 s).carry (Cpsr.v s.cpsr)

/-- CPSR after a data-processing instruction with S = 1 and Rd = 15 in mode `m` (43_data_processing.md R87): the saved word, or in User
and System mode, where the saved word is CPSR itself, the ordinary flag update. -/
def CpsrAfterRestore (s t : State) (m : Mode) (r : AluOut) : Prop :=
  if m = .user ∨ m = .system then FlagsWritten s t (r.res.getLsbD 31) (decide (r.res = 0#32)) r.c r.v
  else t.cpsr = s.savedStatus m

/-- The width of a code fetch under a status word (40_step_and_conditions.md R65). -/
def widthUnder (cpsr : Word) : Nat := if Cpsr.t cpsr then 2 else 4

/-! ## Block transfers -/

/-- How many registers of the list come before register `i` in the walk: the set bits of `eff` below bit `i`
(44_block_transfer.md R107). -/
def position (eff : BitVec 16) (i : Reg) : Nat := ((List.range i.val).filter fun j => eff.getLsbD j).length

/-- The address of the `k`-th word of a block (44_block_transfer.md R106, R107). -/
def blockAddr (start : Word) (k : Nat) : Word := start + BitVec.ofNat 32 (4 * k)

/-- The kind of the `k`-th transfer of a block (44_block_transfer.md R107). -/
def blockKind (k : Nat) : AccessKind := dataKind (if k = 0 then .nonSeq else .seq)

/-- The bus calls of the transfers of an LDM of `n` registers (44_block_transfer.md R114). -/
def loadCalls (start : Word) (n : Nat) : List BusCall :=
  (List.range n).map fun k => .readWord (blockAddr start k) (blockKind k)

/-- The start address of an LDM or STM run in `s` (44_block_transfer.md R105, R106). -/
def startIn (m : Mode) (p u : Bool) (rn : Reg) (list : BitVec 16) (s : State) : Word :=
  blockStart p u (s.reg m rn) (transferCount (effectiveList list))

/-- The value a writeback of an LDM or STM run in `s` writes (44_block_transfer.md R105, R106). -/
def writebackIn (m : Mode) (u : Bool) (rn : Reg) (list : BitVec 16) (s : State) : Word :=
  blockWriteback u (s.reg m rn) (transferCount (effectiveList list))

/-- None of the four checks of 44_block_transfer.md R113 fails for the LDM (`load`) or STM. -/
abbrev BlockOk (load : Bool) (m : Mode) (p u sBit w : Bool) (rn : Reg) (list : BitVec 16) (s : State) : Prop :=
  (sBit = true → s.params.blockSBit = .armV4) ∧
  (w = true → rn ≠ 15) ∧
  (w = true → userBankTransfer load sBit (effectiveList list) = false) ∧
  ((startIn m p u rn list s).toNat % 4 = 0 ∨ s.params.misalignedBlock = .passToBus)

/-- The transfers and the writeback of an LDM, run in `s` in mode `m` with the bank of mode `bank`: every listed register but
R15 holds its word, the base is written back unless it was loaded, and every other register is what it was
(44_block_transfer.md R107, R109, R110). -/
structure Loaded (s t : State) (m bank : Mode) (p u w : Bool) (rn : Reg) (list : BitVec 16) : Prop where
  loaded : ∀ i : Reg, i ≠ 15 → (effectiveList list).getLsbD i.val = true →
    t.reg bank i = s.nthWordAnswer (position (effectiveList list) i)
      (blockAddr (startIn m p u rn list s) (position (effectiveList list) i))
  base : w = true → (effectiveList list).getLsbD rn.val = false → t.reg m rn = writebackIn m u rn list s
  others : RegsKept s t fun k =>
    (∃ i : Reg, (effectiveList list).getLsbD i.val = true ∧ k = slot bank i) ∨ (w = true ∧ k = slot m rn)

/-- The value an STM stores for register `i` (44_block_transfer.md R108), run in `s` with R15 = A + 8. -/
def stmValue (m : Mode) (u sBit w : Bool) (rn : Reg) (list : BitVec 16) (s : State) (i : Reg) : Word :=
  if i = rn ∧ w = true then
    (if position (effectiveList list) i = 0 then s.reg m rn else writebackIn m u rn list s)
  else if i = 15 then s.pc - 8#32 + (match s.params.stmPcLead with | .eight => 8#32 | .twelve => 12#32)
  else s.reg (if sBit then .user else m) i

/-- The bus calls of an STM run in `s` (44_block_transfer.md R107, R115). -/
def storeCalls (m : Mode) (p u sBit w : Bool) (rn : Reg) (list : BitVec 16) (s : State) : List BusCall :=
  (listed (effectiveList list)).map fun i =>
    .writeWord (blockAddr (startIn m p u rn list s) (position (effectiveList list) i))
      (stmValue m u sBit w rn list s i) (blockKind (position (effectiveList list) i))

/-! ## Branches -/

/-- The target of a branch run in `s` with R15 = A + 8: four times the signed offset away from R15 (41_branch.md R69). -/
def branchTarget (s : State) (offset24 : BitVec 24) : Word := s.pc + BitVec.ofInt 32 (4 * offset24.toInt)

/-! ## The bus port -/

/-- The bus calls the rules allow (20_memory.md R27, R29): halfword reads and word reads of either kind as listed, word writes
with a Data kind, idle turns, and no halfword write. -/
def CallAllowed (e : BusCall) : Prop :=
  match e with
  | .readWord _ _ | .idle => True
  | .readHalfWord _ k => k.space = .code
  | .writeWord _ _ k => k.space = .data
  | .writeHalfWord _ _ _ => False

/-! ## The bits of each row

Each field is read from the bits the spec's formats give it, by numbers written out here and not by the decoder's or the
encoder's own tables. -/

/-- The condition codes of 30_encoding.md R41. -/
def conditionCodes : List (BitVec 4 × Cond) :=
  [(0b0000#4, .equal), (0b0001#4, .notEqual), (0b0010#4, .carrySet), (0b0011#4, .carryClear),
   (0b0100#4, .minus), (0b0101#4, .plus), (0b0110#4, .overflow), (0b0111#4, .noOverflow),
   (0b1000#4, .unsignedHigher), (0b1001#4, .unsignedLowerOrSame), (0b1010#4, .greaterOrEqual), (0b1011#4, .lessThan),
   (0b1100#4, .greaterThan), (0b1101#4, .lessOrEqual), (0b1110#4, .always), (0b1111#4, .never)]

/-- The shift type codes of 30_encoding.md R49. -/
def shiftCodes : List (BitVec 2 × ShiftType) := [(0b00#2, .lsl), (0b01#2, .lsr), (0b10#2, .asr), (0b11#2, .ror)]

/-- Bits 31:28 of the word are the code of the condition (30_encoding.md R41). -/
def CondBits (w : Word) (c : Cond) : Prop := (w.extractLsb' 28 4, c) ∈ conditionCodes

/-- The four bits of the word from bit `lo` up are the number of the register. -/
def RegAt (w : Word) (lo : Nat) (r : Reg) : Prop := (w.extractLsb' lo 4).toNat = r.val

/-- The word has the data-processing format with this opcode (30_encoding.md R46). -/
structure DpBits (w : Word) (opcode : BitVec 4) (c : Cond) (s : Bool) (rn rd : Reg) : Prop where
  cond : CondBits w c
  family : w.extractLsb' 26 2 = 0b00#2
  opcode : w.extractLsb' 21 4 = opcode
  s : w.getLsbD 20 = s
  rn : RegAt w 16 rn
  rd : RegAt w 12 rd

/-- The immediate form of the second operand (30_encoding.md R48). -/
structure ImmBits (w : Word) (rot : BitVec 4) (imm8 : BitVec 8) : Prop where
  bit25 : w.getLsbD 25 = true
  rot : w.extractLsb' 8 4 = rot
  imm8 : w.extractLsb' 0 8 = imm8

/-- The register form with immediate shift (30_encoding.md R48, R49). -/
structure ShiftImmBits (w : Word) (amount5 : BitVec 5) (ty : ShiftType) (rm : Reg) : Prop where
  bit25 : w.getLsbD 25 = false
  bit4 : w.getLsbD 4 = false
  amount5 : w.extractLsb' 7 5 = amount5
  type : (w.extractLsb' 5 2, ty) ∈ shiftCodes
  rm : RegAt w 0 rm

/-- The register form with register shift (30_encoding.md R48, R49). -/
structure ShiftRegBits (w : Word) (rs : Reg) (ty : ShiftType) (rm : Reg) : Prop where
  bit25 : w.getLsbD 25 = false
  bit7 : w.getLsbD 7 = false
  bit4 : w.getLsbD 4 = true
  rs : RegAt w 8 rs
  type : (w.extractLsb' 5 2, ty) ∈ shiftCodes
  rm : RegAt w 0 rm

/-- The word has the block-transfer format (30_encoding.md R51). -/
structure BlockBits (w : Word) (load : Bool) (c : Cond) (p u sBit wBit : Bool) (rn : Reg) (list : BitVec 16) : Prop where
  cond : CondBits w c
  family : w.extractLsb' 25 3 = 0b100#3
  p : w.getLsbD 24 = p
  u : w.getLsbD 23 = u
  s : w.getLsbD 22 = sBit
  wb : w.getLsbD 21 = wBit
  l : w.getLsbD 20 = load
  rn : RegAt w 16 rn
  list : w.extractLsb' 0 16 = list

/-- The word has the bits that the instruction's row of spec/opcode_table.json gives it, with the instruction's own field
values (30_encoding.md R41, R44-R51). The S field of a compare is 1 and the Rn field of MOV and MVN is 0 (R50). -/
def InRow (i : Instr) (w : Word) : Prop :=
  match i with
  | .b c offset24 => CondBits w c ∧ w.extractLsb' 24 4 = 0b1010#4 ∧ w.extractLsb' 0 24 = offset24
  | .bl c offset24 => CondBits w c ∧ w.extractLsb' 24 4 = 0b1011#4 ∧ w.extractLsb' 0 24 = offset24
  | .bx c rm => CondBits w c ∧ w.extractLsb' 4 24 = 0b000100101111111111110001#24 ∧ RegAt w 0 rm
  | .andImm c s rn rd rot imm8 => DpBits w 0b0000#4 c s rn rd ∧ ImmBits w rot imm8
  | .andShiftImm c s rn rd amount5 ty rm => DpBits w 0b0000#4 c s rn rd ∧ ShiftImmBits w amount5 ty rm
  | .andShiftReg c s rn rd rs ty rm => DpBits w 0b0000#4 c s rn rd ∧ ShiftRegBits w rs ty rm
  | .eorImm c s rn rd rot imm8 => DpBits w 0b0001#4 c s rn rd ∧ ImmBits w rot imm8
  | .eorShiftImm c s rn rd amount5 ty rm => DpBits w 0b0001#4 c s rn rd ∧ ShiftImmBits w amount5 ty rm
  | .eorShiftReg c s rn rd rs ty rm => DpBits w 0b0001#4 c s rn rd ∧ ShiftRegBits w rs ty rm
  | .subImm c s rn rd rot imm8 => DpBits w 0b0010#4 c s rn rd ∧ ImmBits w rot imm8
  | .subShiftImm c s rn rd amount5 ty rm => DpBits w 0b0010#4 c s rn rd ∧ ShiftImmBits w amount5 ty rm
  | .subShiftReg c s rn rd rs ty rm => DpBits w 0b0010#4 c s rn rd ∧ ShiftRegBits w rs ty rm
  | .rsbImm c s rn rd rot imm8 => DpBits w 0b0011#4 c s rn rd ∧ ImmBits w rot imm8
  | .rsbShiftImm c s rn rd amount5 ty rm => DpBits w 0b0011#4 c s rn rd ∧ ShiftImmBits w amount5 ty rm
  | .rsbShiftReg c s rn rd rs ty rm => DpBits w 0b0011#4 c s rn rd ∧ ShiftRegBits w rs ty rm
  | .addImm c s rn rd rot imm8 => DpBits w 0b0100#4 c s rn rd ∧ ImmBits w rot imm8
  | .addShiftImm c s rn rd amount5 ty rm => DpBits w 0b0100#4 c s rn rd ∧ ShiftImmBits w amount5 ty rm
  | .addShiftReg c s rn rd rs ty rm => DpBits w 0b0100#4 c s rn rd ∧ ShiftRegBits w rs ty rm
  | .adcImm c s rn rd rot imm8 => DpBits w 0b0101#4 c s rn rd ∧ ImmBits w rot imm8
  | .adcShiftImm c s rn rd amount5 ty rm => DpBits w 0b0101#4 c s rn rd ∧ ShiftImmBits w amount5 ty rm
  | .adcShiftReg c s rn rd rs ty rm => DpBits w 0b0101#4 c s rn rd ∧ ShiftRegBits w rs ty rm
  | .sbcImm c s rn rd rot imm8 => DpBits w 0b0110#4 c s rn rd ∧ ImmBits w rot imm8
  | .sbcShiftImm c s rn rd amount5 ty rm => DpBits w 0b0110#4 c s rn rd ∧ ShiftImmBits w amount5 ty rm
  | .sbcShiftReg c s rn rd rs ty rm => DpBits w 0b0110#4 c s rn rd ∧ ShiftRegBits w rs ty rm
  | .rscImm c s rn rd rot imm8 => DpBits w 0b0111#4 c s rn rd ∧ ImmBits w rot imm8
  | .rscShiftImm c s rn rd amount5 ty rm => DpBits w 0b0111#4 c s rn rd ∧ ShiftImmBits w amount5 ty rm
  | .rscShiftReg c s rn rd rs ty rm => DpBits w 0b0111#4 c s rn rd ∧ ShiftRegBits w rs ty rm
  | .tstImm c rn rd rot imm8 => DpBits w 0b1000#4 c true rn rd ∧ ImmBits w rot imm8
  | .tstShiftImm c rn rd amount5 ty rm => DpBits w 0b1000#4 c true rn rd ∧ ShiftImmBits w amount5 ty rm
  | .tstShiftReg c rn rd rs ty rm => DpBits w 0b1000#4 c true rn rd ∧ ShiftRegBits w rs ty rm
  | .teqImm c rn rd rot imm8 => DpBits w 0b1001#4 c true rn rd ∧ ImmBits w rot imm8
  | .teqShiftImm c rn rd amount5 ty rm => DpBits w 0b1001#4 c true rn rd ∧ ShiftImmBits w amount5 ty rm
  | .teqShiftReg c rn rd rs ty rm => DpBits w 0b1001#4 c true rn rd ∧ ShiftRegBits w rs ty rm
  | .cmpImm c rn rd rot imm8 => DpBits w 0b1010#4 c true rn rd ∧ ImmBits w rot imm8
  | .cmpShiftImm c rn rd amount5 ty rm => DpBits w 0b1010#4 c true rn rd ∧ ShiftImmBits w amount5 ty rm
  | .cmpShiftReg c rn rd rs ty rm => DpBits w 0b1010#4 c true rn rd ∧ ShiftRegBits w rs ty rm
  | .cmnImm c rn rd rot imm8 => DpBits w 0b1011#4 c true rn rd ∧ ImmBits w rot imm8
  | .cmnShiftImm c rn rd amount5 ty rm => DpBits w 0b1011#4 c true rn rd ∧ ShiftImmBits w amount5 ty rm
  | .cmnShiftReg c rn rd rs ty rm => DpBits w 0b1011#4 c true rn rd ∧ ShiftRegBits w rs ty rm
  | .orrImm c s rn rd rot imm8 => DpBits w 0b1100#4 c s rn rd ∧ ImmBits w rot imm8
  | .orrShiftImm c s rn rd amount5 ty rm => DpBits w 0b1100#4 c s rn rd ∧ ShiftImmBits w amount5 ty rm
  | .orrShiftReg c s rn rd rs ty rm => DpBits w 0b1100#4 c s rn rd ∧ ShiftRegBits w rs ty rm
  | .movImm c s rd rot imm8 => DpBits w 0b1101#4 c s 0 rd ∧ ImmBits w rot imm8
  | .movShiftImm c s rd amount5 ty rm => DpBits w 0b1101#4 c s 0 rd ∧ ShiftImmBits w amount5 ty rm
  | .movShiftReg c s rd rs ty rm => DpBits w 0b1101#4 c s 0 rd ∧ ShiftRegBits w rs ty rm
  | .bicImm c s rn rd rot imm8 => DpBits w 0b1110#4 c s rn rd ∧ ImmBits w rot imm8
  | .bicShiftImm c s rn rd amount5 ty rm => DpBits w 0b1110#4 c s rn rd ∧ ShiftImmBits w amount5 ty rm
  | .bicShiftReg c s rn rd rs ty rm => DpBits w 0b1110#4 c s rn rd ∧ ShiftRegBits w rs ty rm
  | .mvnImm c s rd rot imm8 => DpBits w 0b1111#4 c s 0 rd ∧ ImmBits w rot imm8
  | .mvnShiftImm c s rd amount5 ty rm => DpBits w 0b1111#4 c s 0 rd ∧ ShiftImmBits w amount5 ty rm
  | .mvnShiftReg c s rd rs ty rm => DpBits w 0b1111#4 c s 0 rd ∧ ShiftRegBits w rs ty rm
  | .ldm c p u sBit wBit rn list => BlockBits w true c p u sBit wBit rn list
  | .stm c p u sBit wBit rn list => BlockBits w false c p u sBit wBit rn list

/-! ## The end of a run (70_reset_and_hazards.md R137) -/

/-- The word the next step takes: the decode slot of a filled pipeline, or what the bus answers at R15
(40_step_and_conditions.md R59, R60). -/
def State.nextWord (s : State) : Word := if s.pipeValid then s.pipe0 else s.nthWordAnswer 0 s.pc

/-- The address that word stands at (10_state.md R19, R20; 40_step_and_conditions.md R59). -/
def State.nextAddress (s : State) : Word := if s.pipeValid then s.pc - 8#32 else s.pc

/-- The code reads a step makes before it executes that word (40_step_and_conditions.md R59, R60, R65). -/
def State.stepReads (s : State) : List BusCall :=
  if s.pipeValid then [.readWord s.pc ⟨.code, s.nk⟩]
  else [.readWord s.pc ⟨.code, .nonSeq⟩, .readWord (s.pc + 4#32) ⟨.code, .seq⟩, .readWord (s.pc + 8#32) ⟨.code, .seq⟩]

/-- The next step executes `B .`: the gates are open, no fetch stops it, and the word it takes, with a filled or an empty
pipeline, is a branch with offset24 = -2 whose condition holds. -/
def AtSelfBranch (s : State) : Prop :=
  StepOpen s ∧ FetchOk s s.pc 4 ∧
    ∃ c, decode s.params.compareRdCheck s.nextWord = .ok (.b c 0xFFFFFE#24) ∧ condHolds c s.cpsr = true

end Sys2Proof.Machine
end

