-- ==== Sys2Proof/Certificates/Slice0/Obligations.lean ====
section
/-! DEFINITION. The statements about the model, for the provers. Each docstring names the rules of spec/ it formalises or rests
on. Words such as Ready, RegsKept, RestKept and Reloaded are defined in Sys2Proof/Safety.lean. Wherever a statement names busIn,
busLog or an answer of the bus, those fields are the model's (notes/assumptions/5.md, 7.md), and memory stands for the bus. -/

open Sys2Proof Sys2Proof.Machine

/-! ## Decoding -/

/-- An instruction decodes from its own encoding exactly when it is well formed, with every operand at every value
(30_encoding.md R42-R51). -/
def Obligations.DecodeEncode : Prop :=
  ∀ (chk : CompareRdCheck) (i : Instr), decode chk (encode i) = .ok i ↔ i.wellFormed chk = true

/-- A word that decodes is the encoding of what it decodes to: no bit is dropped and no two words mean the same
(30_encoding.md R43). -/
def Obligations.EncodeDecode : Prop :=
  ∀ (chk : CompareRdCheck) (w : Word) (i : Instr), decode chk w = .ok i → encode i = w

/-- The unrecognized words, in terms of the word's bits alone (30_encoding.md R50, R52): bits 27:26 = 01, bits 27:26 = 11,
and in the space 00, the BX pattern apart, a compare with S = 0, a MOV or MVN with Rn not 0, a compare with an Rd that
COMPARE_RD_CHECK rejects, and a register form with bits 7 and 4 both 1. The parameter COMPARE_RD_CHECK is the spec's own
decision D6. -/
def Obligations.UnrecognizedWords : Prop :=
  ∀ (chk : CompareRdCheck) (w : Word), (∃ e, decode chk w = .error e) ↔
    (w.extractLsb' 26 2 = 0b01#2 ∨ w.extractLsb' 26 2 = 0b11#2 ∨
      w.extractLsb' 26 2 = 0b00#2 ∧ w &&& 0x0FFFFFF0#32 ≠ 0x012FFF10#32 ∧
        (w.extractLsb' 23 2 = 0b10#2 ∧ w.getLsbD 20 = false ∨
         w.extractLsb' 23 2 = 0b11#2 ∧ w.getLsbD 21 = true ∧ w.extractLsb' 16 4 ≠ 0#4 ∨
         w.extractLsb' 23 2 = 0b10#2 ∧ chk = .zeroOrFifteen ∧ w.extractLsb' 12 4 ≠ 0#4 ∧ w.extractLsb' 12 4 ≠ 15#4 ∨
         w.getLsbD 25 = false ∧ w.getLsbD 7 = true ∧ w.getLsbD 4 = true))

/-- Words of each family, written out in the spec's examples, decode to the instructions the spec names (41_branch.md,
43_data_processing.md, 44_block_transfer.md examples; 95_test_vectors.md section 4.4). -/
def Obligations.SpecWords : Prop :=
  decode .any 0xEA000002#32 = .ok (.b .always 2#24) ∧
  decode .any 0xEB000010#32 = .ok (.bl .always 0x10#24) ∧
  decode .any 0xE12FFF10#32 = .ok (.bx .always 0) ∧
  decode .any 0xE0910002#32 = .ok (.addShiftImm .always true 1 0 0#5 .lsl 2) ∧
  decode .any 0xE2710000#32 = .ok (.rsbImm .always true 1 0 0#4 0#8) ∧
  decode .any 0xE3110102#32 = .ok (.tstImm .always 1 0 1#4 2#8) ∧
  decode .any 0xE1B00211#32 = .ok (.movShiftReg .always true 0 2 .lsl 1) ∧
  decode .any 0xE8BD8003#32 = .ok (.ldm .always false true false true 13 0x8003#16) ∧
  decode .any 0xE92D4003#32 = .ok (.stm .always true false false true 13 0x4003#16) ∧
  decode .zeroOrFifteen 0xE3513000#32 = .error .compareRd ∧
  decode .any 0xE0000291#32 = .error .bits4And7

/-! ## Status word and ALU -/

/-- The predicate table of 40_step_and_conditions.md R62: the condition each 4-bit code selects, for every value of the
flags. -/
def Obligations.ConditionTable : Prop :=
  ∀ w : Word,
    (condHolds (Cond.ofCode 0b0000#4) w = true ↔ Cpsr.z w = true) ∧
    (condHolds (Cond.ofCode 0b0001#4) w = true ↔ Cpsr.z w = false) ∧
    (condHolds (Cond.ofCode 0b0010#4) w = true ↔ Cpsr.c w = true) ∧
    (condHolds (Cond.ofCode 0b0011#4) w = true ↔ Cpsr.c w = false) ∧
    (condHolds (Cond.ofCode 0b0100#4) w = true ↔ Cpsr.n w = true) ∧
    (condHolds (Cond.ofCode 0b0101#4) w = true ↔ Cpsr.n w = false) ∧
    (condHolds (Cond.ofCode 0b0110#4) w = true ↔ Cpsr.v w = true) ∧
    (condHolds (Cond.ofCode 0b0111#4) w = true ↔ Cpsr.v w = false) ∧
    (condHolds (Cond.ofCode 0b1000#4) w = true ↔ Cpsr.c w = true ∧ Cpsr.z w = false) ∧
    (condHolds (Cond.ofCode 0b1001#4) w = true ↔ Cpsr.c w = false ∨ Cpsr.z w = true) ∧
    (condHolds (Cond.ofCode 0b1010#4) w = true ↔ Cpsr.n w = Cpsr.v w) ∧
    (condHolds (Cond.ofCode 0b1011#4) w = true ↔ Cpsr.n w ≠ Cpsr.v w) ∧
    (condHolds (Cond.ofCode 0b1100#4) w = true ↔ Cpsr.z w = false ∧ Cpsr.n w = Cpsr.v w) ∧
    (condHolds (Cond.ofCode 0b1101#4) w = true ↔ Cpsr.z w = true ∨ Cpsr.n w ≠ Cpsr.v w) ∧
    (condHolds (Cond.ofCode 0b1110#4) w = true) ∧
    (condHolds (Cond.ofCode 0b1111#4) w = false)

/-- The adder (43_data_processing.md R84): the exact sum narrowed, carry as the unsigned carry-out, overflow by the sign rule, which
is the signed sum leaving the 32-bit range, and a subtraction's carry as "no borrow". -/
def Obligations.AdderExact : Prop :=
  ∀ (x y : Word) (cin : Bool),
    (addWithCarry x y cin).res.toNat = (x.toNat + y.toNat + cin.toNat) % 2 ^ 32 ∧
    ((addWithCarry x y cin).c = true ↔ 2 ^ 32 ≤ x.toNat + y.toNat + cin.toNat) ∧
    ((addWithCarry x y cin).v = true ↔
      x.getLsbD 31 = y.getLsbD 31 ∧ (addWithCarry x y cin).res.getLsbD 31 ≠ x.getLsbD 31) ∧
    (addWithCarry x y cin).v = signedOverflow (x.toInt + y.toInt + bit cin) ∧
    (addWithCarry x (~~~y) true).res = x - y ∧
    ((addWithCarry x (~~~y) true).c = true ↔ y.toNat ≤ x.toNat) ∧
    (addWithCarry x (~~~y) cin).res = x - y - (if cin then 0#32 else 1#32)

/-- The status word's mode and state fields (10_state.md R14, R15): a field encodes a mode exactly when it is that mode's
pattern, and every pair of mode and state reads back from a word that holds it. The bit positions and patterns are general
knowledge the spec adopts (K-2, notes/assumptions/10.md). -/
def Obligations.ModeAndState : Prop :=
  (∀ (x : BitVec 5) (m : Mode), Mode.ofBits x = some m ↔ x = m.bits) ∧
  (∀ (m : Mode) (thumb : Bool) (rest : BitVec 26),
    Cpsr.mode? (rest ++ BitVec.ofBool thumb ++ m.bits) = some m ∧ Cpsr.t (rest ++ BitVec.ofBool thumb ++ m.bits) = thumb) ∧
  Mode.user.bits = 0b10000#5 ∧ Mode.fiq.bits = 0b10001#5 ∧ Mode.irq.bits = 0b10010#5 ∧
  Mode.supervisor.bits = 0b10011#5 ∧ Mode.abort.bits = 0b10111#5 ∧ Mode.undefined.bits = 0b11011#5 ∧
  Mode.system.bits = 0b11111#5

/-- The flag accessors (10_state.md R18): a flag written is the flag read, and a write of one flag changes no other bit.
The bit positions are general knowledge the spec adopts (K-2, notes/assumptions/10.md). -/
def Obligations.FlagAccessors : Prop :=
  ∀ (w : Word) (k : Flag) (b : Bool),
    Cpsr.flag (Cpsr.setFlag w k b) k = b ∧
    (∀ j, j ≠ k.bit → (Cpsr.setFlag w k b).getLsbD j = w.getLsbD j) ∧
    Cpsr.flag w .sign = w.getLsbD 31 ∧ Cpsr.flag w .zero = w.getLsbD 30 ∧
    Cpsr.flag w .carry = w.getLsbD 29 ∧ Cpsr.flag w .overflow = w.getLsbD 28

/-- The saved status word of each mode, with the fallback of User and System mode (10_state.md R16). -/
def Obligations.SavedStatusOfMode : Prop :=
  ∀ s : State, s.savedStatus .fiq = s.spsr.fiq ∧ s.savedStatus .irq = s.spsr.irq ∧
    s.savedStatus .supervisor = s.spsr.svc ∧ s.savedStatus .abort = s.spsr.abt ∧
    s.savedStatus .undefined = s.spsr.und ∧ s.savedStatus .user = s.cpsr ∧ s.savedStatus .system = s.cpsr

/-! ## Registers -/

/-- Bank resolution (10_state.md R11): the whole table, by index and mode, and register access through it. The last clause
adds that a slot belongs to one index and that all 31 are reached. -/
def Obligations.BankedSlots : Prop :=
  (∀ (m : Mode) (i : Reg) (h : i.val < 8), slot m i = .low ⟨i.val, h⟩) ∧
  (∀ (m : Mode) (j : Fin 5), slot m ⟨8 + j.val, by omega⟩ =
    if m = .fiq then .fiq ⟨j.val, by omega⟩ else .usr ⟨j.val, by omega⟩) ∧
  (∀ j : Fin 2,
    slot .user ⟨13 + j.val, by omega⟩ = .usr ⟨5 + j.val, by omega⟩ ∧
    slot .system ⟨13 + j.val, by omega⟩ = .usr ⟨5 + j.val, by omega⟩ ∧
    slot .fiq ⟨13 + j.val, by omega⟩ = .fiq ⟨5 + j.val, by omega⟩ ∧
    slot .supervisor ⟨13 + j.val, by omega⟩ = .svc j ∧ slot .abort ⟨13 + j.val, by omega⟩ = .abt j ∧
    slot .irq ⟨13 + j.val, by omega⟩ = .irq j ∧ slot .undefined ⟨13 + j.val, by omega⟩ = .und j) ∧
  (∀ m : Mode, slot m 15 = .pc) ∧
  (∀ (s : State) (m : Mode) (i : Reg) (v : Word),
    s.reg m i = s.getSlot (slot m i) ∧ s.setReg m i v = s.setSlot (slot m i) v) ∧
  (∀ (m m' : Mode) (i j : Reg), slot m i = slot m' j → i = j) ∧ (∀ k : Slot, ∃ m i, slot m i = k)

/-- A register written through one mode's view is read back there, is read by every other view of the same slot, and leaves
every other slot alone: no register is hardwired (10_state.md R10, R11). -/
def Obligations.RegisterReadWrite : Prop :=
  ∀ (s : State) (m m' : Mode) (i j : Reg) (v : Word),
    (s.setReg m i v).reg m i = v ∧
    (slot m' j = slot m i → (s.setReg m i v).reg m' j = v) ∧
    (slot m' j ≠ slot m i → (s.setReg m i v).reg m' j = s.reg m' j)

/-! ## Shifter -/

/-- The immediate operand (42_shifter.md R73), bit by bit. -/
def Obligations.ImmediateOperand : Prop :=
  ∀ (rot : BitVec 4) (imm8 : BitVec 8) (cin : Bool),
    (∀ j, j < 32 → (shiftImmediate rot imm8 cin).value.getLsbD j = imm8.getLsbD ((j + 2 * rot.toNat) % 32)) ∧
    (rot = 0#4 → (shiftImmediate rot imm8 cin).carry = cin) ∧
    (rot ≠ 0#4 → (shiftImmediate rot imm8 cin).carry = (shiftImmediate rot imm8 cin).value.getLsbD 31)

/-- The shifts by an immediate amount (42_shifter.md R74-R77), bit by bit, with the special meanings of amount 0. -/
def Obligations.ShiftsByAmount : Prop :=
  ∀ (amount5 : BitVec 5) (x : Word) (cin : Bool),
    (amount5 = 0#5 →
      shiftByAmount .lsl amount5 x cin = ⟨x, cin⟩ ∧
      shiftByAmount .lsr amount5 x cin = ⟨0#32, x.getLsbD 31⟩ ∧
      ((shiftByAmount .asr amount5 x cin).carry = x.getLsbD 31 ∧
        ∀ j, j < 32 → (shiftByAmount .asr amount5 x cin).value.getLsbD j = x.getLsbD 31) ∧
      ((shiftByAmount .ror amount5 x cin).carry = x.getLsbD 0 ∧
        ∀ j, j < 32 → (shiftByAmount .ror amount5 x cin).value.getLsbD j = if j = 31 then cin else x.getLsbD (j + 1))) ∧
    (amount5 ≠ 0#5 →
      (shiftByAmount .lsl amount5 x cin).carry = x.getLsbD (32 - amount5.toNat) ∧
      (shiftByAmount .lsr amount5 x cin).carry = x.getLsbD (amount5.toNat - 1) ∧
      (shiftByAmount .asr amount5 x cin).carry = x.getLsbD (amount5.toNat - 1) ∧
      (shiftByAmount .ror amount5 x cin).carry = x.getLsbD (amount5.toNat - 1) ∧
      ∀ j, j < 32 →
        (shiftByAmount .lsl amount5 x cin).value.getLsbD j =
          (if j < amount5.toNat then false else x.getLsbD (j - amount5.toNat)) ∧
        (shiftByAmount .lsr amount5 x cin).value.getLsbD j =
          (if j + amount5.toNat < 32 then x.getLsbD (j + amount5.toNat) else false) ∧
        (shiftByAmount .asr amount5 x cin).value.getLsbD j =
          (if j + amount5.toNat < 32 then x.getLsbD (j + amount5.toNat) else x.getLsbD 31) ∧
        (shiftByAmount .ror amount5 x cin).value.getLsbD j = x.getLsbD ((j + amount5.toNat) % 32))

/-- The shifts by a register amount (42_shifter.md R79-R82): amount 0 shifts nothing, amounts below 32 bit by bit, and the
results for 32 and more. -/
def Obligations.ShiftsByRegister : Prop :=
  ∀ (n : Nat) (x : Word) (cin : Bool), n < 256 →
    (n = 0 → ∀ ty, shiftByRegister ty n x cin = ⟨x, cin⟩) ∧
    (0 < n → n < 32 →
      (shiftByRegister .lsl n x cin).carry = x.getLsbD (32 - n) ∧
      (shiftByRegister .lsr n x cin).carry = x.getLsbD (n - 1) ∧
      (shiftByRegister .asr n x cin).carry = x.getLsbD (n - 1) ∧
      ∀ j, j < 32 →
        (shiftByRegister .lsl n x cin).value.getLsbD j = (if j < n then false else x.getLsbD (j - n)) ∧
        (shiftByRegister .lsr n x cin).value.getLsbD j = (if j + n < 32 then x.getLsbD (j + n) else false) ∧
        (shiftByRegister .asr n x cin).value.getLsbD j = (if j + n < 32 then x.getLsbD (j + n) else x.getLsbD 31)) ∧
    (n = 32 →
      shiftByRegister .lsl n x cin = ⟨0#32, x.getLsbD 0⟩ ∧ shiftByRegister .lsr n x cin = ⟨0#32, x.getLsbD 31⟩) ∧
    (32 < n →
      shiftByRegister .lsl n x cin = ⟨0#32, false⟩ ∧ shiftByRegister .lsr n x cin = ⟨0#32, false⟩) ∧
    (32 ≤ n → (shiftByRegister .asr n x cin).carry = x.getLsbD 31 ∧
      ∀ j, j < 32 → (shiftByRegister .asr n x cin).value.getLsbD j = x.getLsbD 31) ∧
    (0 < n → n % 32 = 0 → shiftByRegister .ror n x cin = ⟨x, x.getLsbD 31⟩) ∧
    (n % 32 ≠ 0 → (shiftByRegister .ror n x cin).carry = x.getLsbD (n % 32 - 1) ∧
      ∀ j, j < 32 → (shiftByRegister .ror n x cin).value.getLsbD j = x.getLsbD ((j + n) % 32))

/-! ## Memory -/

/-- The bus bound to a byte memory (20_memory.md R31, R36): a word written is the word read back, its bytes stand at its
four addresses in the order of BYTE_ORDER, no other byte changes, and the canonical form is kept. BYTE_ORDER is the spec's
own decision D15; the layout under Big and the wrap of an access are the model's (notes/assumptions/6.md), and the
canonical form is the model's (notes/assumptions/4.md). -/
def Obligations.MemoryReadWrite : Prop :=
  ∀ (order : ByteOrder) (mem : Memory) (a v : Word), mem.wf = true →
    (mem.writeWord order a v).wf = true ∧
    (mem.writeWord order a v).readWord order a = v ∧
    (∀ j, j < 4 → (mem.writeWord .little a v).read (a + BitVec.ofNat 32 j).toNat = v.extractLsb' (8 * j) 8) ∧
    (∀ j, j < 4 → (mem.writeWord .big a v).read (a + BitVec.ofNat 32 j).toNat = v.extractLsb' (24 - 8 * j) 8) ∧
    (∀ b, (∀ j, j < 4 → b ≠ (a + BitVec.ofNat 32 j).toNat) → (mem.writeWord order a v).read b = mem.read b)

/-! ## The step -/

/-- With the gates open, a filled pipeline and a fetch that does not stop, a step whose decode slot holds a recognized
word is exec of its instruction after the fetch: the slots move up, the word at R15 enters the fetch slot with the kind
NK, and nothing else has changed (40_step_and_conditions.md R56, R60). The pending bus answers and the bus record are the
model's (notes/assumptions/5.md, 7.md); that the gates ask for a valid mode is notes/assumptions/9.md. What the plain
memory answers at a misaligned address under PassToBus is the model's (notes/assumptions/6.md). -/
def Obligations.StepRunsDecoded : Prop :=
  ∀ (s : State) (i : Instr), StepOpen s → s.pipeValid = true → FetchOk s s.pc 4 →
    decode s.params.compareRdCheck s.pipe0 = .ok i →
    step s = exec i { s with
      pipe0 := s.pipe1
      pipe1 := s.nthWordAnswer 0 s.pc
      busIn := s.busIn.drop 1
      busLog := s.busLog ++ [.readWord s.pc ⟨.code, s.nk⟩] }

/-- With an empty pipeline the step first reloads at R15 and then runs the word that stands there
(40_step_and_conditions.md R59, R65). pipe_valid is the spec's own decision D2, NK is D7; the pending bus answers and the
bus record are the model's (notes/assumptions/5.md, 7.md). What the plain memory answers at a misaligned address under
PassToBus is the model's (notes/assumptions/6.md). -/
def Obligations.StepFromEmptyPipeline : Prop :=
  ∀ (s : State) (i : Instr), StepOpen s → s.pipeValid = false → FetchOk s s.pc 4 →
    decode s.params.compareRdCheck (s.nthWordAnswer 0 s.pc) = .ok i →
    step s = exec i { s.setPc (s.pc + 8#32) with
      pipe0 := s.nthWordAnswer 1 (s.pc + 4#32)
      pipe1 := s.nthWordAnswer 2 (s.pc + 8#32)
      pipeValid := true
      nk := .seq
      busIn := s.busIn.drop 3
      busLog := s.busLog ++ [.readWord s.pc ⟨.code, .nonSeq⟩, .readWord (s.pc + 4#32) ⟨.code, .seq⟩,
        .readWord (s.pc + 8#32) ⟨.code, .seq⟩] }

/-- An unrecognized word is reported, whatever its condition field, and skipped (40_step_and_conditions.md R66): the
report, the fetch that already occurred, R15 + 4 and NK are the only effects. With an empty pipeline the word is the one
the initial reload reads, and the reload comes first (R59). The report's content is the spec's own decision D20, NK is D7,
the dropped report is D31. What the plain memory answers at a misaligned address under PassToBus is the model's
(notes/assumptions/6.md). -/
def Obligations.StepUnrecognized : Prop :=
  ∀ (s : State) (e : Reject), StepOpen s → FetchOk s s.pc 4 →
    (s.pipeValid = true → decode s.params.compareRdCheck s.pipe0 = .error e →
      step s = .next { s.setPc (s.pc + 4#32) with
        pipe0 := s.pipe1
        pipe1 := s.nthWordAnswer 0 s.pc
        nk := .seq
        busIn := s.busIn.drop 1
        busLog := s.busLog ++ [.readWord s.pc ⟨.code, s.nk⟩]
        trace := s.trace.map fun t => t ++ [⟨s.pipe0, s.pc - 8#32⟩] }) ∧
    (s.pipeValid = false → decode s.params.compareRdCheck (s.nthWordAnswer 0 s.pc) = .error e →
      step s = .next { s.setPc (s.pc + 12#32) with
        pipe0 := s.nthWordAnswer 1 (s.pc + 4#32)
        pipe1 := s.nthWordAnswer 2 (s.pc + 8#32)
        pipeValid := true
        nk := .seq
        busIn := s.busIn.drop 3
        busLog := s.busLog ++ [.readWord s.pc ⟨.code, .nonSeq⟩, .readWord (s.pc + 4#32) ⟨.code, .seq⟩,
          .readWord (s.pc + 8#32) ⟨.code, .seq⟩]
        trace := s.trace.map fun t => t ++ [⟨s.nthWordAnswer 0 s.pc, s.pc⟩] })

/-- An instruction whose condition fails changes R15 by 4 and sets NK to S_CODE, and nothing else
(40_step_and_conditions.md R63). For all 53 constructors. NK is the spec's own decision D7. -/
def Obligations.ConditionFailed : Prop :=
  ∀ (i : Instr) (s : State) (m : Mode), s.mode? = some m → condHolds i.cond s.cpsr = false →
    exec i s = .next { s.setPc (s.pc + 4#32) with nk := .seq }

/-- The gates of a step: a core that is not running stays as it is (40_step_and_conditions.md R57), and a step that begins
in Thumb state stops the core and changes nothing else (R58). The Thumb refusal is the spec's own decision D19; that both
are next states is notes/assumptions/3.md. -/
def Obligations.StepGates : Prop :=
  ∀ s : State,
    (s.status ≠ .running → step s = .next s) ∧
    (s.status = .running → Cpsr.t s.cpsr = true → step s = .next { s with status := .refused .thumbUnmodelled })

/-- A misaligned step fetch under MISALIGNED_FETCH = Fault stops the core before its bus call (20_memory.md R32,
40_step_and_conditions.md R60): with a filled pipeline the decode slot has moved up already, with an empty one nothing
has. The stop is the spec's own decision D11 and what it leaves is D25; that it is a next state is
notes/assumptions/3.md. -/
def Obligations.MisalignedStepFetch : Prop :=
  ∀ s : State, StepOpen s → FetchStops s s.pc 4 →
    step s = .next (if s.pipeValid then { s with pipe0 := s.pipe1, status := .fault .misalignedFetch }
      else { s with status := .fault .misalignedFetch })

/-- Every instruction and every step answers a next state, on every state: no run ends in a refusal of the model's own
(60_exceptions.md R116, R119, by notes/assumptions/3.md). -/
def Obligations.AlwaysAnswers : Prop :=
  (∀ (i : Instr) (s : State), ∃ t, exec i s = .next t) ∧ ∀ s : State, ∃ t, step s = .next t

/-! ## Reset -/

/-- Construction with any parameters leaves the values of 10_state.md R23. pipe and pipe_valid are the spec's own decision
D2, RESET_IF D3, the SPSRs D4, NK D5, bits 27:8 D18; the bus record is the model's (notes/assumptions/7.md). -/
def Obligations.ResetValues : Prop :=
  ∀ p : Params,
    (∀ k : Slot, (State.construct p).getSlot k = 0#32) ∧
    (State.construct p).cpsr = (match p.resetIF with | .bothSet => 0x000000D3#32 | .bothClear => 0x00000013#32) ∧
    (State.construct p).mode? = some .supervisor ∧
    (State.construct p).spsr = ⟨0#32, 0#32, 0#32, 0#32, 0#32⟩ ∧
    (State.construct p).pipe0 = 0#32 ∧ (State.construct p).pipe1 = 0#32 ∧ (State.construct p).pipeValid = false ∧
    (State.construct p).nk = .nonSeq ∧ (State.construct p).status = .running ∧
    (State.construct p).trace.getD [] = [] ∧ (State.construct p).busLog = [] ∧ (State.construct p).params = p

/-- The first step from reset over any memory that holds 0xEA000002 at address 0 makes the five reads of
70_reset_and_hazards.md R130 and leaves R15 = 0x18, every other register 0, the words at 0x10 and 0x14 in the slots, and
nothing reported. The parameters of reset, RESET_IF = (1, 1) among them, are the model's choice (notes/assumptions/2.md);
the initial reload is the spec's own decision D2. That a trace sink is attached is notes/assumptions/8.md. -/
def Obligations.FirstStep : Prop :=
  ∀ mem : Memory, mem.readWord .little 0#32 = 0xEA000002#32 →
    ∃ t, step { State.reset with mem := mem } = .next t ∧
      t.busLog = [.readWord 0x00#32 ⟨.code, .nonSeq⟩, .readWord 0x04#32 ⟨.code, .seq⟩,
        .readWord 0x08#32 ⟨.code, .seq⟩, .readWord 0x10#32 ⟨.code, .nonSeq⟩, .readWord 0x14#32 ⟨.code, .seq⟩] ∧
      t.pc = 0x18#32 ∧ t.pipe0 = mem.readWord .little 0x10#32 ∧ t.pipe1 = mem.readWord .little 0x14#32 ∧
      t.pipeValid = true ∧ t.nk = .seq ∧ t.cpsr = 0x000000D3#32 ∧ (∀ k : Slot, k ≠ .pc → t.getSlot k = 0#32) ∧
      t.spsr = ⟨0#32, 0#32, 0#32, 0#32, 0#32⟩ ∧ t.status = .running ∧ t.trace = some [] ∧ t.mem = mem ∧ t.busIn = [] ∧
      t.params = Params.standard

/-! ## Data processing, destination other than R15

Each statement names the three constructors of its operation, answers a next state, and says the result, the flags and
the frame. -/

/-- AND (43_data_processing.md R89, R85). NK is the spec's own decision D7; that every operand read of the register-shift
form follows the PC advance is D14. -/
def Obligations.AndResult : Prop :=
  ∀ (c : Cond) (setFlags : Bool) (rn rd : Reg) (s : State) (m : Mode), Ready c s m → rd ≠ 15 →
    EachForm (.andImm c setFlags rn rd) (.andShiftImm c setFlags rn rd) (.andShiftReg c setFlags rn rd) fun i op2 =>
      ∃ t, exec i s = .next t ∧
        LogicalDone s t m rd op2 setFlags (operandReg m op2 rn s &&& (operand2 m op2 s).value)

/-- EOR (43_data_processing.md R90, R85). NK is the spec's own decision D7; that every operand read of the register-shift
form follows the PC advance is D14. -/
def Obligations.EorResult : Prop :=
  ∀ (c : Cond) (setFlags : Bool) (rn rd : Reg) (s : State) (m : Mode), Ready c s m → rd ≠ 15 →
    EachForm (.eorImm c setFlags rn rd) (.eorShiftImm c setFlags rn rd) (.eorShiftReg c setFlags rn rd) fun i op2 =>
      ∃ t, exec i s = .next t ∧
        LogicalDone s t m rd op2 setFlags (operandReg m op2 rn s ^^^ (operand2 m op2 s).value)

/-- ORR (43_data_processing.md R101, R85). NK is the spec's own decision D7; that every operand read of the register-shift
form follows the PC advance is D14. -/
def Obligations.OrrResult : Prop :=
  ∀ (c : Cond) (setFlags : Bool) (rn rd : Reg) (s : State) (m : Mode), Ready c s m → rd ≠ 15 →
    EachForm (.orrImm c setFlags rn rd) (.orrShiftImm c setFlags rn rd) (.orrShiftReg c setFlags rn rd) fun i op2 =>
      ∃ t, exec i s = .next t ∧
        LogicalDone s t m rd op2 setFlags (operandReg m op2 rn s ||| (operand2 m op2 s).value)

/-- BIC (43_data_processing.md R103, R85). NK is the spec's own decision D7; that every operand read of the register-shift
form follows the PC advance is D14. -/
def Obligations.BicResult : Prop :=
  ∀ (c : Cond) (setFlags : Bool) (rn rd : Reg) (s : State) (m : Mode), Ready c s m → rd ≠ 15 →
    EachForm (.bicImm c setFlags rn rd) (.bicShiftImm c setFlags rn rd) (.bicShiftReg c setFlags rn rd) fun i op2 =>
      ∃ t, exec i s = .next t ∧
        LogicalDone s t m rd op2 setFlags (operandReg m op2 rn s &&& ~~~(operand2 m op2 s).value)

/-- MOV (43_data_processing.md R102, R85). NK is the spec's own decision D7; that every operand read of the register-shift
form follows the PC advance is D14. -/
def Obligations.MovResult : Prop :=
  ∀ (c : Cond) (setFlags : Bool) (rd : Reg) (s : State) (m : Mode), Ready c s m → rd ≠ 15 →
    EachForm (.movImm c setFlags rd) (.movShiftImm c setFlags rd) (.movShiftReg c setFlags rd) fun i op2 =>
      ∃ t, exec i s = .next t ∧ LogicalDone s t m rd op2 setFlags (operand2 m op2 s).value

/-- MVN (43_data_processing.md R104, R85). NK is the spec's own decision D7; that every operand read of the register-shift
form follows the PC advance is D14. -/
def Obligations.MvnResult : Prop :=
  ∀ (c : Cond) (setFlags : Bool) (rd : Reg) (s : State) (m : Mode), Ready c s m → rd ≠ 15 →
    EachForm (.mvnImm c setFlags rd) (.mvnShiftImm c setFlags rd) (.mvnShiftReg c setFlags rd) fun i op2 =>
      ∃ t, exec i s = .next t ∧ LogicalDone s t m rd op2 setFlags (~~~(operand2 m op2 s).value)

/-- SUB (43_data_processing.md R91, R86): C is "no borrow", V is signed overflow of the exact difference. NK is the spec's
own decision D7; that every operand read of the register-shift form follows the PC advance is D14. -/
def Obligations.SubResult : Prop :=
  ∀ (c : Cond) (setFlags : Bool) (rn rd : Reg) (s : State) (m : Mode), Ready c s m → rd ≠ 15 →
    EachForm (.subImm c setFlags rn rd) (.subShiftImm c setFlags rn rd) (.subShiftReg c setFlags rn rd) fun i op2 =>
      ∃ t, exec i s = .next t ∧
        ArithDone s t m rd op2 setFlags (operandReg m op2 rn s - (operand2 m op2 s).value)
          (decide ((operand2 m op2 s).value.toNat ≤ (operandReg m op2 rn s).toNat))
          (signedOverflow ((operandReg m op2 rn s).toInt - (operand2 m op2 s).value.toInt))

/-- RSB (43_data_processing.md R92, R86). NK is the spec's own decision D7; that every operand read of the register-shift
form follows the PC advance is D14. -/
def Obligations.RsbResult : Prop :=
  ∀ (c : Cond) (setFlags : Bool) (rn rd : Reg) (s : State) (m : Mode), Ready c s m → rd ≠ 15 →
    EachForm (.rsbImm c setFlags rn rd) (.rsbShiftImm c setFlags rn rd) (.rsbShiftReg c setFlags rn rd) fun i op2 =>
      ∃ t, exec i s = .next t ∧
        ArithDone s t m rd op2 setFlags ((operand2 m op2 s).value - operandReg m op2 rn s)
          (decide ((operandReg m op2 rn s).toNat ≤ (operand2 m op2 s).value.toNat))
          (signedOverflow ((operand2 m op2 s).value.toInt - (operandReg m op2 rn s).toInt))

/-- ADD (43_data_processing.md R93, R86). NK is the spec's own decision D7; that every operand read of the register-shift
form follows the PC advance is D14. -/
def Obligations.AddResult : Prop :=
  ∀ (c : Cond) (setFlags : Bool) (rn rd : Reg) (s : State) (m : Mode), Ready c s m → rd ≠ 15 →
    EachForm (.addImm c setFlags rn rd) (.addShiftImm c setFlags rn rd) (.addShiftReg c setFlags rn rd) fun i op2 =>
      ∃ t, exec i s = .next t ∧
        ArithDone s t m rd op2 setFlags (operandReg m op2 rn s + (operand2 m op2 s).value)
          (decide (2 ^ 32 ≤ (operandReg m op2 rn s).toNat + (operand2 m op2 s).value.toNat))
          (signedOverflow ((operandReg m op2 rn s).toInt + (operand2 m op2 s).value.toInt))

/-- ADC (43_data_processing.md R94, R86): carry and overflow are of the whole sum, carry-in included. NK is the spec's own
decision D7; that every operand read of the register-shift form follows the PC advance is D14. -/
def Obligations.AdcResult : Prop :=
  ∀ (c : Cond) (setFlags : Bool) (rn rd : Reg) (s : State) (m : Mode), Ready c s m → rd ≠ 15 →
    EachForm (.adcImm c setFlags rn rd) (.adcShiftImm c setFlags rn rd) (.adcShiftReg c setFlags rn rd) fun i op2 =>
      ∃ t, exec i s = .next t ∧
        ArithDone s t m rd op2 setFlags
          (operandReg m op2 rn s + (operand2 m op2 s).value + (if Cpsr.c s.cpsr then 1#32 else 0#32))
          (decide (2 ^ 32 ≤ (operandReg m op2 rn s).toNat + (operand2 m op2 s).value.toNat + (Cpsr.c s.cpsr).toNat))
          (signedOverflow ((operandReg m op2 rn s).toInt + (operand2 m op2 s).value.toInt + bit (Cpsr.c s.cpsr)))

/-- SBC (43_data_processing.md R95, R86): the difference less the borrow 1 - C. NK is the spec's own decision D7; that
every operand read of the register-shift form follows the PC advance is D14. -/
def Obligations.SbcResult : Prop :=
  ∀ (c : Cond) (setFlags : Bool) (rn rd : Reg) (s : State) (m : Mode), Ready c s m → rd ≠ 15 →
    EachForm (.sbcImm c setFlags rn rd) (.sbcShiftImm c setFlags rn rd) (.sbcShiftReg c setFlags rn rd) fun i op2 =>
      ∃ t, exec i s = .next t ∧
        ArithDone s t m rd op2 setFlags
          (operandReg m op2 rn s - (operand2 m op2 s).value - (if Cpsr.c s.cpsr then 0#32 else 1#32))
          (decide ((operand2 m op2 s).value.toNat + 1 ≤ (operandReg m op2 rn s).toNat + (Cpsr.c s.cpsr).toNat))
          (signedOverflow ((operandReg m op2 rn s).toInt - (operand2 m op2 s).value.toInt - 1 + bit (Cpsr.c s.cpsr)))

/-- RSC (43_data_processing.md R96, R86). NK is the spec's own decision D7; that every operand read of the register-shift
form follows the PC advance is D14. -/
def Obligations.RscResult : Prop :=
  ∀ (c : Cond) (setFlags : Bool) (rn rd : Reg) (s : State) (m : Mode), Ready c s m → rd ≠ 15 →
    EachForm (.rscImm c setFlags rn rd) (.rscShiftImm c setFlags rn rd) (.rscShiftReg c setFlags rn rd) fun i op2 =>
      ∃ t, exec i s = .next t ∧
        ArithDone s t m rd op2 setFlags
          ((operand2 m op2 s).value - operandReg m op2 rn s - (if Cpsr.c s.cpsr then 0#32 else 1#32))
          (decide ((operandReg m op2 rn s).toNat + 1 ≤ (operand2 m op2 s).value.toNat + (Cpsr.c s.cpsr).toNat))
          (signedOverflow ((operand2 m op2 s).value.toInt - (operandReg m op2 rn s).toInt - 1 + bit (Cpsr.c s.cpsr)))

/-- TST and TEQ with a destination field other than 15 (43_data_processing.md R97, R98, R85): flags only, no register. NK
is the spec's own decision D7; that every operand read of the register-shift form follows the PC advance is D14. -/
def Obligations.TstTeqResult : Prop :=
  ∀ (c : Cond) (rn rd : Reg) (s : State) (m : Mode), Ready c s m → rd ≠ 15 →
    EachForm (.tstImm c rn rd) (.tstShiftImm c rn rd) (.tstShiftReg c rn rd) (fun i op2 =>
      ∃ t, exec i s = .next t ∧
        CompareDone s t op2 ((operandReg m op2 rn s &&& (operand2 m op2 s).value).getLsbD 31)
          (decide (operandReg m op2 rn s &&& (operand2 m op2 s).value = 0#32)) (operand2 m op2 s).carry
          (Cpsr.v s.cpsr)) ∧
    EachForm (.teqImm c rn rd) (.teqShiftImm c rn rd) (.teqShiftReg c rn rd) fun i op2 =>
      ∃ t, exec i s = .next t ∧
        CompareDone s t op2 ((operandReg m op2 rn s ^^^ (operand2 m op2 s).value).getLsbD 31)
          (decide (operandReg m op2 rn s = (operand2 m op2 s).value)) (operand2 m op2 s).carry (Cpsr.v s.cpsr)

/-- CMP and CMN with a destination field other than 15 (43_data_processing.md R99, R100, R86): flags only, no register. NK
is the spec's own decision D7; that every operand read of the register-shift form follows the PC advance is D14. -/
def Obligations.CmpCmnResult : Prop :=
  ∀ (c : Cond) (rn rd : Reg) (s : State) (m : Mode), Ready c s m → rd ≠ 15 →
    EachForm (.cmpImm c rn rd) (.cmpShiftImm c rn rd) (.cmpShiftReg c rn rd) (fun i op2 =>
      ∃ t, exec i s = .next t ∧
        CompareDone s t op2 ((operandReg m op2 rn s - (operand2 m op2 s).value).getLsbD 31)
          (decide (operandReg m op2 rn s = (operand2 m op2 s).value))
          (decide ((operand2 m op2 s).value.toNat ≤ (operandReg m op2 rn s).toNat))
          (signedOverflow ((operandReg m op2 rn s).toInt - (operand2 m op2 s).value.toInt))) ∧
    EachForm (.cmnImm c rn rd) (.cmnShiftImm c rn rd) (.cmnShiftReg c rn rd) fun i op2 =>
      ∃ t, exec i s = .next t ∧
        CompareDone s t op2 ((operandReg m op2 rn s + (operand2 m op2 s).value).getLsbD 31)
          (decide (operandReg m op2 rn s + (operand2 m op2 s).value = 0#32))
          (decide (2 ^ 32 ≤ (operandReg m op2 rn s).toNat + (operand2 m op2 s).value.toNat))
          (signedOverflow ((operandReg m op2 rn s).toInt + (operand2 m op2 s).value.toInt))

/-! ## Data processing, destination R15 -/

/-- A data-processing instruction other than a compare with Rd = 15 and S = 0 is a jump to its result: a reload there and
nothing else (43_data_processing.md R87, R88). NK is the spec's own decision D7, the low bits of the target D33, the
operand reads of the register-shift form D14. What the plain memory answers at a misaligned address under PassToBus is the
model's (notes/assumptions/6.md). -/
def Obligations.DpJump : Prop :=
  ∀ (i : Instr) (op : DpOp) (rn : Reg) (op2 : Operand2) (s : State) (m : Mode),
    i.variant = .dataProcessing op 15 rn op2 false → op.isCompare = false → Ready i.cond s m →
    FetchOk s (resultIn m op rn op2 s).res s.codeWidth →
    ∃ t, exec i s = .next t ∧ t.cpsr = s.cpsr ∧ RegsKept s t (fun _ => False) ∧ RestKept s t ∧
      Reloaded s t 0 (dpCalls op2) (resultIn m op rn op2 s).res

/-- With Rd = 15 and S = 1 it is the return from a handler (43_data_processing.md R87, 60_exceptions.md R122): the saved
status word goes to CPSR whole, no register of any bank is copied, and the reload has the width of the restored T. The
full copy is the spec's own decision D18, the order of flags and restore D23, the width after a Thumb restore D19, NK D7,
the operand reads D14. What the plain memory answers at a misaligned address under PassToBus is the model's
(notes/assumptions/6.md). -/
def Obligations.DpReturn : Prop :=
  ∀ (i : Instr) (op : DpOp) (rn : Reg) (op2 : Operand2) (s : State) (m : Mode),
    i.variant = .dataProcessing op 15 rn op2 true → op.isCompare = false → Ready i.cond s m →
    (Cpsr.mode? (s.savedStatus m)).isSome = true →
    FetchOk s (resultIn m op rn op2 s).res (widthUnder (s.savedStatus m)) →
    ∃ t, exec i s = .next t ∧ CpsrAfterRestore s t m (resultIn m op rn op2 s) ∧ RegsKept s t (fun _ => False) ∧
      RestKept s t ∧ Reloaded s t 0 (dpCalls op2) (resultIn m op rn op2 s).res

/-- A compare with Rd = 15 restores the status word and does not jump (43_data_processing.md R87, C17). The full copy is
the spec's own decision D18, the order of flags and restore D23, NK D7, the operand reads D14. -/
def Obligations.CompareRestore : Prop :=
  ∀ (i : Instr) (op : DpOp) (rn : Reg) (op2 : Operand2) (s : State) (m : Mode),
    i.variant = .dataProcessing op 15 rn op2 true → op.isCompare = true → Ready i.cond s m →
    (Cpsr.mode? (s.savedStatus m)).isSome = true →
    ∃ t, exec i s = .next t ∧ CpsrAfterRestore s t m (resultIn m op rn op2 s) ∧ RegsKept s t (fun _ => False) ∧
      DpEnd s t op2

/-- A status restore whose saved word holds no valid mode stops the core with Fatal(InvalidMode), with CPSR and the result
register already written and nothing after (43_data_processing.md R87, 60_exceptions.md R116, R119). The point of the
check is the spec's own decision D17, what the stop leaves is D25; that it is a next state is notes/assumptions/3.md. -/
def Obligations.RestoreInvalidMode : Prop :=
  ∀ (i : Instr) (op : DpOp) (rn : Reg) (op2 : Operand2) (s : State) (m : Mode),
    i.variant = .dataProcessing op 15 rn op2 true → Ready i.cond s m →
    Cpsr.mode? (s.savedStatus m) = none →
    ∃ t, exec i s = .next t ∧ t.status = .fatal .invalidMode ∧ t.cpsr = s.savedStatus m ∧
      t.pc = (if op.isCompare then (if isRegisterShift op2 then s.pc + 4#32 else s.pc)
        else (resultIn m op rn op2 s).res) ∧
      RegsKept s t (fun _ => False) ∧ PipeKept s t ∧ t.nk = s.nk ∧ t.mem = s.mem ∧ t.spsr = s.spsr ∧
      t.trace = s.trace ∧ t.params = s.params ∧ t.busIn = s.busIn ∧ t.busLog = s.busLog ++ dpCalls op2

/-! ## Branches -/

/-- B (41_branch.md R69): R15 moves by four times the signed offset, the pipeline reloads there, nothing else changes. NK
is the spec's own decision D7. What the plain memory answers at a misaligned address under PassToBus is the model's
(notes/assumptions/6.md). -/
def Obligations.BranchResult : Prop :=
  ∀ (c : Cond) (offset24 : BitVec 24) (s : State) (m : Mode), Ready c s m →
    FetchOk s (branchTarget s offset24) s.codeWidth →
    ∃ t, exec (.b c offset24) s = .next t ∧ t.cpsr = s.cpsr ∧ RegsKept s t (fun _ => False) ∧ RestKept s t ∧
      Reloaded s t 0 [] (branchTarget s offset24)

/-- BL (41_branch.md R70): the link value A + 4 in the current mode's R14, then the branch. NK is the spec's own decision
D7. What the plain memory answers at a misaligned address under PassToBus is the model's (notes/assumptions/6.md). -/
def Obligations.BranchLinkResult : Prop :=
  ∀ (c : Cond) (offset24 : BitVec 24) (s : State) (m : Mode), Ready c s m →
    FetchOk s (branchTarget s offset24) s.codeWidth →
    ∃ t, exec (.bl c offset24) s = .next t ∧ t.reg m 14 = s.pc - 4#32 ∧ t.cpsr = s.cpsr ∧
      RegsKept s t (· = slot m 14) ∧ RestKept s t ∧ Reloaded s t 0 [] (branchTarget s offset24)

/-- BX (41_branch.md R71): an even target jumps with the state kept, an odd target sets T and jumps to the target with bit
0 cleared, with halfword reads. The Thumb-width reload is the spec's own decision D19, its slot values D27, NK D7. What
the plain memory answers at a misaligned address under PassToBus is the model's (notes/assumptions/6.md). -/
def Obligations.BranchExchangeResult : Prop :=
  ∀ (c : Cond) (rm : Reg) (s : State) (m : Mode), Ready c s m →
    ((s.reg m rm).getLsbD 0 = false → FetchOk s (s.reg m rm) s.codeWidth →
      ∃ t, exec (.bx c rm) s = .next t ∧ t.cpsr = s.cpsr ∧ RegsKept s t (fun _ => False) ∧ RestKept s t ∧
        Reloaded s t 0 [] (s.reg m rm)) ∧
    ((s.reg m rm).getLsbD 0 = true →
      ∃ t, exec (.bx c rm) s = .next t ∧
        (∀ j, t.cpsr.getLsbD j = if j = 5 then true else s.cpsr.getLsbD j) ∧ RegsKept s t (fun _ => False) ∧
        RestKept s t ∧ ReloadedThumb s t 0 [] (s.reg m rm - 1#32))

/-- A reload at a misaligned address under MISALIGNED_FETCH = Fault stops the core with R15 written and no reload read
(20_memory.md R32, 60_exceptions.md R119): B, BL, BX, and data processing with Rd = 15, whose status restore, with S = 1,
comes before the stop. The stop is the spec's own decision D11 and what it leaves is D25; that it is a next state is
notes/assumptions/3.md. -/
def Obligations.MisalignedReload : Prop :=
  (∀ (c : Cond) (offset24 : BitVec 24) (s : State) (m : Mode), Ready c s m →
    FetchStops s (branchTarget s offset24) s.codeWidth →
    exec (.b c offset24) s = .next ((s.setPc (branchTarget s offset24)).stopped (.fault .misalignedFetch)) ∧
    exec (.bl c offset24) s = .next
      (((s.setReg m 14 (s.pc - 4#32)).setPc (branchTarget s offset24)).stopped (.fault .misalignedFetch))) ∧
  (∀ (c : Cond) (rm : Reg) (s : State) (m : Mode), Ready c s m → (s.reg m rm).getLsbD 0 = false →
    FetchStops s (s.reg m rm) s.codeWidth →
    exec (.bx c rm) s = .next ((s.setPc (s.reg m rm)).stopped (.fault .misalignedFetch))) ∧
  (∀ (i : Instr) (op : DpOp) (rn : Reg) (op2 : Operand2) (s : State) (m : Mode),
    i.variant = .dataProcessing op 15 rn op2 false → op.isCompare = false → Ready i.cond s m →
    FetchStops s (resultIn m op rn op2 s).res s.codeWidth →
    ∃ t, exec i s = .next t ∧ t.status = .fault .misalignedFetch ∧ t.pc = (resultIn m op rn op2 s).res ∧
      t.cpsr = s.cpsr ∧ RegsKept s t (fun _ => False) ∧ PipeKept s t ∧ t.nk = s.nk ∧ t.mem = s.mem ∧
      t.spsr = s.spsr ∧ t.trace = s.trace ∧ t.params = s.params ∧ t.busIn = s.busIn ∧
      t.busLog = s.busLog ++ dpCalls op2) ∧
  (∀ (i : Instr) (op : DpOp) (rn : Reg) (op2 : Operand2) (s : State) (m : Mode),
    i.variant = .dataProcessing op 15 rn op2 true → op.isCompare = false → Ready i.cond s m →
    (Cpsr.mode? (s.savedStatus m)).isSome = true →
    FetchStops s (resultIn m op rn op2 s).res (widthUnder (s.savedStatus m)) →
    ∃ t, exec i s = .next t ∧ t.status = .fault .misalignedFetch ∧ t.pc = (resultIn m op rn op2 s).res ∧
      CpsrAfterRestore s t m (resultIn m op rn op2 s) ∧ RegsKept s t (fun _ => False) ∧ PipeKept s t ∧ t.nk = s.nk ∧
      t.mem = s.mem ∧ t.spsr = s.spsr ∧ t.trace = s.trace ∧ t.params = s.params ∧ t.busIn = s.busIn ∧
      t.busLog = s.busLog ++ dpCalls op2)

/-! ## Block transfers -/

/-- The effective list (44_block_transfer.md R105): the empty list is the list of R15, and n is the number of set bits, 1
to 16. And the four address modes (R106): IB, IA, DB and DA, with the written-back base. The P and U terms are general
knowledge the spec adopts (K-13, notes/assumptions/10.md), and the reading of the lowest address is the spec's own
(90_conflicts.md C10). -/
def Obligations.BlockListAndAddresses : Prop :=
  (∀ list : BitVec 16,
    (list = 0#16 → effectiveList list = 0x8000#16) ∧ (list ≠ 0#16 → effectiveList list = list) ∧
    transferCount (effectiveList list) = ((List.range 16).filter fun j => (effectiveList list).getLsbD j).length ∧
    1 ≤ transferCount (effectiveList list) ∧ transferCount (effectiveList list) ≤ 16) ∧
  (∀ (base : Word) (n : Nat),
    blockStart true true base n = base + 4#32 ∧ blockStart false true base n = base ∧
    blockStart true false base n = base - BitVec.ofNat 32 (4 * n) ∧
    blockStart false false base n = base - BitVec.ofNat 32 (4 * n) + 4#32 ∧
    blockWriteback true base n = base + BitVec.ofNat 32 (4 * n) ∧
    blockWriteback false base n = base - BitVec.ofNat 32 (4 * n))

/-- LDM without R15 (44_block_transfer.md R107, R109-R112, R114): every listed register of the bank gets the word at its
place in the block, the base is written back unless it was loaded, nothing else changes, and the bus sees n reads and an
idle turn. The idle turn is the spec's own decision D8, NK D7, the S bit D10. What the plain memory answers at a
misaligned address under PassToBus is the model's (notes/assumptions/6.md). -/
def Obligations.LdmResult : Prop :=
  ∀ (c : Cond) (p u sBit w : Bool) (rn : Reg) (list : BitVec 16) (s : State) (m : Mode), Ready c s m →
    BlockOk true m p u sBit w rn list s → (effectiveList list).getLsbD 15 = false →
    ∃ t, exec (.ldm c p u sBit w rn list) s = .next t ∧
      Loaded s t m (if sBit then .user else m) p u w rn list ∧ t.cpsr = s.cpsr ∧ RestKept s t ∧ PipeKept s t ∧
      t.pc = s.pc + 4#32 ∧ t.nk = .seq ∧ t.busIn = s.busIn.drop (transferCount (effectiveList list)) ∧
      t.busLog = s.busLog ++ loadCalls (startIn m p u rn list s) (transferCount (effectiveList list)) ++ [.idle]

/-- LDM with R15, S = 0 or the status restore of S = 1 under ArmV4 (44_block_transfer.md R109-R112, R114): the other
registers as in LdmResult from the current bank, R15 the last word, CPSR restored when S = 1, and the reload there. The
idle turn is the spec's own decision D8, the S bit D10, the unmasked target D21 and D33, the order D22, the Thumb width
D19, NK D7. What the plain memory answers at a misaligned address under PassToBus is the model's
(notes/assumptions/6.md). -/
def Obligations.LdmJump : Prop :=
  ∀ (c : Cond) (p u sBit w : Bool) (rn : Reg) (list : BitVec 16) (s : State) (m : Mode), Ready c s m →
    BlockOk true m p u sBit w rn list s → (effectiveList list).getLsbD 15 = true →
    (sBit = true → (Cpsr.mode? (s.savedStatus m)).isSome = true) →
    FetchOk s (s.nthWordAnswer (position (effectiveList list) 15)
      (blockAddr (startIn m p u rn list s) (position (effectiveList list) 15)))
      (widthUnder (if sBit then s.savedStatus m else s.cpsr)) →
    ∃ t, exec (.ldm c p u sBit w rn list) s = .next t ∧ Loaded s t m m p u w rn list ∧
      t.cpsr = (if sBit then s.savedStatus m else s.cpsr) ∧ RestKept s t ∧
      Reloaded s t (transferCount (effectiveList list))
        (loadCalls (startIn m p u rn list s) (transferCount (effectiveList list)) ++ [.idle])
        (s.nthWordAnswer (position (effectiveList list) 15)
          (blockAddr (startIn m p u rn list s) (position (effectiveList list) 15)))

/-- STM (44_block_transfer.md R107, R108, R110, R111, R112, R115): every listed register's value at its place in the
block, no other byte of memory changed, the base written back, no register but the base and R15 changed, and n writes on
the bus. The memory is in canonical form (Inv). STM_PC_LEAD is the spec's own decision D9, NK D7, the S bit D10; the
canonical form is notes/assumptions/4.md. Where the four bytes of a word lie, and that they wrap at 2^32 and start at a
misaligned address under PassToBus, is the model's choice (notes/assumptions/6.md): R33 leaves that case to the bus. -/
def Obligations.StmResult : Prop :=
  ∀ (c : Cond) (p u sBit w : Bool) (rn : Reg) (list : BitVec 16) (s : State) (m : Mode), Ready c s m →
    BlockOk false m p u sBit w rn list s → s.mem.wf = true →
    ∃ t, exec (.stm c p u sBit w rn list) s = .next t ∧
      (∀ i : Reg, (effectiveList list).getLsbD i.val = true →
        t.mem.readWord s.params.byteOrder
          (blockAddr (startIn m p u rn list s) (position (effectiveList list) i)) = stmValue m u sBit w rn list s i) ∧
      (∀ a : Nat, (∀ k, k < transferCount (effectiveList list) → ∀ j, j < 4 →
        a ≠ byteAddr (blockAddr (startIn m p u rn list s) k) j) → t.mem.read a = s.mem.read a) ∧
      (w = true → t.reg m rn = writebackIn m u rn list s) ∧
      RegsKept s t (fun k => w = true ∧ k = slot m rn) ∧
      t.cpsr = s.cpsr ∧ t.spsr = s.spsr ∧ t.trace = s.trace ∧ t.params = s.params ∧ t.status = s.status ∧
      PipeKept s t ∧ t.busIn = s.busIn ∧ t.pc = s.pc + 4#32 ∧ t.nk = .nonSeq ∧
      t.busLog = s.busLog ++ storeCalls m p u sBit w rn list s

/-- The checks of LDM and STM stop the core before any data access, in the order of 44_block_transfer.md R113, and change
the status only. The four checks and their order are the spec's own decisions D10, D12, D13 and D26; that a stop is a next
state is notes/assumptions/3.md. -/
def Obligations.BlockStops : Prop :=
  ∀ (load : Bool) (c : Cond) (p u sBit w : Bool) (rn : Reg) (list : BitVec 16) (s : State) (m : Mode), Ready c s m →
    (sBit = true ∧ s.params.blockSBit = .refuse →
      exec (if load then .ldm c p u sBit w rn list else .stm c p u sBit w rn list) s =
        .next (s.stopped (.refused .blockSBit))) ∧
    ((sBit = true → s.params.blockSBit = .armV4) ∧ w = true ∧ rn = 15 →
      exec (if load then .ldm c p u sBit w rn list else .stm c p u sBit w rn list) s =
        .next (s.stopped (.fault .r15Writeback))) ∧
    ((sBit = true → s.params.blockSBit = .armV4) ∧ w = true ∧ rn ≠ 15 ∧
        userBankTransfer load sBit (effectiveList list) = true →
      exec (if load then .ldm c p u sBit w rn list else .stm c p u sBit w rn list) s =
        .next (s.stopped (.fault .blockSBitWriteback))) ∧
    ((sBit = true → s.params.blockSBit = .armV4) ∧ (w = true → rn ≠ 15) ∧
        (w = true → userBankTransfer load sBit (effectiveList list) = false) ∧
        (startIn m p u rn list s).toNat % 4 ≠ 0 ∧ s.params.misalignedBlock = .fault →
      exec (if load then .ldm c p u sBit w rn list else .stm c p u sBit w rn list) s =
        .next (s.stopped (.fault .misalignedBlock)))

/-- The two stops at the end of an LDM that loads R15 (44_block_transfer.md R111, 60_exceptions.md R116, R119): an invalid
restored mode and a misaligned reload, each after the transfers and the idle turn, R15 holding the loaded word, with no
reload read. The stops are the spec's own decisions D11, D17 and D25, the order D22; that a stop is a next state is
notes/assumptions/3.md. What the plain memory answers at a misaligned address under PassToBus is the model's
(notes/assumptions/6.md). -/
def Obligations.LdmJumpStops : Prop :=
  ∀ (c : Cond) (p u sBit w : Bool) (rn : Reg) (list : BitVec 16) (s : State) (m : Mode), Ready c s m →
    BlockOk true m p u sBit w rn list s → (effectiveList list).getLsbD 15 = true →
    (sBit = true → Cpsr.mode? (s.savedStatus m) = none →
      ∃ t, exec (.ldm c p u sBit w rn list) s = .next t ∧ t.status = .fatal .invalidMode ∧
        t.pc = s.nthWordAnswer (position (effectiveList list) 15)
          (blockAddr (startIn m p u rn list s) (position (effectiveList list) 15)) ∧
        t.cpsr = s.savedStatus m ∧ Loaded s t m m p u w rn list ∧ PipeKept s t ∧ t.mem = s.mem ∧ t.spsr = s.spsr ∧
        t.trace = s.trace ∧ t.params = s.params ∧ t.nk = s.nk ∧
        t.busIn = s.busIn.drop (transferCount (effectiveList list)) ∧
        t.busLog = s.busLog ++ loadCalls (startIn m p u rn list s) (transferCount (effectiveList list)) ++ [.idle]) ∧
    ((sBit = true → (Cpsr.mode? (s.savedStatus m)).isSome = true) →
      FetchStops s (s.nthWordAnswer (position (effectiveList list) 15)
        (blockAddr (startIn m p u rn list s) (position (effectiveList list) 15)))
        (widthUnder (if sBit then s.savedStatus m else s.cpsr)) →
      ∃ t, exec (.ldm c p u sBit w rn list) s = .next t ∧ t.status = .fault .misalignedFetch ∧
        t.pc = s.nthWordAnswer (position (effectiveList list) 15)
          (blockAddr (startIn m p u rn list s) (position (effectiveList list) 15)) ∧
        t.cpsr = (if sBit then s.savedStatus m else s.cpsr) ∧ Loaded s t m m p u w rn list ∧ PipeKept s t ∧
        t.mem = s.mem ∧ t.spsr = s.spsr ∧ t.trace = s.trace ∧ t.params = s.params ∧ t.nk = s.nk ∧
        t.busIn = s.busIn.drop (transferCount (effectiveList list)) ∧
        t.busLog = s.busLog ++ loadCalls (startIn m p u rn list s) (transferCount (effectiveList list)) ++ [.idle])

/-! ## The whole machine -/

/-- Every construction satisfies the invariant. The canonical form of memory is the model's (notes/assumptions/4.md). -/
def Obligations.InvReset : Prop := ∀ p : Params, Inv (State.construct p)

/-- Every step keeps the invariant: canonical memory, a valid mode while running, an aligned R15 while running
(10_state.md R14, R19, R25; 20_memory.md R32; 60_exceptions.md R116). The canonical form of memory is the model's
(notes/assumptions/4.md); the checks it rests on are the spec's own decisions D11 and D17. -/
def Obligations.InvStep : Prop := ∀ s t : State, Inv s → step s = .next t → Inv t

/-- No step writes a saved status word (10_state.md R17, 60_exceptions.md R118). Nor does one change a parameter, which
are given at construction (70_reset_and_hazards.md R129; that they are data of a state is the model's choice,
notes/assumptions/1.md), or attach or detach a trace sink (60_exceptions.md R126, notes/assumptions/8.md). -/
def Obligations.SavedWordsNeverWritten : Prop :=
  ∀ s t : State, step s = .next t → t.spsr = s.spsr ∧ t.params = s.params ∧ t.trace.isSome = s.trace.isSome

/-- No step leaves User mode or System mode, or changes the reserved bits, I or F there (60_exceptions.md R125,
10_state.md R13). The spec marks the first claim as its own inference (R125, derived from R122 and R16). -/
def Obligations.UserModeStays : Prop :=
  ∀ (s t : State) (m : Mode), m = .user ∨ m = .system → s.mode? = some m → step s = .next t →
    t.mode? = some m ∧ t.cpsr.extractLsb' 6 22 = s.cpsr.extractLsb' 6 22

/-- No instruction but STM changes memory, and no instruction of the table reports an event (20_memory.md R29, 60_exceptions.md
R126). For all 53 constructors, their stops included. -/
def Obligations.OnlyStmWritesMemory : Prop :=
  ∀ (i : Instr) (s t : State), exec i s = .next t →
    ((∀ load p u sBit w rn list, i.variant = .blockDataTransfer load p u sBit w rn list → load = true) → t.mem = s.mem) ∧
    t.trace = s.trace

/-- A step only appends to the bus record, and appends only the calls the rules allow (20_memory.md R27, R29); a step of a
stopped core (40_step_and_conditions.md R57) or in Thumb state (R58) appends none, and neither does one in a state with an
invalid mode, which is the model's own deduction (notes/assumptions/9.md). The bus record is the model's
(notes/assumptions/7.md). -/
def Obligations.BusCallsAllowed : Prop :=
  ∀ s t : State, step s = .next t →
    ∃ calls, t.busLog = s.busLog ++ calls ∧ (∀ e ∈ calls, CallAllowed e) ∧ (¬ StepOpen s → calls = [])

/-- The ends of a run (70_reset_and_hazards.md R137). (a) A step that executes `B .`, with a filled or an empty pipeline,
gives back the registers, the status words, memory, trace and status it found, reloads the pipeline at its own address and
ends the run normally; if the word read there is the one it ran, the next step executes `B .` again. A run ends normally
only so, and running. (b) A step that leaves the status not Running ends the run stopped, and a run ends stopped only so.
(c) Without a step the run is out of fuel, and a step that ends it neither way leaves it to the steps that remain. The
ends of a run are the spec's own decision D28, NK is D7; run as a function of the number of steps is the model's
(notes/assumptions/16.md). What the plain memory answers at a misaligned address under PassToBus is the model's
(notes/assumptions/6.md). -/
def Obligations.SelfBranchIsTheEnd : Prop :=
  (∀ s : State, AtSelfBranch s →
    ∃ t, step s = .next t ∧ RegsKept s t (fun _ => False) ∧ t.cpsr = s.cpsr ∧ RestKept s t ∧
      ReloadedArm s t s.stepReads.length s.stepReads s.nextAddress ∧ (s.pipeValid = true → t.regs = s.regs) ∧
      (∀ fuel, run (fuel + 1) s = (.normal, t)) ∧
      (s.nthWordAnswer s.stepReads.length s.nextAddress = s.nextWord → AtSelfBranch t)) ∧
  (∀ (fuel : Nat) (s t : State), run fuel s = (.normal, t) →
    t.status = .running ∧ ∃ u, AtSelfBranch u ∧ step u = .next t) ∧
  (∀ (fuel : Nat) (s t : State), step s = .next t → t.status ≠ .running → run (fuel + 1) s = (.stopped, t)) ∧
  (∀ (fuel : Nat) (s t : State), run fuel s = (.stopped, t) → t.status ≠ .running) ∧
  (∀ s : State, run 0 s = (.outOfFuel, s)) ∧
  (∀ (fuel : Nat) (s t : State), step s = .next t → t.status = .running → ¬ AtSelfBranch s →
    run (fuel + 1) s = run fuel t)

/-! ## The bits of a word -/

/-- The encoding of every row (30_encoding.md R41, R44-R51): a word that decodes has the bits of its instruction's row,
each field at the place and with the code the spec gives it. With DecodeEncode and EncodeDecode this fixes the decoder,
for all 53 constructors. The condition and opcode values and the field positions are general knowledge the spec adopts
(K-1, notes/assumptions/10.md). -/
def Obligations.RowBits : Prop :=
  ∀ (chk : CompareRdCheck) (w : Word) (i : Instr), decode chk w = .ok i → InRow i w
end

