-- ==== Sys2Proof/Laws/Memory.lean ====
section
/-! SUPPORT. The laws of the memory behind the bus: a read after a write, and the canonical form that every operation keeps
(20_memory.md R31, R36). -/

namespace Sys2Proof.Machine

/-- Nothing is listed below the first address of the canonical form. -/
theorem Memory.read_of_lt (m : Memory) (lo a : Nat) (h : m.wfFrom lo = true) (ha : a < lo) :
    m.read a = Memory.blank := by
  induction m generalizing lo with
  | nil => rfl
  | cons c rest ih =>
    obtain ⟨k, u⟩ := c
    simp only [Memory.wfFrom, Bool.and_eq_true, decide_eq_true_eq] at h
    have hk : k ≠ a := by omega
    simp only [Memory.read, hk, if_false]
    exact ih (k + 1) h.2 (by omega)

/-- A read after a write: the written byte at its address, the old byte elsewhere. -/
theorem Memory.read_writeFrom (m : Memory) (lo a b : Nat) (v : Byte) (h : m.wfFrom lo = true) :
    (m.write a v).read b = if b = a then v else m.read b := by
  induction m generalizing lo with
  | nil =>
    by_cases hv : v = Memory.blank <;> by_cases hb : a = b <;>
      simp [Memory.write, Memory.read, hv, hb, eq_comm]
  | cons c rest ih =>
    obtain ⟨k, u⟩ := c
    simp only [Memory.wfFrom, Bool.and_eq_true, decide_eq_true_eq] at h
    have hrest := ih (k + 1) h.2
    have hlow := Memory.read_of_lt rest (k + 1) a h.2
    unfold Memory.write
    by_cases h1 : a < k
    · have := Memory.read_of_lt rest (k + 1) b h.2
      by_cases hv : v = Memory.blank <;> by_cases hb : b = a <;> grind [Memory.read]
    · by_cases h2 : a = k
      · by_cases hv : v = Memory.blank <;> by_cases hb : b = a <;> grind [Memory.read]
      · grind [Memory.read]

theorem Memory.read_write (m : Memory) (a b : Nat) (v : Byte) (h : m.wf = true) :
    (m.write a v).read b = if b = a then v else m.read b :=
  m.read_writeFrom 0 a b v h

/-- The canonical form from an address is one from every lower address. -/
theorem Memory.wfFrom_mono (m : Memory) (lo lo' : Nat) (h : m.wfFrom lo = true) (hl : lo' ≤ lo) :
    m.wfFrom lo' = true := by
  cases m with
  | nil => rfl
  | cons c rest =>
    obtain ⟨k, u⟩ := c
    simp only [Memory.wfFrom, Bool.and_eq_true, decide_eq_true_eq] at h ⊢
    exact ⟨⟨⟨by omega, h.1.1.2⟩, h.1.2⟩, h.2⟩

theorem Memory.wfFrom_write (m : Memory) (lo a : Nat) (v : Byte) (h : m.wfFrom lo = true) (hl : lo ≤ a)
    (ha : a < 2 ^ 32) : (m.write a v).wfFrom lo = true := by
  induction m generalizing lo with
  | nil => by_cases hv : v = Memory.blank <;> simp [Memory.write, Memory.wfFrom, hv, hl, ha, -Nat.reducePow]
  | cons c rest ih =>
    obtain ⟨k, u⟩ := c
    simp only [Memory.wfFrom, Bool.and_eq_true, decide_eq_true_eq, bne_iff_ne] at h
    obtain ⟨⟨⟨h1, h2⟩, h3⟩, h4⟩ := h
    unfold Memory.write
    by_cases hk : a < k
    · by_cases hv : v = Memory.blank
      · simp [hk, hv, Memory.wfFrom, h1, h2, h3, h4, -Nat.reducePow]
      · simp [hk, hv, Memory.wfFrom, h2, h3, h4, hl, ha, -Nat.reducePow]
    · by_cases he : a = k
      · by_cases hv : v = Memory.blank
        · simpa [he, hv] using Memory.wfFrom_mono rest (k + 1) lo h4 (by omega)
        · simp [he, hv, Memory.wfFrom, h1, h2, h4, -Nat.reducePow]
      · simp [hk, he, Memory.wfFrom, h1, h2, h3, -Nat.reducePow]
        exact ih (k + 1) h4 (by omega)

/-- Writing a byte keeps the canonical form. -/
theorem Memory.wf_write (m : Memory) (a : Nat) (v : Byte) (h : m.wf = true) (ha : a < 2 ^ 32) :
    (m.write a v).wf = true :=
  Memory.wfFrom_write m 0 a v h (Nat.zero_le a) ha

/-- Two memories in canonical form that read alike are the same list. -/
theorem Memory.eq_of_readFrom (m m' : Memory) (lo : Nat) (h : m.wfFrom lo = true) (h' : m'.wfFrom lo = true)
    (heq : ∀ a, m.read a = m'.read a) : m = m' := by
  induction m generalizing lo m' with
  | nil =>
    cases m' with
    | nil => rfl
    | cons c rest =>
      obtain ⟨k, u⟩ := c
      have := heq k
      simp only [Memory.wfFrom, Bool.and_eq_true, bne_iff_ne] at h'
      simp [Memory.read] at this
      exact absurd this.symm h'.1.2
  | cons c rest ih =>
    obtain ⟨k, u⟩ := c
    simp only [Memory.wfFrom, Bool.and_eq_true, decide_eq_true_eq, bne_iff_ne] at h
    cases m' with
    | nil =>
      have := heq k
      simp [Memory.read] at this
      exact absurd this h.1.2
    | cons c' rest' =>
      obtain ⟨k', u'⟩ := c'
      simp only [Memory.wfFrom, Bool.and_eq_true, decide_eq_true_eq, bne_iff_ne] at h'
      have hk : k = k' := by
        rcases Nat.lt_trichotomy k k' with hlt | he | hlt
        · have h1 := heq k
          have h2 := Memory.read_of_lt rest' (k' + 1) k h'.2 (by omega)
          simp [Memory.read, show k' ≠ k by omega, h2] at h1
          exact absurd h1 h.1.2
        · exact he
        · have h1 := heq k'
          have h2 := Memory.read_of_lt rest (k + 1) k' h.2 (by omega)
          simp [Memory.read, show k ≠ k' by omega, h2] at h1
          exact absurd h1.symm h'.1.2
      subst hk
      have hu : u = u' := by simpa [Memory.read] using heq k
      have hr : rest = rest' := by
        refine ih rest' (k + 1) h.2 h'.2 fun a => ?_
        have := heq a
        by_cases ha : k = a
        · subst ha
          rw [Memory.read_of_lt rest (k + 1) k h.2 (by omega), Memory.read_of_lt rest' (k + 1) k h'.2 (by omega)]
        · simpa [Memory.read, ha] using this
      rw [hu, hr]

/-! ## Words -/

theorem byteAddr_lt (a : Word) (j : Nat) : byteAddr a j < 2 ^ 32 := BitVec.isLt _

/-- The address of a byte, as a number. -/
theorem byteAddr_eq (a : Word) (j : Nat) : byteAddr a j = (a.toNat + j) % 2 ^ 32 := by
  simp [byteAddr, BitVec.toNat_add]

/-- The four bytes of a word stand at four addresses. -/
theorem byteAddr_inj (a : Word) (i j : Nat) (hi : i < 4) (hj : j < 4) (h : byteAddr a i = byteAddr a j) : i = j := by
  have := a.isLt
  rw [byteAddr_eq, byteAddr_eq] at h
  omega

/-- Writing a word keeps the canonical form. -/
theorem Memory.wf_writeWord (order : ByteOrder) (m : Memory) (a v : Word) (h : m.wf = true) :
    (m.writeWord order a v).wf = true :=
  Memory.wf_write _ _ _ (Memory.wf_write _ _ _ (Memory.wf_write _ _ _ (Memory.wf_write _ _ _ h (byteAddr_lt ..))
    (byteAddr_lt ..)) (byteAddr_lt ..)) (byteAddr_lt ..)

/-- Writing a word leaves every byte outside its four addresses as it was. -/
theorem Memory.read_writeWord_of_ne (order : ByteOrder) (m : Memory) (a v : Word) (h : m.wf = true) (b : Nat)
    (hb : ∀ j < 4, b ≠ byteAddr a j) : (m.writeWord order a v).read b = m.read b := by
  have h1 := Memory.wf_write _ (byteAddr a 0) (byteOfWord order v 0) h (byteAddr_lt ..)
  have h2 := Memory.wf_write _ (byteAddr a 1) (byteOfWord order v 1) h1 (byteAddr_lt ..)
  have h3 := Memory.wf_write _ (byteAddr a 2) (byteOfWord order v 2) h2 (byteAddr_lt ..)
  simp only [Memory.writeWord, Memory.read_write _ _ _ _ h3, Memory.read_write _ _ _ _ h2, Memory.read_write _ _ _ _ h1,
    Memory.read_write _ _ _ _ h, hb 0 (by decide), hb 1 (by decide), hb 2 (by decide), hb 3 (by decide), if_false]

/-- Writing a word puts its bytes at its four addresses. -/
theorem Memory.read_writeWord_byte (order : ByteOrder) (m : Memory) (a v : Word) (h : m.wf = true) (j : Nat)
    (hj : j < 4) : (m.writeWord order a v).read (byteAddr a j) = byteOfWord order v j := by
  have h1 := Memory.wf_write _ (byteAddr a 0) (byteOfWord order v 0) h (byteAddr_lt ..)
  have h2 := Memory.wf_write _ (byteAddr a 1) (byteOfWord order v 1) h1 (byteAddr_lt ..)
  have h3 := Memory.wf_write _ (byteAddr a 2) (byteOfWord order v 2) h2 (byteAddr_lt ..)
  have hne : ∀ i k, i < 4 → k < 4 → i ≠ k → byteAddr a i ≠ byteAddr a k :=
    fun i k hi hk hik he => hik (byteAddr_inj a i k hi hk he)
  simp only [Memory.writeWord, Memory.read_write _ _ _ _ h3, Memory.read_write _ _ _ _ h2, Memory.read_write _ _ _ _ h1,
    Memory.read_write _ _ _ _ h]
  have : j = 0 ∨ j = 1 ∨ j = 2 ∨ j = 3 := by omega
  rcases this with rfl | rfl | rfl | rfl <;> simp [hne]

/-- A word is made of its own bytes. -/
theorem wordOfBytes_byteOfWord (order : ByteOrder) (v : Word) :
    wordOfBytes order (byteOfWord order v 0) (byteOfWord order v 1) (byteOfWord order v 2) (byteOfWord order v 3) = v := by
  have key : v.extractLsb' 24 8 ++ v.extractLsb' 16 8 ++ v.extractLsb' 8 8 ++ v.extractLsb' 0 8 = v := by
    apply BitVec.eq_of_getLsbD_eq
    intro i hi
    simp only [BitVec.getLsbD_append, BitVec.getLsbD_extractLsb']
    split_ifs
    all_goals simp_all
    all_goals grind
  cases order
  · exact key
  · exact key

/-- Reading back a word just written. -/
theorem Memory.readWord_writeWord (order : ByteOrder) (m : Memory) (a v : Word) (h : m.wf = true) :
    (m.writeWord order a v).readWord order a = v := by
  simp only [Memory.readWord]
  rw [Memory.read_writeWord_byte order m a v h 0 (by decide), Memory.read_writeWord_byte order m a v h 1 (by decide),
    Memory.read_writeWord_byte order m a v h 2 (by decide), Memory.read_writeWord_byte order m a v h 3 (by decide)]
  exact wordOfBytes_byteOfWord order v

/-- A word read depends on its four bytes only. -/
theorem Memory.readWord_congr (order : ByteOrder) (m m' : Memory) (a : Word)
    (h : ∀ j < 4, m'.read (byteAddr a j) = m.read (byteAddr a j)) : m'.readWord order a = m.readWord order a := by
  simp only [Memory.readWord, h 0 (by decide), h 1 (by decide), h 2 (by decide), h 3 (by decide)]

end Sys2Proof.Machine
end

