-- ==== Sys2Proof/Laws/Psr.lean ====
section
/-! SUPPORT. The laws of the status word: a flag write changes its bit only (10_state.md R18), so mode, state and reserved bits survive
every flag update (43_data_processing.md R85, R86). -/

namespace Sys2Proof.Machine

/-- A bit after one bit is replaced. -/
theorem getLsbD_setBit (w : Word) (i j : Nat) (b : Bool) (hi : i < 32) :
    (setBit w i b).getLsbD j = if j = i then b else w.getLsbD j := by
  have h1 : (1#32 <<< i).getLsbD j = decide (j = i) := by
    rw [BitVec.getLsbD_shiftLeft, BitVec.getLsbD_one]
    by_cases h : j = i
    · subst h; simp [hi]
    · by_cases h2 : j < i
      · simp [h, h2]
      · have : j - i ≠ 0 := by omega
        simp [h, this]
  unfold setBit
  cases b
  · simp only [Bool.false_eq_true, if_false, BitVec.getLsbD_and, BitVec.getLsbD_not, h1]
    by_cases hj : j < 32
    · by_cases h : j = i <;> simp [h, hj]
    · have : j ≠ i := by omega
      simp [this, BitVec.getLsbD_of_ge w j (by omega)]
  · simp only [if_true, BitVec.getLsbD_or, h1]
    by_cases h : j = i <;> simp [h]

theorem Flag.bit_lt (k : Flag) : k.bit < 32 := by cases k <;> decide

theorem Flag.bit_ge (k : Flag) : 28 ≤ k.bit := by cases k <;> decide

theorem Flag.bit_inj (k k' : Flag) (h : k.bit = k'.bit) : k = k' := by
  revert h; cases k <;> cases k' <;> decide

theorem Cpsr.getLsbD_setFlag (w : Word) (k : Flag) (b : Bool) (j : Nat) :
    (Cpsr.setFlag w k b).getLsbD j = if j = k.bit then b else w.getLsbD j :=
  getLsbD_setBit w k.bit j b k.bit_lt

/-- A flag update leaves the 28 bits below the flags. -/
theorem Cpsr.low_setFlag (w : Word) (k : Flag) (b : Bool) :
    (Cpsr.setFlag w k b).extractLsb' 0 28 = w.extractLsb' 0 28 := by
  ext j hj
  have := k.bit_ge
  have hne : j ≠ k.bit := by omega
  simp only [BitVec.getElem_extractLsb', Nat.zero_add, Cpsr.getLsbD_setFlag, hne, if_false]

theorem Cpsr.getLsbD_setNZC (w res : Word) (c : Bool) (j : Nat) :
    (Cpsr.setNZC w res c).getLsbD j =
      if j = 31 then res.getLsbD 31 else if j = 30 then res == 0#32 else if j = 29 then c else w.getLsbD j := by
  simp only [Cpsr.setNZC, Cpsr.getLsbD_setFlag, Flag.bit]
  by_cases h1 : j = 31 <;> by_cases h2 : j = 30 <;> by_cases h3 : j = 29 <;> simp_all

/-- Every bit of the status word after `SetFlags`. -/
theorem Cpsr.getLsbD_update (w : Word) (op : DpOp) (r : AluOut) (j : Nat) :
    (Cpsr.update w op r).getLsbD j =
      if j = 31 then r.res.getLsbD 31 else if j = 30 then r.res == 0#32 else if j = 29 then r.c
      else if j = 28 then (if isArithmetic op then r.v else w.getLsbD 28) else w.getLsbD j := by
  unfold Cpsr.update
  cases isArithmetic op
  · simp only [Bool.false_eq_true, if_false, Cpsr.getLsbD_setNZC]
    split_ifs <;> simp_all
  · simp only [if_true, Cpsr.getLsbD_setFlag, Cpsr.getLsbD_setNZC, Flag.bit]
    split_ifs <;> first | rfl | omega

theorem Cpsr.low_update (w : Word) (op : DpOp) (r : AluOut) :
    (Cpsr.update w op r).extractLsb' 0 28 = w.extractLsb' 0 28 := by
  ext j hj
  simp only [BitVec.getElem_extractLsb', Nat.zero_add, Cpsr.getLsbD_update]
  split_ifs <;> first | rfl | omega

/-- Two status words with the same low 28 bits have the same mode field. -/
theorem Cpsr.m_eq_of_low (w w' : Word) (h : w'.extractLsb' 0 28 = w.extractLsb' 0 28) : Cpsr.m w' = Cpsr.m w := by
  ext j hj
  have := congrArg (BitVec.getLsbD · j) h
  simpa [Cpsr.m, show j < 28 by omega, hj] using this

/-- Two status words with the same low 28 bits have the same state bit. -/
theorem Cpsr.t_eq_of_low (w w' : Word) (h : w'.extractLsb' 0 28 = w.extractLsb' 0 28) : Cpsr.t w' = Cpsr.t w := by
  have := congrArg (BitVec.getLsbD · 5) h
  simpa [Cpsr.t] using this

@[simp] theorem Cpsr.m_update (w : Word) (op : DpOp) (r : AluOut) : Cpsr.m (Cpsr.update w op r) = Cpsr.m w :=
  Cpsr.m_eq_of_low _ _ (Cpsr.low_update w op r)

@[simp] theorem Cpsr.t_update (w : Word) (op : DpOp) (r : AluOut) : Cpsr.t (Cpsr.update w op r) = Cpsr.t w :=
  Cpsr.t_eq_of_low _ _ (Cpsr.low_update w op r)

@[simp] theorem Cpsr.mode?_update (w : Word) (op : DpOp) (r : AluOut) :
    Cpsr.mode? (Cpsr.update w op r) = Cpsr.mode? w := by simp [Cpsr.mode?]

theorem Cpsr.getLsbD_setThumb (w : Word) (j : Nat) :
    (Cpsr.setThumb w).getLsbD j = if j = 5 then true else w.getLsbD j := getLsbD_setBit w 5 j true (by decide)

@[simp] theorem Cpsr.t_setThumb (w : Word) : Cpsr.t (Cpsr.setThumb w) = true := by
  simp [Cpsr.t, Cpsr.getLsbD_setThumb]

@[simp] theorem Cpsr.mode?_setThumb (w : Word) : Cpsr.mode? (Cpsr.setThumb w) = Cpsr.mode? w := by
  have : Cpsr.m (Cpsr.setThumb w) = Cpsr.m w := by
    ext j hj
    have : j ≠ 5 := by omega
    simp [Cpsr.m, Cpsr.getLsbD_setThumb, this]
  simp [Cpsr.mode?, this]

/-- A mode is what its encoding decodes to (10_state.md R14). -/
@[simp] theorem Mode.ofBits_bits (m : Mode) : Mode.ofBits m.bits = some m := by cases m <;> rfl

end Sys2Proof.Machine
end

