-- ==== Sys2Proof/Laws/State.lean ====
section
/-! SUPPORT. What each named update of State does to each field, one lemma a field, so that no later proof unfolds a
record update. -/

namespace Sys2Proof.Machine.State

/-! ## setSlot -/

@[simp] theorem setSlot_regs (s : State) (k : Slot) (v : Word) : (s.setSlot k v).regs = s.regs.set k v := rfl
@[simp] theorem setSlot_cpsr (s : State) (k : Slot) (v : Word) : (s.setSlot k v).cpsr = s.cpsr := rfl
@[simp] theorem setSlot_spsr (s : State) (k : Slot) (v : Word) : (s.setSlot k v).spsr = s.spsr := rfl
@[simp] theorem setSlot_pipe0 (s : State) (k : Slot) (v : Word) : (s.setSlot k v).pipe0 = s.pipe0 := rfl
@[simp] theorem setSlot_pipe1 (s : State) (k : Slot) (v : Word) : (s.setSlot k v).pipe1 = s.pipe1 := rfl
@[simp] theorem setSlot_pipeValid (s : State) (k : Slot) (v : Word) : (s.setSlot k v).pipeValid = s.pipeValid := rfl
@[simp] theorem setSlot_nk (s : State) (k : Slot) (v : Word) : (s.setSlot k v).nk = s.nk := rfl
@[simp] theorem setSlot_status (s : State) (k : Slot) (v : Word) : (s.setSlot k v).status = s.status := rfl
@[simp] theorem setSlot_trace (s : State) (k : Slot) (v : Word) : (s.setSlot k v).trace = s.trace := rfl
@[simp] theorem setSlot_mem (s : State) (k : Slot) (v : Word) : (s.setSlot k v).mem = s.mem := rfl
@[simp] theorem setSlot_busIn (s : State) (k : Slot) (v : Word) : (s.setSlot k v).busIn = s.busIn := rfl
@[simp] theorem setSlot_busLog (s : State) (k : Slot) (v : Word) : (s.setSlot k v).busLog = s.busLog := rfl
@[simp] theorem setSlot_params (s : State) (k : Slot) (v : Word) : (s.setSlot k v).params = s.params := rfl

/-! ## setReg -/

@[simp] theorem setReg_regs (s : State) (m : Mode) (i : Reg) (v : Word) : (s.setReg m i v).regs = s.regs.set (slot m i) v := rfl
@[simp] theorem setReg_cpsr (s : State) (m : Mode) (i : Reg) (v : Word) : (s.setReg m i v).cpsr = s.cpsr := rfl
@[simp] theorem setReg_spsr (s : State) (m : Mode) (i : Reg) (v : Word) : (s.setReg m i v).spsr = s.spsr := rfl
@[simp] theorem setReg_pipe0 (s : State) (m : Mode) (i : Reg) (v : Word) : (s.setReg m i v).pipe0 = s.pipe0 := rfl
@[simp] theorem setReg_pipe1 (s : State) (m : Mode) (i : Reg) (v : Word) : (s.setReg m i v).pipe1 = s.pipe1 := rfl
@[simp] theorem setReg_pipeValid (s : State) (m : Mode) (i : Reg) (v : Word) : (s.setReg m i v).pipeValid = s.pipeValid := rfl
@[simp] theorem setReg_nk (s : State) (m : Mode) (i : Reg) (v : Word) : (s.setReg m i v).nk = s.nk := rfl
@[simp] theorem setReg_status (s : State) (m : Mode) (i : Reg) (v : Word) : (s.setReg m i v).status = s.status := rfl
@[simp] theorem setReg_trace (s : State) (m : Mode) (i : Reg) (v : Word) : (s.setReg m i v).trace = s.trace := rfl
@[simp] theorem setReg_mem (s : State) (m : Mode) (i : Reg) (v : Word) : (s.setReg m i v).mem = s.mem := rfl
@[simp] theorem setReg_busIn (s : State) (m : Mode) (i : Reg) (v : Word) : (s.setReg m i v).busIn = s.busIn := rfl
@[simp] theorem setReg_busLog (s : State) (m : Mode) (i : Reg) (v : Word) : (s.setReg m i v).busLog = s.busLog := rfl
@[simp] theorem setReg_params (s : State) (m : Mode) (i : Reg) (v : Word) : (s.setReg m i v).params = s.params := rfl

/-! ## setPc -/

@[simp] theorem setPc_regs (s : State) (v : Word) : (s.setPc v).regs = s.regs.set .pc v := rfl
@[simp] theorem setPc_cpsr (s : State) (v : Word) : (s.setPc v).cpsr = s.cpsr := rfl
@[simp] theorem setPc_spsr (s : State) (v : Word) : (s.setPc v).spsr = s.spsr := rfl
@[simp] theorem setPc_pipe0 (s : State) (v : Word) : (s.setPc v).pipe0 = s.pipe0 := rfl
@[simp] theorem setPc_pipe1 (s : State) (v : Word) : (s.setPc v).pipe1 = s.pipe1 := rfl
@[simp] theorem setPc_pipeValid (s : State) (v : Word) : (s.setPc v).pipeValid = s.pipeValid := rfl
@[simp] theorem setPc_nk (s : State) (v : Word) : (s.setPc v).nk = s.nk := rfl
@[simp] theorem setPc_status (s : State) (v : Word) : (s.setPc v).status = s.status := rfl
@[simp] theorem setPc_trace (s : State) (v : Word) : (s.setPc v).trace = s.trace := rfl
@[simp] theorem setPc_mem (s : State) (v : Word) : (s.setPc v).mem = s.mem := rfl
@[simp] theorem setPc_busIn (s : State) (v : Word) : (s.setPc v).busIn = s.busIn := rfl
@[simp] theorem setPc_busLog (s : State) (v : Word) : (s.setPc v).busLog = s.busLog := rfl
@[simp] theorem setPc_params (s : State) (v : Word) : (s.setPc v).params = s.params := rfl

/-! ## advancePC -/

@[simp] theorem advancePC_regs (s : State) : (s.advancePC).regs = s.regs.set .pc (s.pc + 4#32) := rfl
@[simp] theorem advancePC_cpsr (s : State) : (s.advancePC).cpsr = s.cpsr := rfl
@[simp] theorem advancePC_spsr (s : State) : (s.advancePC).spsr = s.spsr := rfl
@[simp] theorem advancePC_pipe0 (s : State) : (s.advancePC).pipe0 = s.pipe0 := rfl
@[simp] theorem advancePC_pipe1 (s : State) : (s.advancePC).pipe1 = s.pipe1 := rfl
@[simp] theorem advancePC_pipeValid (s : State) : (s.advancePC).pipeValid = s.pipeValid := rfl
@[simp] theorem advancePC_nk (s : State) : (s.advancePC).nk = s.nk := rfl
@[simp] theorem advancePC_status (s : State) : (s.advancePC).status = s.status := rfl
@[simp] theorem advancePC_trace (s : State) : (s.advancePC).trace = s.trace := rfl
@[simp] theorem advancePC_mem (s : State) : (s.advancePC).mem = s.mem := rfl
@[simp] theorem advancePC_busIn (s : State) : (s.advancePC).busIn = s.busIn := rfl
@[simp] theorem advancePC_busLog (s : State) : (s.advancePC).busLog = s.busLog := rfl
@[simp] theorem advancePC_params (s : State) : (s.advancePC).params = s.params := rfl

/-! ## afterRead -/

@[simp] theorem afterRead_regs (s : State) (e : BusCall) : (s.afterRead e).regs = s.regs := rfl
@[simp] theorem afterRead_cpsr (s : State) (e : BusCall) : (s.afterRead e).cpsr = s.cpsr := rfl
@[simp] theorem afterRead_spsr (s : State) (e : BusCall) : (s.afterRead e).spsr = s.spsr := rfl
@[simp] theorem afterRead_pipe0 (s : State) (e : BusCall) : (s.afterRead e).pipe0 = s.pipe0 := rfl
@[simp] theorem afterRead_pipe1 (s : State) (e : BusCall) : (s.afterRead e).pipe1 = s.pipe1 := rfl
@[simp] theorem afterRead_pipeValid (s : State) (e : BusCall) : (s.afterRead e).pipeValid = s.pipeValid := rfl
@[simp] theorem afterRead_nk (s : State) (e : BusCall) : (s.afterRead e).nk = s.nk := rfl
@[simp] theorem afterRead_status (s : State) (e : BusCall) : (s.afterRead e).status = s.status := rfl
@[simp] theorem afterRead_trace (s : State) (e : BusCall) : (s.afterRead e).trace = s.trace := rfl
@[simp] theorem afterRead_mem (s : State) (e : BusCall) : (s.afterRead e).mem = s.mem := rfl
@[simp] theorem afterRead_busIn (s : State) (e : BusCall) : (s.afterRead e).busIn = s.busIn.tail := rfl
@[simp] theorem afterRead_busLog (s : State) (e : BusCall) : (s.afterRead e).busLog = s.busLog ++ [e] := rfl
@[simp] theorem afterRead_params (s : State) (e : BusCall) : (s.afterRead e).params = s.params := rfl

/-! ## busWrite -/

@[simp] theorem busWrite_regs (s : State) (a v : Word) (k : AccessKind) : (s.busWrite a v k).regs = s.regs := rfl
@[simp] theorem busWrite_cpsr (s : State) (a v : Word) (k : AccessKind) : (s.busWrite a v k).cpsr = s.cpsr := rfl
@[simp] theorem busWrite_spsr (s : State) (a v : Word) (k : AccessKind) : (s.busWrite a v k).spsr = s.spsr := rfl
@[simp] theorem busWrite_pipe0 (s : State) (a v : Word) (k : AccessKind) : (s.busWrite a v k).pipe0 = s.pipe0 := rfl
@[simp] theorem busWrite_pipe1 (s : State) (a v : Word) (k : AccessKind) : (s.busWrite a v k).pipe1 = s.pipe1 := rfl
@[simp] theorem busWrite_pipeValid (s : State) (a v : Word) (k : AccessKind) : (s.busWrite a v k).pipeValid = s.pipeValid := rfl
@[simp] theorem busWrite_nk (s : State) (a v : Word) (k : AccessKind) : (s.busWrite a v k).nk = s.nk := rfl
@[simp] theorem busWrite_status (s : State) (a v : Word) (k : AccessKind) : (s.busWrite a v k).status = s.status := rfl
@[simp] theorem busWrite_trace (s : State) (a v : Word) (k : AccessKind) : (s.busWrite a v k).trace = s.trace := rfl
@[simp] theorem busWrite_mem (s : State) (a v : Word) (k : AccessKind) : (s.busWrite a v k).mem = s.mem.writeWord s.params.byteOrder a v := rfl
@[simp] theorem busWrite_busIn (s : State) (a v : Word) (k : AccessKind) : (s.busWrite a v k).busIn = s.busIn := rfl
@[simp] theorem busWrite_busLog (s : State) (a v : Word) (k : AccessKind) : (s.busWrite a v k).busLog = s.busLog ++ [.writeWord a v k] := rfl
@[simp] theorem busWrite_params (s : State) (a v : Word) (k : AccessKind) : (s.busWrite a v k).params = s.params := rfl

/-! ## busIdle -/

@[simp] theorem busIdle_regs (s : State) : (s.busIdle).regs = s.regs := rfl
@[simp] theorem busIdle_cpsr (s : State) : (s.busIdle).cpsr = s.cpsr := rfl
@[simp] theorem busIdle_spsr (s : State) : (s.busIdle).spsr = s.spsr := rfl
@[simp] theorem busIdle_pipe0 (s : State) : (s.busIdle).pipe0 = s.pipe0 := rfl
@[simp] theorem busIdle_pipe1 (s : State) : (s.busIdle).pipe1 = s.pipe1 := rfl
@[simp] theorem busIdle_pipeValid (s : State) : (s.busIdle).pipeValid = s.pipeValid := rfl
@[simp] theorem busIdle_nk (s : State) : (s.busIdle).nk = s.nk := rfl
@[simp] theorem busIdle_status (s : State) : (s.busIdle).status = s.status := rfl
@[simp] theorem busIdle_trace (s : State) : (s.busIdle).trace = s.trace := rfl
@[simp] theorem busIdle_mem (s : State) : (s.busIdle).mem = s.mem := rfl
@[simp] theorem busIdle_busIn (s : State) : (s.busIdle).busIn = s.busIn := rfl
@[simp] theorem busIdle_busLog (s : State) : (s.busIdle).busLog = s.busLog ++ [.idle] := rfl
@[simp] theorem busIdle_params (s : State) : (s.busIdle).params = s.params := rfl

/-! ## stopped -/

@[simp] theorem stopped_regs (s : State) (x : Status) : (s.stopped x).regs = s.regs := rfl
@[simp] theorem stopped_cpsr (s : State) (x : Status) : (s.stopped x).cpsr = s.cpsr := rfl
@[simp] theorem stopped_spsr (s : State) (x : Status) : (s.stopped x).spsr = s.spsr := rfl
@[simp] theorem stopped_pipe0 (s : State) (x : Status) : (s.stopped x).pipe0 = s.pipe0 := rfl
@[simp] theorem stopped_pipe1 (s : State) (x : Status) : (s.stopped x).pipe1 = s.pipe1 := rfl
@[simp] theorem stopped_pipeValid (s : State) (x : Status) : (s.stopped x).pipeValid = s.pipeValid := rfl
@[simp] theorem stopped_nk (s : State) (x : Status) : (s.stopped x).nk = s.nk := rfl
@[simp] theorem stopped_status (s : State) (x : Status) : (s.stopped x).status = x := rfl
@[simp] theorem stopped_trace (s : State) (x : Status) : (s.stopped x).trace = s.trace := rfl
@[simp] theorem stopped_mem (s : State) (x : Status) : (s.stopped x).mem = s.mem := rfl
@[simp] theorem stopped_busIn (s : State) (x : Status) : (s.stopped x).busIn = s.busIn := rfl
@[simp] theorem stopped_busLog (s : State) (x : Status) : (s.stopped x).busLog = s.busLog := rfl
@[simp] theorem stopped_params (s : State) (x : Status) : (s.stopped x).params = s.params := rfl

/-! ## report -/

@[simp] theorem report_regs (s : State) (e : UnrecognizedOpcode) : (s.report e).regs = s.regs := rfl
@[simp] theorem report_cpsr (s : State) (e : UnrecognizedOpcode) : (s.report e).cpsr = s.cpsr := rfl
@[simp] theorem report_spsr (s : State) (e : UnrecognizedOpcode) : (s.report e).spsr = s.spsr := rfl
@[simp] theorem report_pipe0 (s : State) (e : UnrecognizedOpcode) : (s.report e).pipe0 = s.pipe0 := rfl
@[simp] theorem report_pipe1 (s : State) (e : UnrecognizedOpcode) : (s.report e).pipe1 = s.pipe1 := rfl
@[simp] theorem report_pipeValid (s : State) (e : UnrecognizedOpcode) : (s.report e).pipeValid = s.pipeValid := rfl
@[simp] theorem report_nk (s : State) (e : UnrecognizedOpcode) : (s.report e).nk = s.nk := rfl
@[simp] theorem report_status (s : State) (e : UnrecognizedOpcode) : (s.report e).status = s.status := rfl
@[simp] theorem report_trace (s : State) (e : UnrecognizedOpcode) : (s.report e).trace = s.trace.map fun t => t ++ [e] := rfl
@[simp] theorem report_mem (s : State) (e : UnrecognizedOpcode) : (s.report e).mem = s.mem := rfl
@[simp] theorem report_busIn (s : State) (e : UnrecognizedOpcode) : (s.report e).busIn = s.busIn := rfl
@[simp] theorem report_busLog (s : State) (e : UnrecognizedOpcode) : (s.report e).busLog = s.busLog := rfl
@[simp] theorem report_params (s : State) (e : UnrecognizedOpcode) : (s.report e).params = s.params := rfl

end Sys2Proof.Machine.State
end

