-- ==== Sys2Proof/Laws/Registers.lean ====
section
/-! SUPPORT. The laws of the banked register file (10_state.md R9-R12): one read-after-write lemma over the 31 slots, and how
visible registers meet in them. -/

namespace Sys2Proof.Machine

/-- A read of a slot after a write of a slot. -/
theorem RegFile.get_set (r : RegFile) (k k' : Slot) (v : Word) :
    (r.set k v).get k' = if k' = k then v else r.get k' := by
  cases k <;> cases k' <;> simp only [RegFile.set, RegFile.get, reduceCtorEq, if_false, if_true] <;>
    (rename_i i j; by_cases h : j = i
     · subst h; simp
     · have h' : i.val ≠ j.val := fun he => h (Fin.ext he.symm)
       simp [h, h'])

@[simp] theorem RegFile.get_set_self (r : RegFile) (k : Slot) (v : Word) : (r.set k v).get k = v := by
  simp [RegFile.get_set]

theorem RegFile.get_set_ne (r : RegFile) (k k' : Slot) (v : Word) (h : k' ≠ k) : (r.set k v).get k' = r.get k' := by
  simp [RegFile.get_set, h]

/-- Writing a slot with its own content changes nothing. -/
theorem RegFile.pc_set (r : RegFile) (k : Slot) (v : Word) (h : k ≠ .pc) : (r.set k v).pc = r.pc := by
  cases k <;> first | rfl | exact absurd rfl h

@[simp] theorem RegFile.pc_set_pc (r : RegFile) (v : Word) : (r.set .pc v).pc = v := rfl

theorem State.getSlot_setSlot (s : State) (k k' : Slot) (v : Word) :
    (s.setSlot k v).getSlot k' = if k' = k then v else s.getSlot k' := RegFile.get_set ..

theorem State.getSlot_pc (s : State) : s.getSlot .pc = s.pc := rfl

theorem State.setReg_eq (s : State) (m : Mode) (i : Reg) (v : Word) : s.setReg m i v = s.setSlot (slot m i) v := rfl

/-- Index 15 is R15 in every mode. -/
@[simp] theorem slot_15 (m : Mode) : slot m 15 = .pc := rfl

/-- Only index 15 is R15. -/
theorem slot_eq_pc_iff (m : Mode) (i : Reg) : slot m i = .pc ↔ i = 15 := by
  revert i; cases m <;> decide

/-- A mode gives different indexes different slots. -/
theorem slot_inj (m : Mode) (i j : Reg) : slot m i = slot m j ↔ i = j := by
  revert i j; cases m <;> decide

@[simp] theorem State.reg_15 (s : State) (m : Mode) : s.reg m 15 = s.pc := rfl

theorem State.reg_setReg (s : State) (m : Mode) (i j : Reg) (v : Word) :
    (s.setReg m i v).reg m j = if j = i then v else s.reg m j := by
  simp [State.reg, State.setReg, State.getSlot_setSlot, slot_inj]

theorem State.pc_setReg (s : State) (m : Mode) (i : Reg) (v : Word) :
    (s.setReg m i v).pc = if i = 15 then v else s.pc := by
  have := State.reg_setReg s m i 15 v
  simpa [eq_comm] using this

@[simp] theorem State.pc_setPc (s : State) (v : Word) : (s.setPc v).pc = v := rfl

theorem State.getSlot_setPc (s : State) (k : Slot) (v : Word) (h : k ≠ .pc) : (s.setPc v).getSlot k = s.getSlot k :=
  RegFile.get_set_ne _ _ _ _ h

theorem State.reg_setPc (s : State) (m : Mode) (i : Reg) (v : Word) :
    (s.setPc v).reg m i = if i = 15 then v else s.reg m i :=
  State.reg_setReg s m 15 i v

@[simp] theorem State.pc_advancePC (s : State) : s.advancePC.pc = s.pc + 4#32 := rfl

theorem State.getSlot_advancePC (s : State) (k : Slot) (h : k ≠ .pc) : s.advancePC.getSlot k = s.getSlot k :=
  State.getSlot_setPc s k _ h

theorem State.reg_advancePC (s : State) (m : Mode) (i : Reg) :
    s.advancePC.reg m i = if i = 15 then s.pc + 4#32 else s.reg m i := State.reg_setPc s m i _

end Sys2Proof.Machine
end

