-- ==== Sys2Proof/Laws/Pipeline.lean ====
section
/-! SUPPORT. What the shared operations of a step can do, once each: the fetch check, the reload, the step fetch, the gates, the
condition check and the status restore (40_step_and_conditions.md R56-R66, 43_data_processing.md R87). -/

namespace Sys2Proof.Machine

/-! ## Flow -/

@[simp] theorem Flow.andThen_goOn (s : State) (f : State → Flow) : (Flow.goOn s).andThen f = f s := rfl

@[simp] theorem Flow.andThen_halt (s : State) (f : State → Flow) : (Flow.halt s).andThen f = .halt s := rfl

@[simp] theorem Flow.final_goOn (s : State) : (Flow.goOn s).final = s := rfl

@[simp] theorem Flow.final_halt (s : State) : (Flow.halt s).final = s := rfl

/-! ## Bus answers -/

theorem State.wordAnswer_eq (s : State) (a : Word) : s.wordAnswer a = s.nthWordAnswer 0 a := by
  unfold State.wordAnswer State.nthWordAnswer
  cases s.busIn <;> rfl

theorem State.halfAnswer_eq (s : State) (a : Word) : s.halfAnswer a = s.nthHalfAnswer 0 a := by
  unfold State.halfAnswer State.nthHalfAnswer
  cases s.busIn <;> rfl

/-- Answers depend on the pending answers, the memory and the parameters only. -/
theorem State.nthWordAnswer_congr (s t : State) (k j : Nat) (a : Word) (h1 : t.busIn = s.busIn.drop j)
    (h2 : t.mem = s.mem) (h3 : t.params = s.params) : t.nthWordAnswer k a = s.nthWordAnswer (j + k) a := by
  simp [State.nthWordAnswer, h1, h2, h3]

theorem State.nthHalfAnswer_congr (s t : State) (k j : Nat) (a : Word) (h1 : t.busIn = s.busIn.drop j)
    (h2 : t.mem = s.mem) (h3 : t.params = s.params) : t.nthHalfAnswer k a = s.nthHalfAnswer (j + k) a := by
  simp [State.nthHalfAnswer, h1, h2, h3]

/-! ## Fetch check -/

/-- A fetch check goes on exactly when the address is aligned or misaligned addresses pass. -/
theorem checkFetch_ok (a : Word) (n : Nat) (s : State) (h : FetchOk s a n) : checkFetch a n s = .goOn s := by
  unfold checkFetch
  rcases h with h | h
  · simp [h]
  · split
    · rfl
    · simp [h]

theorem checkFetch_stops (a : Word) (n : Nat) (s : State) (h : FetchStops s a n) :
    checkFetch a n s = .halt (s.stopped (.fault .misalignedFetch)) := by
  simp [checkFetch, h.1, h.2, raise]

theorem fetchOk_or_stops (s : State) (a : Word) (n : Nat) : FetchOk s a n ∨ FetchStops s a n := by
  by_cases h : a.toNat % n = 0
  · exact .inl (.inl h)
  · cases h' : s.params.misalignedFetch
    · exact .inr ⟨h, h'⟩
    · exact .inl (.inr h')

theorem checkFetch_goOn (a : Word) (n : Nat) (s t : State) (h : checkFetch a n s = .goOn t) :
    t = s ∧ FetchOk s a n := by
  rcases fetchOk_or_stops s a n with ho | hs
  · rw [checkFetch_ok a n s ho] at h; exact ⟨by injection h with h; exact h.symm, ho⟩
  · rw [checkFetch_stops a n s hs] at h; cases h

/-! ## Reload -/

theorem State.codeWidth_eq (s : State) : s.codeWidth = if Cpsr.t s.cpsr then 2 else 4 := rfl

theorem State.codeWidth_pos (s : State) : s.codeWidth = 2 ∨ s.codeWidth = 4 := by
  unfold State.codeWidth; split <;> simp

@[simp] theorem State.pc_reloadSlot0 (s : State) : s.reloadSlot0.pc = s.pc + BitVec.ofNat 32 s.codeWidth := rfl

@[simp] theorem State.codeWidth_reloadSlot0 (s : State) : s.reloadSlot0.codeWidth = s.codeWidth := rfl

/-- An address moved by the width keeps its alignment. -/
theorem mod_add_width (a : Word) (n : Nat) (hn : n = 2 ∨ n = 4) :
    (a + BitVec.ofNat 32 n).toNat % n = a.toNat % n := by
  have := a.isLt
  rcases hn with rfl | rfl <;> simp only [BitVec.toNat_add, BitVec.toNat_ofNat] <;> omega

/-- The state a reload at R15 leaves. -/
def State.reloaded (s : State) : State := s.reloadSlot0.reloadSlot1

/-- A reload that is not misaligned fills both slots. -/
theorem reload_ok (s : State) (h : FetchOk s s.pc s.codeWidth) : reload s = .goOn s.reloaded := by
  have h2 : FetchOk s.reloadSlot0 s.reloadSlot0.pc s.reloadSlot0.codeWidth := by
    rcases h with h | h
    · left
      rw [State.pc_reloadSlot0, State.codeWidth_reloadSlot0, mod_add_width _ _ s.codeWidth_pos]
      exact h
    · exact .inr h
  simp only [reload, checkFetch_ok _ _ _ h, checkFetch_ok _ _ _ h2, Flow.andThen_goOn, State.reloaded]

/-- A misaligned reload under MISALIGNED_FETCH = Fault stops before its first read. -/
theorem reload_stops (s : State) (h : FetchStops s s.pc s.codeWidth) :
    reload s = .halt (s.stopped (.fault .misalignedFetch)) := by
  simp only [reload, checkFetch_stops _ _ _ h, Flow.andThen_halt]

/-- What a reload can do. -/
theorem reload_cases (s : State) :
    (FetchOk s s.pc s.codeWidth ∧ reload s = .goOn s.reloaded) ∨
    (FetchStops s s.pc s.codeWidth ∧ reload s = .halt (s.stopped (.fault .misalignedFetch))) := by
  rcases fetchOk_or_stops s s.pc s.codeWidth with h | h
  · exact .inl ⟨h, reload_ok s h⟩
  · exact .inr ⟨h, reload_stops s h⟩

@[simp] theorem State.cpsr_reloaded (s : State) : s.reloaded.cpsr = s.cpsr := rfl

@[simp] theorem State.spsr_reloaded (s : State) : s.reloaded.spsr = s.spsr := rfl

@[simp] theorem State.trace_reloaded (s : State) : s.reloaded.trace = s.trace := rfl

@[simp] theorem State.mem_reloaded (s : State) : s.reloaded.mem = s.mem := rfl

@[simp] theorem State.params_reloaded (s : State) : s.reloaded.params = s.params := rfl

@[simp] theorem State.status_reloaded (s : State) : s.reloaded.status = s.status := rfl

@[simp] theorem State.nk_reloaded (s : State) : s.reloaded.nk = .seq := rfl

@[simp] theorem State.pipeValid_reloaded (s : State) : s.reloaded.pipeValid = true := rfl

@[simp] theorem State.mode?_reloaded (s : State) : s.reloaded.mode? = s.mode? := rfl

@[simp] theorem State.codeWidth_reloaded (s : State) : s.reloaded.codeWidth = s.codeWidth := rfl

@[simp] theorem State.pc_reloaded (s : State) :
    s.reloaded.pc = s.pc + BitVec.ofNat 32 s.codeWidth + BitVec.ofNat 32 s.codeWidth := rfl

theorem State.busLog_reloaded (s : State) : s.reloaded.busLog =
    s.busLog ++ [s.codeRead s.pc .nonSeq, s.codeRead (s.pc + BitVec.ofNat 32 s.codeWidth) .seq] := by
  have : s.reloaded.busLog = (s.busLog ++ [s.codeRead s.pc .nonSeq]) ++
      [s.reloadSlot0.codeRead s.reloadSlot0.pc .seq] := rfl
  rw [this, List.append_assoc]
  rfl

theorem State.busIn_reloaded (s : State) : s.reloaded.busIn = s.busIn.drop 2 := by
  have : s.reloaded.busIn = s.busIn.tail.tail := rfl
  rw [this]
  cases s.busIn with
  | nil => rfl
  | cons _ l => cases l <;> rfl

theorem State.getSlot_reloaded (s : State) (k : Slot) (h : k ≠ .pc) : s.reloaded.getSlot k = s.getSlot k := by
  have h1 : s.reloaded.getSlot k = s.reloadSlot0.getSlot k := State.getSlot_setPc _ k _ h
  rw [h1]
  exact State.getSlot_setPc _ k _ h

/-- An ARM-width reload leaves what 40_step_and_conditions.md R65 says, seen from the state `s` that `u` came from. -/
theorem reloadedArm_reloaded (s u : State) (k : Nat) (calls : List BusCall) (target : Word)
    (ht : Cpsr.t u.cpsr = false) (hpc : u.pc = target) (hin : u.busIn = s.busIn.drop k)
    (hlog : u.busLog = s.busLog ++ calls) (hm : u.mem = s.mem) (hp : u.params = s.params) :
    ReloadedArm s u.reloaded k calls target := by
  have hw : u.codeWidth = 4 := by simp [State.codeWidth, ht]
  subst hpc
  constructor
  · rw [State.pc_reloaded, hw, BitVec.add_assoc]; rfl
  · change u.codeAnswer u.pc = _
    rw [State.codeAnswer, ht]
    simpa [State.wordAnswer_eq] using State.nthWordAnswer_congr s u 0 k u.pc hin hm hp
  · change u.reloadSlot0.codeAnswer u.reloadSlot0.pc = _
    have ht' : Cpsr.t u.reloadSlot0.cpsr = false := ht
    rw [State.codeAnswer, ht', State.pc_reloadSlot0, hw]
    have hb : u.reloadSlot0.busIn = s.busIn.drop (k + 1) := by
      change u.busIn.tail = _
      rw [hin, List.tail_drop]
    simpa [State.wordAnswer_eq] using State.nthWordAnswer_congr s u.reloadSlot0 0 (k + 1) (u.pc + 4#32) hb hm hp
  · rfl
  · rfl
  · rw [State.busIn_reloaded, hin, List.drop_drop]
  · rw [State.busLog_reloaded, hlog, hw]
    simp [State.codeRead, ht]

/-- The same at Thumb width. -/
theorem reloadedThumb_reloaded (s u : State) (k : Nat) (calls : List BusCall) (target : Word)
    (ht : Cpsr.t u.cpsr = true) (hpc : u.pc = target) (hin : u.busIn = s.busIn.drop k)
    (hlog : u.busLog = s.busLog ++ calls) (hm : u.mem = s.mem) (hp : u.params = s.params) :
    ReloadedThumb s u.reloaded k calls target := by
  have hw : u.codeWidth = 2 := by simp [State.codeWidth, ht]
  subst hpc
  constructor
  · rw [State.pc_reloaded, hw, BitVec.add_assoc]; rfl
  · change u.codeAnswer u.pc = _
    rw [State.codeAnswer, ht]
    simpa [State.halfAnswer_eq] using
      congrArg (BitVec.setWidth 32) (State.nthHalfAnswer_congr s u 0 k u.pc hin hm hp)
  · change u.reloadSlot0.codeAnswer u.reloadSlot0.pc = _
    have ht' : Cpsr.t u.reloadSlot0.cpsr = true := ht
    rw [State.codeAnswer, ht', State.pc_reloadSlot0, hw]
    have hb : u.reloadSlot0.busIn = s.busIn.drop (k + 1) := by
      change u.busIn.tail = _
      rw [hin, List.tail_drop]
    simpa [State.halfAnswer_eq] using
      congrArg (BitVec.setWidth 32) (State.nthHalfAnswer_congr s u.reloadSlot0 0 (k + 1) (u.pc + 2#32) hb hm hp)
  · rfl
  · rfl
  · rw [State.busIn_reloaded, hin, List.drop_drop]
  · rw [State.busLog_reloaded, hlog, hw]
    simp [State.codeRead, ht]

/-- A reload of either width. -/
theorem reloaded_reloaded (s u : State) (k : Nat) (calls : List BusCall) (target : Word)
    (hpc : u.pc = target) (hin : u.busIn = s.busIn.drop k)
    (hlog : u.busLog = s.busLog ++ calls) (hm : u.mem = s.mem) (hp : u.params = s.params) :
    Reloaded s u.reloaded k calls target := by
  unfold Reloaded
  rw [State.cpsr_reloaded]
  cases ht : Cpsr.t u.cpsr
  · simpa using reloadedArm_reloaded s u k calls target ht hpc hin hlog hm hp
  · simpa using reloadedThumb_reloaded s u k calls target ht hpc hin hlog hm hp

/-! ## The step's own fetch -/

/-- The state after the step's fetch (40_step_and_conditions.md R60). -/
def State.fetched (s : State) : State :=
  { s.afterRead (.readWord s.pc (codeKind s.nk)) with pipe0 := s.pipe1, pipe1 := s.wordAnswer s.pc }

theorem fetchNext_ok (s : State) (h : FetchOk s s.pc 4) : fetchNext s = .goOn s.fetched := by
  have h' : FetchOk { s with pipe0 := s.pipe1 } s.pc 4 := h
  simp only [fetchNext]
  rw [show (({ s with pipe0 := s.pipe1 } : State)).pc = s.pc from rfl, checkFetch_ok _ _ _ h']
  rfl

theorem fetchNext_stops (s : State) (h : FetchStops s s.pc 4) :
    fetchNext s = .halt ({ s with pipe0 := s.pipe1 }.stopped (.fault .misalignedFetch)) := by
  have h' : FetchStops { s with pipe0 := s.pipe1 } s.pc 4 := h
  simp only [fetchNext]
  rw [show (({ s with pipe0 := s.pipe1 } : State)).pc = s.pc from rfl, checkFetch_stops _ _ _ h']
  rfl

/-! ## Gates, condition, restore -/

theorem gate_open (s : State) (h : StepOpen s) : gate s = none := by
  obtain ⟨h1, h2, h3⟩ := h
  obtain ⟨m, hm⟩ := Option.isSome_iff_exists.mp h3
  simp [gate, h1, h2, hm]

/-- What the gates can do. -/
theorem gate_cases (s : State) :
    (s.status ≠ .running ∧ gate s = some s) ∨
    (s.status = .running ∧ Cpsr.t s.cpsr = true ∧ gate s = some (s.stopped (.refused .thumbUnmodelled))) ∨
    (s.status = .running ∧ Cpsr.t s.cpsr = false ∧ s.mode? = none ∧ gate s = some (s.stopped (.fatal .invalidMode))) ∨
    (StepOpen s ∧ gate s = none) := by
  by_cases hs : s.status = .running
  · cases ht : Cpsr.t s.cpsr
    · cases hm : s.mode? with
      | none => exact .inr (.inr (.inl ⟨hs, rfl, rfl, by simp [gate, hs, ht, hm]⟩))
      | some m =>
        have ho : StepOpen s := ⟨hs, ht, by simp [hm]⟩
        exact .inr (.inr (.inr ⟨ho, gate_open s ho⟩))
    · exact .inr (.inl ⟨hs, rfl, by simp [gate, hs, ht]⟩)
  · refine .inl ⟨hs, ?_⟩
    unfold gate
    cases h : s.status <;> first | rfl | exact absurd h hs

theorem conditionally_ready (c : Cond) (s : State) (m : Mode) (body : Mode → State → Flow) (h : Ready c s m) :
    conditionally c s body = .next (body m s).final := by
  simp [conditionally, h.1, h.2]

/-- What an instruction's frame can do. -/
theorem conditionally_cases (c : Cond) (s : State) (body : Mode → State → Flow) :
    (s.mode? = none ∧ conditionally c s body = .next (s.stopped (.fatal .invalidMode))) ∨
    (∃ m, s.mode? = some m ∧ condHolds c s.cpsr = false ∧ conditionally c s body = .next s.conditionFailed) ∨
    (∃ m, Ready c s m ∧ conditionally c s body = .next (body m s).final) := by
  cases hm : s.mode? with
  | none => simp [conditionally, hm]
  | some m =>
    cases hc : condHolds c s.cpsr
    · exact .inr (.inl ⟨m, rfl, rfl, by simp [conditionally, hm, hc]⟩)
    · exact .inr (.inr ⟨m, ⟨hm, hc⟩, conditionally_ready c s m body ⟨hm, hc⟩⟩)

/-- What a status restore can do. -/
theorem restoreStatus_cases (m : Mode) (s : State) :
    (∃ m', Cpsr.mode? (s.savedStatus m) = some m' ∧ restoreStatus m s = .goOn { s with cpsr := s.savedStatus m }) ∨
    (Cpsr.mode? (s.savedStatus m) = none ∧
      restoreStatus m s = .halt ({ s with cpsr := s.savedStatus m }.stopped (.fatal .invalidMode))) := by
  unfold restoreStatus
  cases h : Cpsr.mode? (s.savedStatus m) with
  | none => simp [State.mode?, h, raise]
  | some m' => simp [State.mode?, h]

/-- In User and System mode the saved status word is CPSR (10_state.md R16). -/
theorem savedStatus_user (s : State) : s.savedStatus .user = s.cpsr := rfl

end Sys2Proof.Machine
end

