-- ==== Sys2Proof/Laws/BlockTransfer.lean ====
section
/-! SUPPORT. What a block transfer does (44_block_transfer.md R105-R115): the walk of the register list, said once for loads and once
for stores, and the place of a register in it. -/

namespace Sys2Proof.Machine

/-! ## The register list -/

theorem listed_nodup (eff : BitVec 16) : (listed eff).Nodup := List.Nodup.filter _ (by decide)

theorem mem_listed (eff : BitVec 16) (i : Reg) : i ∈ listed eff ↔ eff.getLsbD i.val = true := by
  have : i ∈ walkOrder := by revert i; decide
  simp [listed, this]

/-- The walk, cut at a register of the list: as many before it as its position says. -/
theorem listed_split (eff : BitVec 16) (i : Reg) (h : eff.getLsbD i.val = true) :
    ∃ a b, listed eff = a ++ i :: b ∧ a.length = position eff i := by
  have hs : ∀ i : Reg, walkOrder = walkOrder.take i.val ++ i :: walkOrder.drop (i.val + 1) := by decide
  have hm : ∀ i : Reg, (walkOrder.take i.val).map Fin.val = List.range i.val := by decide
  refine ⟨(walkOrder.take i.val).filter (fun j => eff.getLsbD j.val),
    (walkOrder.drop (i.val + 1)).filter (fun j => eff.getLsbD j.val), ?_, ?_⟩
  · conv_lhs => rw [listed, hs i]
    simp [List.filter_append, h]
  · rw [position, ← hm i, List.filter_map, List.length_map]
    rfl

/-- A register of the list stands at its position. -/
theorem listed_getElem? (eff : BitVec 16) (i : Reg) (h : eff.getLsbD i.val = true) :
    (listed eff)[position eff i]? = some i := by
  obtain ⟨a, b, he, hl⟩ := listed_split eff i h
  rw [he, ← hl]
  simp

theorem position_lt (eff : BitVec 16) (i : Reg) (h : eff.getLsbD i.val = true) : position eff i < transferCount eff := by
  have := listed_getElem? eff i h
  exact (List.getElem?_eq_some_iff.mp this).1

/-- What stands at a place of the list has that place as its position. -/
theorem position_of_getElem? (eff : BitVec 16) (k : Nat) (i : Reg) (h : (listed eff)[k]? = some i) :
    eff.getLsbD i.val = true ∧ position eff i = k := by
  have hm : i ∈ listed eff := List.mem_of_getElem? h
  have hb := (mem_listed eff i).mp hm
  refine ⟨hb, ?_⟩
  have h1 := listed_getElem? eff i hb
  have hlt : position eff i < (listed eff).length := position_lt eff i hb
  have hk := (List.getElem?_eq_some_iff.mp h).1
  have hg : (listed eff)[position eff i]'hlt = (listed eff)[k]'hk :=
    (List.getElem?_eq_some_iff.mp h1).2.trans (List.getElem?_eq_some_iff.mp h).2.symm
  exact (List.Nodup.getElem_inj_iff (listed_nodup eff)).mp hg

/-- Numbering the list's places is giving each register its position. -/
theorem zipIdx_listed {α : Type} (eff : BitVec 16) (f : Reg → Nat → α) :
    (listed eff).zipIdx.map (fun x => f x.1 x.2) = (listed eff).map fun i => f i (position eff i) := by
  apply List.ext_getElem?
  intro k
  rw [List.getElem?_map, List.getElem?_map, List.getElem?_zipIdx]
  cases h : (listed eff)[k]? with
  | none => rfl
  | some i =>
    have := (position_of_getElem? eff k i h).2
    simp [this]

/-- The first register of the list is the one at position 0. -/
theorem head?_listed (eff : BitVec 16) (i : Reg) (h : eff.getLsbD i.val = true) :
    (listed eff).head? = some i ↔ position eff i = 0 := by
  rw [List.head?_eq_getElem?]
  constructor
  · intro h0; exact (position_of_getElem? eff 0 i h0).2
  · intro h0; rw [← h0]; exact listed_getElem? eff i h

theorem transferCount_le (eff : BitVec 16) : transferCount eff ≤ 16 := by
  have h := List.length_filter_le (fun i : Reg => eff.getLsbD i.val) walkOrder
  exact h

/-- The number of set bits of a list. -/
theorem transferCount_eq (eff : BitVec 16) :
    transferCount eff = ((List.range 16).filter fun j => eff.getLsbD j).length := by
  have hm : walkOrder.map Fin.val = List.range 16 := by decide
  rw [← hm, List.filter_map, List.length_map]
  rfl

theorem effectiveList_ne_zero (list : BitVec 16) : effectiveList list ≠ 0#16 := by
  unfold effectiveList
  split
  · decide
  · assumption

theorem transferCount_pos (list : BitVec 16) : 1 ≤ transferCount (effectiveList list) := by
  by_contra h
  have h0 : (listed (effectiveList list)).length = 0 := by
    have : transferCount (effectiveList list) = 0 := by omega
    exact this
  have hn := List.length_eq_zero_iff.mp h0
  apply effectiveList_ne_zero list
  apply BitVec.eq_of_getLsbD_eq
  intro j hj
  have := mem_listed (effectiveList list) ⟨j, hj⟩
  rw [hn] at this
  simpa using this.symm

/-- R15 is the last register of a list that holds it. -/
theorem position_15 (eff : BitVec 16) (h : eff.getLsbD 15 = true) : position eff 15 + 1 = transferCount eff := by
  rw [transferCount_eq, show List.range 16 = List.range 15 ++ [15] from rfl, List.filter_append]
  simp [position, h]

/-! ## Addresses -/

theorem blockAddr_zero (a : Word) : blockAddr a 0 = a := by simp [blockAddr]

theorem blockAddr_succ (a : Word) (k : Nat) : blockAddr (a + 4#32) k = blockAddr a (k + 1) := by
  apply BitVec.eq_of_toNat_eq
  simp only [blockAddr, BitVec.toNat_add, BitVec.toNat_ofNat]
  omega

/-- The bytes of the words of a block of at most 16 are apart. -/
theorem byteAddr_blockAddr_inj (a : Word) (k k' j j' : Nat) (hk : k < 16) (hk' : k' < 16) (hj : j < 4) (hj' : j' < 4)
    (h : byteAddr (blockAddr a k) j = byteAddr (blockAddr a k') j') : k = k' := by
  rw [byteAddr_eq, byteAddr_eq] at h
  simp only [blockAddr, BitVec.toNat_add, BitVec.toNat_ofNat] at h
  have := a.isLt
  omega

/-! ## The walk of a load -/

/-- The kinds of a walk that starts with kind `q`. -/
def walkKind (q : Seq) (k : Nat) : AccessKind := dataKind (if k = 0 then q else .seq)

theorem walkKind_nonSeq (k : Nat) : walkKind .nonSeq k = blockKind k := rfl

theorem walkKind_seq (k : Nat) : walkKind .seq k = dataKind .seq := by simp [walkKind]

/-- What a load's walk leaves alone. -/
structure WalkKept (s t : State) : Prop where
  cpsr : t.cpsr = s.cpsr
  spsr : t.spsr = s.spsr
  pipe : PipeKept s t
  nk : t.nk = s.nk
  status : t.status = s.status
  trace : t.trace = s.trace
  params : t.params = s.params

theorem loadWalk_kept (bank : Mode) (l : List Reg) (addr : Word) (q : Seq) (s : State) :
    WalkKept s (loadWalk bank l addr q s) := by
  induction l generalizing addr q s with
  | nil => exact ⟨rfl, rfl, ⟨rfl, rfl, rfl⟩, rfl, rfl, rfl, rfl⟩
  | cons i l ih =>
    have h := ih (addr + 4#32) .seq (loadOne bank i addr q s)
    exact ⟨h.cpsr, h.spsr, ⟨h.pipe.1, h.pipe.2, h.pipe.3⟩, h.nk, h.status, h.trace, h.params⟩

theorem loadWalk_mem (bank : Mode) (l : List Reg) (addr : Word) (q : Seq) (s : State) :
    (loadWalk bank l addr q s).mem = s.mem := by
  induction l generalizing addr q s with
  | nil => rfl
  | cons i l ih => exact ih (addr + 4#32) .seq (loadOne bank i addr q s)

theorem loadWalk_busIn (bank : Mode) (l : List Reg) (addr : Word) (q : Seq) (s : State) :
    (loadWalk bank l addr q s).busIn = s.busIn.drop l.length := by
  induction l generalizing addr q s with
  | nil => rfl
  | cons i l ih =>
    have h := ih (addr + 4#32) .seq (loadOne bank i addr q s)
    have hb : (loadOne bank i addr q s).busIn = s.busIn.tail := rfl
    rw [hb] at h
    rw [List.length_cons, ← List.drop_tail]
    exact h

theorem loadWalk_busLog (bank : Mode) (l : List Reg) (addr : Word) (q : Seq) (s : State) :
    (loadWalk bank l addr q s).busLog =
      s.busLog ++ (List.range l.length).map fun k => .readWord (blockAddr addr k) (walkKind q k) := by
  induction l generalizing addr q s with
  | nil => simp [loadWalk]
  | cons i l ih =>
    have h := ih (addr + 4#32) .seq (loadOne bank i addr q s)
    have hb : (loadOne bank i addr q s).busLog = s.busLog ++ [.readWord addr (dataKind q)] := rfl
    rw [hb] at h
    rw [List.length_cons, List.range_succ_eq_map, List.map_cons, List.map_map]
    refine h.trans ?_
    simp [walkKind, blockAddr_zero, blockAddr_succ, Function.comp_def]

/-- A register outside the list keeps its value. -/
theorem loadWalk_other (bank : Mode) (l : List Reg) (addr : Word) (q : Seq) (s : State) (sl : Slot)
    (h : ∀ i ∈ l, sl ≠ slot bank i) : (loadWalk bank l addr q s).getSlot sl = s.getSlot sl := by
  induction l generalizing addr q s with
  | nil => rfl
  | cons i l ih =>
    refine (ih _ _ _ fun j hj => h j (List.mem_cons_of_mem _ hj)).trans ?_
    rw [loadOne, State.setReg_eq, State.getSlot_setSlot, if_neg (h i List.mem_cons_self)]
    rfl

/-- The register at place `k` of the list gets the `k`-th word. -/
theorem loadWalk_loaded (bank : Mode) (l : List Reg) (addr : Word) (q : Seq) (s : State) (hn : l.Nodup) (k : Nat) (i : Reg)
    (h : l[k]? = some i) : (loadWalk bank l addr q s).getSlot (slot bank i) = s.nthWordAnswer k (blockAddr addr k) := by
  induction l generalizing addr q s k with
  | nil => simp at h
  | cons j l ih =>
    rw [List.nodup_cons] at hn
    cases k with
    | zero =>
      simp only [List.getElem?_cons_zero, Option.some.injEq] at h
      subst h
      refine (loadWalk_other bank l _ _ _ _ fun i hi he => ?_).trans ?_
      · rw [slot_inj] at he
        exact hn.1 (he ▸ hi)
      · rw [loadOne, State.setReg_eq, State.getSlot_setSlot, if_pos rfl, State.wordAnswer_eq, blockAddr_zero]
    | succ k =>
      rw [List.getElem?_cons_succ] at h
      refine (ih (addr + 4#32) .seq (loadOne bank j addr q s) hn.2 k h).trans ?_
      rw [blockAddr_succ, Nat.add_comm k 1]
      exact State.nthWordAnswer_congr s (loadOne bank j addr q s) k 1 _ (by simp [loadOne, State.afterRead]) rfl rfl

/-! ## The walk of a store -/

/-- The memory with words written from an address up. -/
def storeWords (order : ByteOrder) : List Word → Word → Memory → Memory
  | [], _, m => m
  | v :: vs, a, m => storeWords order vs (a + 4#32) (m.writeWord order a v)

theorem storedValue_busWrite (x : StoreContext) (i : Reg) (s : State) (a v : Word) (k : AccessKind) :
    storedValue x i (s.busWrite a v k) = storedValue x i s := rfl

/-- A store's walk writes the values the starting state has, and changes memory and the bus record only. -/
theorem storeWalk_eq (x : StoreContext) (l : List Reg) (addr : Word) (q : Seq) (s : State) :
    storeWalk x l addr q s = { s with
      mem := storeWords s.params.byteOrder (l.map fun i => storedValue x i s) addr s.mem
      busLog := s.busLog ++ l.zipIdx.map fun p => .writeWord (blockAddr addr p.2) (storedValue x p.1 s) (walkKind q p.2) } := by
  induction l generalizing addr q s with
  | nil => simp [storeWalk, storeWords]
  | cons i l ih =>
    rw [storeWalk, ih]
    simp only [storedValue_busWrite, List.map_cons, storeWords, List.zipIdx_cons, Nat.zero_add, List.zipIdx_succ,
      List.map_map, blockAddr_zero, walkKind_seq]
    simp [State.busWrite, walkKind, blockAddr_succ, Function.comp_def]

theorem storeWords_wf (order : ByteOrder) (vs : List Word) (a : Word) (m : Memory) (h : m.wf = true) :
    (storeWords order vs a m).wf = true := by
  induction vs generalizing a m with
  | nil => exact h
  | cons v vs ih => exact ih _ _ (Memory.wf_writeWord _ _ _ _ h)

/-- A byte outside the block keeps its value. -/
theorem storeWords_other (order : ByteOrder) (vs : List Word) (a : Word) (m : Memory) (h : m.wf = true) (b : Nat)
    (hb : ∀ k < vs.length, ∀ j < 4, b ≠ byteAddr (blockAddr a k) j) : (storeWords order vs a m).read b = m.read b := by
  induction vs generalizing a m with
  | nil => rfl
  | cons v vs ih =>
    refine (ih (a + 4#32) _ (Memory.wf_writeWord _ _ _ _ h) fun k hk j hj => ?_).trans ?_
    · rw [blockAddr_succ]
      exact hb (k + 1) (by simpa using hk) j hj
    · exact Memory.read_writeWord_of_ne _ _ _ _ h _ fun j hj => by simpa [blockAddr_zero] using hb 0 (by simp) j hj

/-- The word at place `k` of a block of at most 16 reads back. -/
theorem storeWords_readWord (order : ByteOrder) (vs : List Word) (a : Word) (m : Memory) (h : m.wf = true)
    (hl : vs.length ≤ 16) (k : Nat) (v : Word) (hv : vs[k]? = some v) :
    (storeWords order vs a m).readWord order (blockAddr a k) = v := by
  induction vs generalizing a m k with
  | nil => simp at hv
  | cons w vs ih =>
    rw [List.length_cons] at hl
    cases k with
    | zero =>
      simp only [List.getElem?_cons_zero, Option.some.injEq] at hv
      subst hv
      rw [blockAddr_zero]
      refine (Memory.readWord_congr order (m.writeWord order a w) _ a fun j hj => ?_).trans
        (Memory.readWord_writeWord order m a w h)
      refine storeWords_other _ _ _ _ (Memory.wf_writeWord _ _ _ _ h) _ fun k hk i hi he => ?_
      rw [blockAddr_succ] at he
      have := byteAddr_blockAddr_inj a 0 (k + 1) j i (by omega) (by omega) hj hi (by rw [blockAddr_zero]; exact he)
      omega
    | succ k =>
      rw [List.getElem?_cons_succ] at hv
      rw [← blockAddr_succ]
      exact ih (a + 4#32) _ (Memory.wf_writeWord _ _ _ _ h) (by omega) k hv

/-! ## The checks and the executors -/

/-- None of the four checks fails (44_block_transfer.md R113). -/
theorem blockCheck_ok (load : Bool) (m : Mode) (p u sBit w : Bool) (rn : Reg) (list : BitVec 16) (s : State)
    (h : BlockOk load m p u sBit w rn list s) :
    blockCheck load sBit w rn (effectiveList list) (startIn m p u rn list s) s.params = none := by
  obtain ⟨h1, h2, h3, h4⟩ := h
  unfold blockCheck
  rw [if_neg, if_neg, if_neg, if_neg]
  · simp only [Bool.and_eq_true, decide_eq_true_eq, beq_iff_eq]
    rintro ⟨ha, hb⟩
    rcases h4 with h | h
    · exact ha h
    · rw [h] at hb; cases hb
  · simp only [Bool.and_eq_true]
    rintro ⟨ha, hb⟩
    simp [h3 ha] at hb
  · simp only [Bool.and_eq_true, decide_eq_true_eq]
    rintro ⟨ha, hb⟩
    exact h2 ha hb
  · simp only [Bool.and_eq_true, beq_iff_eq]
    rintro ⟨ha, hb⟩
    rw [h1 ha] at hb; cases hb

theorem loadMultiple_stops (m : Mode) (p u sBit w : Bool) (rn : Reg) (list : BitVec 16) (s : State) (x : Status)
    (h : blockCheck true sBit w rn (effectiveList list) (startIn m p u rn list s) s.params = some x) :
    loadMultiple m p u sBit w rn list s = .halt (s.stopped x) := by
  unfold startIn at h
  simp only [loadMultiple, h, raise]

theorem storeMultiple_stops (m : Mode) (p u sBit w : Bool) (rn : Reg) (list : BitVec 16) (s : State) (x : Status)
    (h : blockCheck false sBit w rn (effectiveList list) (startIn m p u rn list s) s.params = some x) :
    storeMultiple m p u sBit w rn list s = .halt (s.stopped x) := by
  unfold startIn at h
  simp only [storeMultiple, h, raise]

theorem exec_ldm (c : Cond) (p u sBit w : Bool) (rn : Reg) (list : BitVec 16) (s : State) (m : Mode) (hr : Ready c s m) :
    exec (.ldm c p u sBit w rn list) s = .next (loadMultiple m p u sBit w rn list s).final :=
  conditionally_ready c s m (fun m s => loadMultiple m p u sBit w rn list s) hr

theorem exec_stm (c : Cond) (p u sBit w : Bool) (rn : Reg) (list : BitVec 16) (s : State) (m : Mode) (hr : Ready c s m) :
    exec (.stm c p u sBit w rn list) s = .next (storeMultiple m p u sBit w rn list s).final :=
  conditionally_ready c s m (fun m s => storeMultiple m p u sBit w rn list s) hr

/-- The state after the walk and the writeback of a load, before its idle turn. -/
def loadDone (m bank : Mode) (p u w : Bool) (rn : Reg) (list : BitVec 16) (s : State) : State :=
  let t := loadWalk bank (listed (effectiveList list)) (startIn m p u rn list s) .nonSeq s
  if w && !(effectiveList list).getLsbD rn.val then t.setReg m rn (writebackIn m u rn list s) else t

theorem loadMultiple_ok (m : Mode) (p u sBit w : Bool) (rn : Reg) (list : BitVec 16) (s : State)
    (h : blockCheck true sBit w rn (effectiveList list) (startIn m p u rn list s) s.params = none) :
    loadMultiple m p u sBit w rn list s = finishLoad m sBit ((effectiveList list).getLsbD 15)
      (loadDone m (transferMode true sBit (effectiveList list) m) p u w rn list s) := by
  unfold startIn at h
  simp only [loadMultiple, h]
  rfl

section LoadDone

variable (m bank : Mode) (p u w : Bool) (rn : Reg) (list : BitVec 16) (s : State)

theorem kept_loadDone : WalkKept s (loadDone m bank p u w rn list s) := by
  have h := loadWalk_kept bank (listed (effectiveList list)) (startIn m p u rn list s) .nonSeq s
  unfold loadDone
  simp only
  split
  · exact ⟨h.cpsr, h.spsr, ⟨h.pipe.1, h.pipe.2, h.pipe.3⟩, h.nk, h.status, h.trace, h.params⟩
  · exact h

theorem mem_loadDone : (loadDone m bank p u w rn list s).mem = s.mem := by
  have h := loadWalk_mem bank (listed (effectiveList list)) (startIn m p u rn list s) .nonSeq s
  unfold loadDone
  simp only
  split <;> exact h

theorem busIn_loadDone :
    (loadDone m bank p u w rn list s).busIn = s.busIn.drop (transferCount (effectiveList list)) := by
  have h := loadWalk_busIn bank (listed (effectiveList list)) (startIn m p u rn list s) .nonSeq s
  unfold loadDone
  simp only
  split <;> exact h

theorem busLog_loadDone : (loadDone m bank p u w rn list s).busLog =
    s.busLog ++ loadCalls (startIn m p u rn list s) (transferCount (effectiveList list)) := by
  have h := loadWalk_busLog bank (listed (effectiveList list)) (startIn m p u rn list s) .nonSeq s
  unfold loadDone
  simp only
  split <;> exact h

/-- R15 after a load's walk: its word when it is listed, else what it was. -/
theorem pc_loadDone (hrn : w = true → rn ≠ 15) : (loadDone m bank p u w rn list s).pc =
    if (effectiveList list).getLsbD 15 then s.nthWordAnswer (position (effectiveList list) 15)
      (blockAddr (startIn m p u rn list s) (position (effectiveList list) 15)) else s.pc := by
  have hw : (loadDone m bank p u w rn list s).pc =
      (loadWalk bank (listed (effectiveList list)) (startIn m p u rn list s) .nonSeq s).pc := by
    unfold loadDone
    simp only
    split
    · rename_i hw
      simp only [Bool.and_eq_true] at hw
      rw [State.pc_setReg, if_neg (hrn hw.1)]
    · rfl
  rw [hw]
  split
  · rename_i hl
    exact loadWalk_loaded bank _ _ .nonSeq s (listed_nodup _) _ 15 (listed_getElem? _ 15 hl)
  · rename_i hl
    refine loadWalk_other bank _ _ .nonSeq s .pc fun i hi hs => hl ?_
    have hi15 : i = 15 := (slot_eq_pc_iff _ _).mp hs.symm
    subst hi15
    exact (mem_listed _ _).mp hi

/-- The registers of a state whose registers, R15 apart, are those a load's walk and writeback leave. -/
theorem loaded_loadDone (t : State) (hb : bank = m ∨ w = false) (hrn : w = true → rn ≠ 15)
    (ht : ∀ k, k ≠ .pc → t.getSlot k = (loadDone m bank p u w rn list s).getSlot k) :
    Loaded s t m bank p u w rn list := by
  constructor
  · intro i hi hl
    have hne : slot bank i ≠ .pc := fun e => hi ((slot_eq_pc_iff _ _).mp e)
    rw [State.reg, ht _ hne, ← loadWalk_loaded bank (listed (effectiveList list)) (startIn m p u rn list s) .nonSeq s
      (listed_nodup _) _ i (listed_getElem? _ i hl)]
    unfold loadDone
    simp only
    split
    · rename_i hw
      simp only [Bool.and_eq_true, Bool.not_eq_true'] at hw
      rcases hb with rfl | hb
      · rw [State.setReg_eq, State.getSlot_setSlot, if_neg]
        rw [slot_inj]
        rintro rfl
        rw [hl] at hw; cases hw.2
      · rw [hb] at hw; cases hw.1
    · rfl
  · intro hw hl
    have hne : slot m rn ≠ .pc := fun e => hrn hw ((slot_eq_pc_iff _ _).mp e)
    rw [State.reg, ht _ hne]
    unfold loadDone
    simp only [hw, hl, Bool.not_false, Bool.and_true, if_true, State.setReg_eq, State.getSlot_setSlot]
  · intro k hk hn
    push Not at hn
    rw [ht _ hk, ← loadWalk_other bank (listed (effectiveList list)) (startIn m p u rn list s) .nonSeq s k
      (fun i hi => hn.1 i ((mem_listed _ _).mp hi))]
    unfold loadDone
    simp only
    split
    · rename_i hw
      simp only [Bool.and_eq_true] at hw
      rw [State.setReg_eq, State.getSlot_setSlot, if_neg (hn.2 hw.1)]
    · rfl

end LoadDone

/-- The state after the walk and the writeback of a store, before NK and the PC advance. -/
def storeDone (m : Mode) (p u sBit w : Bool) (rn : Reg) (list : BitVec 16) (s : State) : State :=
  let t := storeWalk ⟨transferMode false sBit (effectiveList list) m, rn, w, effectiveList list, s.reg m rn,
    writebackIn m u rn list s⟩ (listed (effectiveList list)) (startIn m p u rn list s) .nonSeq s
  if w then t.setReg m rn (writebackIn m u rn list s) else t

theorem storeMultiple_ok (m : Mode) (p u sBit w : Bool) (rn : Reg) (list : BitVec 16) (s : State)
    (h : blockCheck false sBit w rn (effectiveList list) (startIn m p u rn list s) s.params = none) :
    storeMultiple m p u sBit w rn list s =
      .goOn { storeDone m p u sBit w rn list s with nk := .nonSeq }.advancePC := by
  unfold startIn at h
  simp only [storeMultiple, h]
  rfl

/-- The value the executor stores is the one the claims name. -/
theorem storedValue_eq (m : Mode) (u sBit w : Bool) (rn : Reg) (list : BitVec 16) (s : State) (i : Reg)
    (hi : (effectiveList list).getLsbD i.val = true) :
    storedValue ⟨transferMode false sBit (effectiveList list) m, rn, w, effectiveList list, s.reg m rn,
      writebackIn m u rn list s⟩ i s = stmValue m u sBit w rn list s i := by
  unfold storedValue stmValue
  have hb : transferMode false sBit (effectiveList list) m = if sBit then .user else m := by
    simp [transferMode, userBankTransfer]
  simp only [head?_listed _ i hi, hb]
  by_cases h1 : i = rn ∧ w = true
  · simp [h1]
  · rw [if_neg h1, if_neg (by simpa using h1)]
    by_cases h2 : i = 15
    · rw [if_pos h2, if_pos h2]
      unfold storedPc
      cases s.params.stmPcLead <;> rfl
    · rw [if_neg h2, if_neg h2]

end Sys2Proof.Machine
end

