-- ==== Sys2Proof/Laws/Branch.lean ====
section
/-! SUPPORT. What the branches do (41_branch.md R69-R71): their target as a signed displacement, and the reload there. -/

namespace Sys2Proof.Machine

/-- The displacement is four times the signed offset. -/
theorem add_branchDisplacement (s : State) (o : BitVec 24) : s.pc + branchDisplacement o = branchTarget s o := by
  unfold branchTarget branchDisplacement
  congr 1
  apply BitVec.eq_of_toInt_eq
  rw [BitVec.toInt_signExtend_of_le (x := o ++ 0b00#2) (v := 32) (by decide)]
  have hl := BitVec.toInt_lt (x := o)
  have hg := BitVec.le_toInt (x := o)
  have ha : (o ++ 0b00#2).toNat = o.toNat * 4 := by
    rw [BitVec.toNat_append]
    simp [Nat.shiftLeft_eq]
  rw [BitVec.toInt_ofInt, Int.bmod_def, BitVec.toInt_eq_toNat_cond, ha]
  rw [BitVec.toInt_eq_toNat_cond] at *
  have := o.isLt
  split <;> split <;> split <;> omega

/-- Clearing bit 0 of an odd address takes 1 away, and leaves an even address. -/
theorem clear_bit0 (x : Word) (hb : x.getLsbD 0 = true) :
    x &&& 0xFFFFFFFE#32 = x - 1#32 ∧ (x - 1#32).toNat % 2 = 0 := by
  have h1 : x.toNat % 2 = 1 := by simpa [BitVec.getLsbD, Nat.testBit_zero] using hb
  have hx := x.isLt
  have h2 : (x &&& 0xFFFFFFFE#32).toNat = x.toNat - 1 := by
    have hd : x &&& 0xFFFFFFFE#32 = (x >>> 1) <<< 1 := by
      apply BitVec.eq_of_getLsbD_eq
      intro i hi
      have hm : ∀ i : Fin 32, (0xFFFFFFFE#32).getLsbD i.val = decide (1 ≤ i.val) := by decide
      have hm := hm ⟨i, hi⟩
      simp only [] at hm
      rw [BitVec.getLsbD_and, hm, BitVec.getLsbD_shiftLeft, BitVec.getLsbD_ushiftRight]
      by_cases h : i = 0
      · subst h; simp
      · simp [show 1 + (i - 1) = i by omega, hi, h, show 1 ≤ i by omega]
    rw [hd, BitVec.toNat_shiftLeft, BitVec.toNat_ushiftRight, Nat.shiftLeft_eq, Nat.shiftRight_eq_div_pow]
    omega
  have h3 : (x - 1#32).toNat = x.toNat - 1 := by
    simp [BitVec.toNat_sub]
    omega
  exact ⟨BitVec.eq_of_toNat_eq (by rw [h2, h3]), by rw [h3]; omega⟩

/-- A branch from a state `u` that has R15, CPSR and parameters of `s`. -/
theorem branchTo_ok (s u : State) (o : BitVec 24) (hpc : u.pc = s.pc) (hc : u.cpsr = s.cpsr) (hp : u.params = s.params)
    (hf : FetchOk s (branchTarget s o) s.codeWidth) : branchTo o u = .goOn (u.setPc (branchTarget s o)).reloaded := by
  have hw : (u.setPc (branchTarget s o)).codeWidth = s.codeWidth := by simp [State.codeWidth, hc]
  rw [branchTo, add_branchDisplacement, show branchTarget u o = branchTarget s o by simp [branchTarget, hpc]]
  apply reload_ok
  rw [hw, State.pc_setPc]
  exact hf.imp id fun h => by simpa [hp] using h

theorem exec_b (c : Cond) (o : BitVec 24) (s : State) (m : Mode) (hr : Ready c s m) :
    exec (.b c o) s = .next (branchTo o s).final :=
  conditionally_ready c s m (fun _ s => branchTo o s) hr

theorem exec_bl (c : Cond) (o : BitVec 24) (s : State) (m : Mode) (hr : Ready c s m) :
    exec (.bl c o) s = .next (branchTo o (s.setReg m 14 (s.pc - 4#32))).final :=
  conditionally_ready c s m (fun m s => branchTo o (s.setReg m 14 (s.pc - 4#32))) hr

theorem exec_bx (c : Cond) (rm : Reg) (s : State) (m : Mode) (hr : Ready c s m) :
    exec (.bx c rm) s = .next (exchangeTo m rm s).final :=
  conditionally_ready c s m (fun m s => exchangeTo m rm s) hr

theorem exchangeTo_even (m : Mode) (rm : Reg) (s : State) (h : (s.reg m rm).getLsbD 0 = false) :
    exchangeTo m rm s = reload (s.setPc (s.reg m rm)) := by
  simp only [exchangeTo, h, Bool.false_eq_true, if_false]

/-- To an odd address BX goes in Thumb state, and never misaligned. -/
theorem exchangeTo_odd (m : Mode) (rm : Reg) (s : State) (h : (s.reg m rm).getLsbD 0 = true) :
    exchangeTo m rm s = .goOn (({ s with cpsr := Cpsr.setThumb s.cpsr }).setPc (s.reg m rm - 1#32)).reloaded := by
  obtain ⟨h1, h2⟩ := clear_bit0 _ h
  simp only [exchangeTo, h, if_true, h1]
  apply reload_ok
  left
  have hw : (({ s with cpsr := Cpsr.setThumb s.cpsr } : State).setPc (s.reg m rm - 1#32)).codeWidth = 2 := by
    simp [State.codeWidth]
  rw [hw]
  exact h2

end Sys2Proof.Machine
end

