-- ==== Sys2Proof/Laws/Decode.lean ====
section
/-! SUPPORT. What each part of the decoder reads from the words the encoder writes, and back (30_encoding.md R40-R51). -/

namespace Sys2Proof

@[simp] theorem Cond.ofCode_code (c : Cond) : Cond.ofCode c.code = c := by cases c <;> rfl

@[simp] theorem DpOp.ofCode_code (op : DpOp) : DpOp.ofCode op.code = op := by cases op <;> rfl

@[simp] theorem ShiftType.ofCode_code (ty : ShiftType) : ShiftType.ofCode ty.code = ty := by cases ty <;> rfl

@[simp] theorem Cond.code_ofCode (x : BitVec 4) : (Cond.ofCode x).code = x := by revert x; decide

@[simp] theorem DpOp.code_ofCode (x : BitVec 4) : (DpOp.ofCode x).code = x := by revert x; decide

@[simp] theorem ShiftType.code_ofCode (x : BitVec 2) : (ShiftType.ofCode x).code = x := by revert x; decide

/-- An instruction is what its condition and variant make. -/
@[simp] theorem Instr.ofDecoded_variant (i : Instr) : Instr.ofDecoded i.cond i.variant = i := by cases i <;> rfl

@[simp] theorem Instr.cond_ofDecoded (c : Cond) (d : Decoded) : (Instr.ofDecoded c d).cond = c := by
  rcases d with _ | _ | _ | ⟨op, rd, rn, op2, st⟩ | ⟨load, p, u, sb, w, rn, l⟩
  case dataProcessing => cases op <;> cases op2 <;> rfl
  case blockDataTransfer => cases load <;> rfl
  all_goals rfl

@[simp] theorem regBits_toFin (r : Reg) : (regBits r).toFin = r := rfl

@[simp] theorem regBits_of_toFin (x : BitVec 4) : regBits x.toFin = x := rfl

/-! ## Decoding what the encoder writes -/

@[simp] theorem condField_encode (c : Cond) (x : BitVec 28) : condField (c.code ++ x) = c := by
  unfold condField
  rw [BitVec.extractLsb'_append_eq_of_le (by decide)]
  simp

/-- Fields of a 28-bit tail behind a condition. -/
theorem field_tail (c : BitVec 4) (x : BitVec 28) (lo len : Nat) (h : lo + len ≤ 28) :
    (c ++ x : Word).extractLsb' lo len = x.extractLsb' lo len := BitVec.extractLsb'_append_eq_of_add_le h

theorem bit_tail (c : BitVec 4) (x : BitVec 28) (i : Nat) (h : i < 28) :
    (c ++ x : Word).getLsbD i = x.getLsbD i := by
  rw [BitVec.getLsbD_append, if_pos h]

theorem decodeVariant_branch (chk : CompareRdCheck) (c : BitVec 4) (o : BitVec 24) :
    decodeVariant chk (c ++ (Decoded.branch o).bits) = .ok (.branch o) := by
  have h1 : (c ++ (Decoded.branch o).bits : Word).extractLsb' 25 3 = 0b101#3 := by
    rw [field_tail _ _ _ _ (by decide), Decoded.bits, BitVec.extractLsb'_append_eq_of_le (by decide)]; decide
  have h2 : (c ++ (Decoded.branch o).bits : Word).getLsbD 24 = false := by
    rw [bit_tail _ _ _ (by decide), Decoded.bits, BitVec.getLsbD_append, if_neg (by decide)]; decide
  have h3 : (c ++ (Decoded.branch o).bits : Word).extractLsb' 0 24 = o := by
    rw [field_tail _ _ _ _ (by decide), Decoded.bits, BitVec.extractLsb'_append_eq_of_add_le (by decide),
      BitVec.extractLsb'_eq_self]
  rw [decodeVariant, if_pos h1, decodeBranch, h2, h3]; rfl

theorem decodeVariant_branchLink (chk : CompareRdCheck) (c : BitVec 4) (o : BitVec 24) :
    decodeVariant chk (c ++ (Decoded.branchLink o).bits) = .ok (.branchLink o) := by
  have h1 : (c ++ (Decoded.branchLink o).bits : Word).extractLsb' 25 3 = 0b101#3 := by
    rw [field_tail _ _ _ _ (by decide), Decoded.bits, BitVec.extractLsb'_append_eq_of_le (by decide)]; decide
  have h2 : (c ++ (Decoded.branchLink o).bits : Word).getLsbD 24 = true := by
    rw [bit_tail _ _ _ (by decide), Decoded.bits, BitVec.getLsbD_append, if_neg (by decide)]; decide
  have h3 : (c ++ (Decoded.branchLink o).bits : Word).extractLsb' 0 24 = o := by
    rw [field_tail _ _ _ _ (by decide), Decoded.bits, BitVec.extractLsb'_append_eq_of_add_le (by decide),
      BitVec.extractLsb'_eq_self]
  rw [decodeVariant, if_pos h1, decodeBranch, h2, h3]; rfl

theorem decodeVariant_branchExchange (chk : CompareRdCheck) (c : BitVec 4) (rm : Reg) :
    decodeVariant chk (c ++ (Decoded.branchExchange rm).bits) = .ok (.branchExchange rm) := by
  have h1 : (c ++ (Decoded.branchExchange rm).bits : Word).extractLsb' 25 3 = 0b000#3 := by
    rw [field_tail _ _ _ _ (by decide), Decoded.bits, BitVec.extractLsb'_append_eq_of_le (by decide)]; decide
  have h2 : (c ++ (Decoded.branchExchange rm).bits : Word).extractLsb' 4 24 = 0x12FFF1#24 := by
    rw [field_tail _ _ _ _ (by decide), Decoded.bits, BitVec.extractLsb'_append_eq_of_le (by decide)]; decide
  have h3 : regField (c ++ (Decoded.branchExchange rm).bits) 0 = rm := by
    rw [regField, field_tail _ _ _ _ (by decide), Decoded.bits, BitVec.extractLsb'_append_eq_of_add_le (by decide),
      BitVec.extractLsb'_eq_self]; rfl
  rw [decodeVariant, h1, if_neg (by decide), if_pos h2, h3]

/-- The BX pattern has bit 24 set behind two zero family bits: a word whose bits 27:26 are not 00 does not match it. -/
theorem not_bxPattern_of_family (w : Word) (h : w.extractLsb' 26 2 ≠ 0b00#2) : w.extractLsb' 4 24 ≠ 0x12FFF1#24 := by
  intro hx
  refine h (BitVec.eq_of_getLsbD_eq fun i hi => ?_)
  have h1 := congrArg (BitVec.getLsbD · (22 + i)) hx
  simp only [BitVec.getLsbD_extractLsb'] at h1 ⊢
  have hi' : i = 0 ∨ i = 1 := by omega
  rcases hi' with rfl | rfl
  · simpa using h1
  · simpa using h1

theorem decodeVariant_block (chk : CompareRdCheck) (c : BitVec 4) (load p u sBit w : Bool) (rn : Reg) (l : BitVec 16) :
    decodeVariant chk (c ++ (Decoded.blockDataTransfer load p u sBit w rn l).bits) =
      .ok (.blockDataTransfer load p u sBit w rn l) := by
  have h0 : (c ++ (Decoded.blockDataTransfer load p u sBit w rn l).bits : Word).extractLsb' 25 3 = 0b100#3 := by
    rw [field_tail _ _ _ _ (by decide)]
    simp (disch := omega) only [Decoded.bits, BitVec.extractLsb'_append_eq_of_le]; decide
  have h26 : (c ++ (Decoded.blockDataTransfer load p u sBit w rn l).bits : Word).extractLsb' 26 2 = 0b10#2 := by
    rw [field_tail _ _ _ _ (by decide)]
    simp (disch := omega) only [Decoded.bits, BitVec.extractLsb'_append_eq_of_le]; decide
  have hx := not_bxPattern_of_family (c ++ (Decoded.blockDataTransfer load p u sBit w rn l).bits) (by rw [h26]; decide)
  have hrn : regField (c ++ (Decoded.blockDataTransfer load p u sBit w rn l).bits) 16 = rn := by
    rw [regField, field_tail _ _ _ _ (by decide)]
    simp (disch := omega) only [Decoded.bits, BitVec.extractLsb'_append_eq_of_le, BitVec.extractLsb'_append_eq_of_add_le]
    exact congrArg BitVec.toFin (BitVec.extractLsb'_eq_self (x := regBits rn))
  have hl : (c ++ (Decoded.blockDataTransfer load p u sBit w rn l).bits : Word).extractLsb' 0 16 = l := by
    rw [field_tail _ _ _ _ (by decide)]
    simp (disch := omega) only [Decoded.bits, BitVec.extractLsb'_append_eq_of_add_le, BitVec.extractLsb'_eq_self]
  rw [decodeVariant, h0, h26, if_neg (by decide), if_neg hx, if_neg (by decide), if_pos rfl, decodeBDT, hrn, hl]
  simp only [bit_tail _ _ 20 (by decide), bit_tail _ _ 21 (by decide), bit_tail _ _ 22 (by decide),
    bit_tail _ _ 23 (by decide), bit_tail _ _ 24 (by decide), Decoded.bits, BitVec.getLsbD_append]
  simp

/-- The fields of a data-processing word but for its second operand. -/
theorem dpFields (c : BitVec 4) (op : DpOp) (rd rn : Reg) (op2 : Operand2) (st : Bool) (w : Word)
    (hw : w = c ++ (Decoded.dataProcessing op rd rn op2 st).bits) :
    w.extractLsb' 26 2 = 0b00#2 ∧ w.getLsbD 25 = op2.immBit ∧ w.extractLsb' 21 4 = op.code ∧ w.getLsbD 20 = st ∧
      regField w 16 = rn ∧ regField w 12 = rd ∧ w.extractLsb' 0 12 = op2.bits := by
  subst hw
  refine ⟨?_, ?_, ?_, ?_, ?_, ?_, ?_⟩
  · rw [field_tail _ _ _ _ (by decide)]
    simp (disch := omega) only [Decoded.bits, BitVec.extractLsb'_append_eq_of_le]
    rfl
  · rw [bit_tail _ _ _ (by decide)]
    simp only [Decoded.bits, BitVec.getLsbD_append]
    simp
  · rw [field_tail _ _ _ _ (by decide)]
    simp (disch := omega) only [Decoded.bits, BitVec.extractLsb'_append_eq_of_le, BitVec.extractLsb'_append_eq_of_add_le]
    exact BitVec.extractLsb'_eq_self
  · rw [bit_tail _ _ _ (by decide)]
    simp only [Decoded.bits, BitVec.getLsbD_append]
    simp
  · rw [regField, field_tail _ _ _ _ (by decide)]
    simp (disch := omega) only [Decoded.bits, BitVec.extractLsb'_append_eq_of_le, BitVec.extractLsb'_append_eq_of_add_le]
    exact congrArg BitVec.toFin (BitVec.extractLsb'_eq_self (x := regBits rn))
  · rw [regField, field_tail _ _ _ _ (by decide)]
    simp (disch := omega) only [Decoded.bits, BitVec.extractLsb'_append_eq_of_le, BitVec.extractLsb'_append_eq_of_add_le]
    exact congrArg BitVec.toFin (BitVec.extractLsb'_eq_self (x := regBits rd))
  · rw [field_tail _ _ _ _ (by decide)]
    simp (disch := omega) only [Decoded.bits, BitVec.extractLsb'_append_eq_of_add_le]
    exact BitVec.extractLsb'_eq_self

/-- The second operand read back from its own bits. -/
theorem decodeOperand2_bits (w : Word) (op2 : Operand2) (h25 : w.getLsbD 25 = op2.immBit)
    (hlow : w.extractLsb' 0 12 = op2.bits) : decodeOperand2 w = .ok op2 := by
  have fld : ∀ lo len, lo + len ≤ 12 → w.extractLsb' lo len = op2.bits.extractLsb' lo len := by
    intro lo len hl
    rw [← hlow]
    refine BitVec.eq_of_getLsbD_eq fun i hi => ?_
    simp [hi, show lo + i < 12 by omega]
  have bit : ∀ i, i < 12 → w.getLsbD i = op2.bits.getLsbD i := by
    intro i hi
    rw [← hlow]
    simp [hi]
  cases op2 with
  | imm rot imm8 =>
    rw [decodeOperand2, h25, Operand2.immBit, if_pos rfl, fld 8 4 (by decide), fld 0 8 (by decide)]
    simp (disch := omega) only [Operand2.bits, BitVec.extractLsb'_append_eq_of_le, BitVec.extractLsb'_append_eq_of_add_le,
      BitVec.extractLsb'_eq_self]
    simp
  | regImm rm ty amount5 =>
    have h4 : w.getLsbD 4 = false := by
      rw [bit 4 (by decide)]; simp only [Operand2.bits, BitVec.getLsbD_append]; simp
    rw [decodeOperand2, h25, Operand2.immBit, if_neg (by decide), h4, if_pos (by decide), regField, fld 0 4 (by decide),
      fld 5 2 (by decide), fld 7 5 (by decide)]
    simp (disch := omega) only [Operand2.bits, BitVec.extractLsb'_append_eq_of_le, BitVec.extractLsb'_append_eq_of_add_le,
      BitVec.extractLsb'_eq_self]
    simp
  | regReg rm ty rs =>
    have h4 : w.getLsbD 4 = true := by
      rw [bit 4 (by decide)]; simp only [Operand2.bits, BitVec.getLsbD_append]; simp
    have h7 : w.getLsbD 7 = false := by
      rw [bit 7 (by decide)]; simp only [Operand2.bits, BitVec.getLsbD_append]; simp
    rw [decodeOperand2, h25, Operand2.immBit, if_neg (by decide), h4, if_neg (by decide), h7, if_pos (by decide), regField,
      regField, fld 0 4 (by decide), fld 5 2 (by decide), fld 8 4 (by decide)]
    simp (disch := omega) only [Operand2.bits, BitVec.extractLsb'_append_eq_of_le, BitVec.extractLsb'_append_eq_of_add_le,
      BitVec.extractLsb'_eq_self]
    simp

/-- The checks of `decodeDP` pass for the variant of a well-formed instruction. -/
theorem decodeVariant_dp (chk : CompareRdCheck) (c : BitVec 4) (op : DpOp) (rd rn : Reg) (op2 : Operand2) (st : Bool)
    (h1 : op.isCompare = true → st = true) (h2 : op.isMove = true → rn = 0)
    (h3 : op.isCompare = true → compareRdAccepted chk rd = true) :
    decodeVariant chk (c ++ (Decoded.dataProcessing op rd rn op2 st).bits) = .ok (.dataProcessing op rd rn op2 st) := by
  obtain ⟨f26, f25, f21, f20, f16, f12, f0⟩ := dpFields c op rd rn op2 st _ rfl
  generalize hw : (c ++ (Decoded.dataProcessing op rd rn op2 st).bits : Word) = w at *
  have hb : w.extractLsb' 25 3 ≠ 0b101#3 := by
    intro h
    have h1 := congrArg (BitVec.getLsbD · 2) h
    have h2 := congrArg (BitVec.getLsbD · 1) f26
    simp only [BitVec.getLsbD_extractLsb'] at h1 h2
    simp at h1 h2
    simp [h1] at h2
  have hx : w.extractLsb' 4 24 ≠ 0x12FFF1#24 := by
    intro hx
    have b (i : Nat) (hi : i < 24) : w.getLsbD (4 + i) = (0x12FFF1#24).getLsbD i := by
      rw [← hx]; simp [hi]
    have h20 := b 16 (by decide)
    rw [f20] at h20
    have h21 : w.extractLsb' 21 4 = 0b1001#4 := by
      refine BitVec.eq_of_getLsbD_eq fun i hi => ?_
      rw [BitVec.getLsbD_extractLsb', show 21 + i = 4 + (17 + i) by omega, b (17 + i) (by omega)]
      have hi' : i = 0 ∨ i = 1 ∨ i = 2 ∨ i = 3 := by omega
      rcases hi' with rfl | rfl | rfl | rfl <;> decide
    rw [f21] at h21
    have hop : op = .teq := by
      have := congrArg DpOp.ofCode h21
      rw [DpOp.ofCode_code] at this
      exact this
    subst hop
    have := h1 rfl
    rw [this] at h20
    exact absurd h20 (by decide)
  rw [decodeVariant, if_neg hb, if_neg hx, if_pos f26, decodeDP]
  simp only [f21, f20, f16, f12, DpOp.ofCode_code, decodeOperand2_bits w op2 f25 f0]
  cases hc : op.isCompare <;> cases hm : op.isMove <;> simp_all

/-- Every variant of a well-formed instruction is decoded from its bits. -/
theorem decodeVariant_variant (chk : CompareRdCheck) (c : BitVec 4) (i : Instr) (h : i.wellFormed chk = true) :
    decodeVariant chk (c ++ i.variant.bits) = .ok i.variant := by
  cases i
  case b => exact decodeVariant_branch ..
  case bl => exact decodeVariant_branchLink ..
  case bx => exact decodeVariant_branchExchange ..
  case ldm => exact decodeVariant_block ..
  case stm => exact decodeVariant_block ..
  all_goals
    refine decodeVariant_dp chk c _ _ _ _ _ ?_ ?_ ?_
    · simp [DpOp.isCompare]
    · simp [DpOp.isMove]
    · first | exact fun _ => h | simp [DpOp.isCompare]

/-! ## Encoding what the decoder reads -/

/-- The bits of the second operand that the decoder reads. -/
theorem bits_decodeOperand2 (w : Word) (op2 : Operand2) (h : decodeOperand2 w = .ok op2) :
    op2.immBit = w.getLsbD 25 ∧ op2.bits = w.extractLsb' 0 12 := by
  unfold decodeOperand2 at h
  cases h25 : w.getLsbD 25 <;> cases h4 : w.getLsbD 4 <;> cases h7 : w.getLsbD 7 <;>
    simp only [h25, h4, h7, Bool.false_eq_true, if_false, Bool.not_false, Bool.not_true, if_true, Except.ok.injEq,
      reduceCtorEq] at h <;>
    subst h <;>
    refine ⟨rfl, BitVec.eq_of_getLsbD_eq fun i hi => ?_⟩ <;>
    simp only [Operand2.bits, BitVec.getLsbD_append, regField, regBits_of_toFin, ShiftType.code_ofCode,
      BitVec.getLsbD_extractLsb', hi, decide_true, Bool.true_and] <;>
    interval_cases i <;> simp_all

/-- The low 28 bits of a variant that `decodeDP` answers are those of the word. -/
theorem bits_decodeDP (chk : CompareRdCheck) (w : Word) (d : Decoded) (hf : w.extractLsb' 26 2 = 0b00#2)
    (h : decodeDP chk w = .ok d) : d.bits = w.extractLsb' 0 28 := by
  unfold decodeDP at h
  simp only at h
  split_ifs at h
  split at h
  · rename_i op2 ho
    obtain ⟨hi, hb⟩ := bits_decodeOperand2 w op2 ho
    injection h with h
    subst h
    have f27 := congrArg (BitVec.getLsbD · 1) hf
    have f26 := congrArg (BitVec.getLsbD · 0) hf
    simp only [BitVec.getLsbD_extractLsb'] at f27 f26
    simp at f27 f26
    refine BitVec.eq_of_getLsbD_eq fun i hi' => ?_
    simp only [Decoded.bits, hi, hb, BitVec.getLsbD_append, regField, regBits_of_toFin, DpOp.code_ofCode,
      BitVec.getLsbD_extractLsb', hi', decide_true, Bool.true_and, BitVec.getLsbD_ofBool]
    interval_cases i <;> simp_all
  · cases h

/-- The low 28 bits of a decoded variant are those of the word: no bit is dropped. -/
theorem bits_decodeVariant (chk : CompareRdCheck) (w : Word) (d : Decoded) (h : decodeVariant chk w = .ok d) :
    d.bits = w.extractLsb' 0 28 := by
  have fld (k n : Nat) (x : BitVec n) (hx : w.extractLsb' k n = x) (j : Nat) (hj : j < n) :
      w.getLsbD (k + j) = x.getLsbD j := by rw [← hx]; simp [hj]
  unfold decodeVariant at h
  split_ifs at h with h1 h2 h3 h4
  · have f27 := fld 25 3 _ h1 2 (by decide)
    have f26 := fld 25 3 _ h1 1 (by decide)
    have f25 := fld 25 3 _ h1 0 (by decide)
    simp at f27 f26 f25
    injection h with h
    subst h
    refine BitVec.eq_of_getLsbD_eq fun i hi => ?_
    unfold decodeBranch
    cases h24 : w.getLsbD 24 <;>
      simp only [Bool.false_eq_true, if_false, if_true, Decoded.bits, BitVec.getLsbD_append,
        BitVec.getLsbD_extractLsb', hi, decide_true, Bool.true_and] <;>
      interval_cases i <;> simp_all
  · injection h with h
    subst h
    refine BitVec.eq_of_getLsbD_eq fun i hi => ?_
    simp only [Decoded.bits, ← h2, BitVec.getLsbD_append, regField, regBits_of_toFin,
        BitVec.getLsbD_extractLsb', hi, decide_true, Bool.true_and]
    interval_cases i <;> simp
  · exact bits_decodeDP chk w d h3 h
  · have f27 := fld 25 3 _ h4 2 (by decide)
    have f26 := fld 25 3 _ h4 1 (by decide)
    have f25 := fld 25 3 _ h4 0 (by decide)
    simp at f27 f26 f25
    injection h with h
    subst h
    refine BitVec.eq_of_getLsbD_eq fun i hi => ?_
    simp only [decodeBDT, Decoded.bits, BitVec.getLsbD_append, regField, regBits_of_toFin,
        BitVec.getLsbD_extractLsb', hi, decide_true, Bool.true_and, BitVec.getLsbD_ofBool]
    interval_cases i <;> simp_all

/-- What `decodeDP` answers is a data-processing variant whose fields R50 admits. -/
theorem decodeDP_ok (chk : CompareRdCheck) (w : Word) (d : Decoded) (h : decodeDP chk w = .ok d) :
    ∃ op rd rn op2 st, d = .dataProcessing op rd rn op2 st ∧ (op.isCompare = true → st = true) ∧
      (op.isMove = true → rn = 0) ∧ (op.isCompare = true → compareRdAccepted chk rd = true) := by
  unfold decodeDP at h
  simp only at h
  split_ifs at h with h1 h2 h3
  split at h
  · rename_i op2 ho
    injection h with h
    exact ⟨_, _, _, op2, _, h.symm, by simp_all, by simp_all, by simp_all⟩
  · cases h

/-- The instruction made from a decoded variant has that variant, and is well formed. -/
theorem variant_ofDecoded (chk : CompareRdCheck) (w : Word) (c : Cond) (d : Decoded) (h : decodeVariant chk w = .ok d) :
    (Instr.ofDecoded c d).variant = d ∧ (Instr.ofDecoded c d).wellFormed chk = true := by
  unfold decodeVariant at h
  split_ifs at h with h1 h2 h3 h4
  · injection h with h; subst h; unfold decodeBranch; split <;> exact ⟨rfl, rfl⟩
  · injection h with h; subst h; exact ⟨rfl, rfl⟩
  · obtain ⟨op, rd, rn, op2, st, rfl, g1, g2, g3⟩ := decodeDP_ok chk w d h
    cases op <;> cases op2 <;>
      simp_all [Instr.ofDecoded, Instr.variant, Instr.wellFormed, DpOp.isCompare, DpOp.isMove]
  · injection h with h; subst h; unfold decodeBDT
    cases w.getLsbD 20 <;> exact ⟨rfl, rfl⟩

/-! ## Fields of a word, for the unrecognized words -/

/-- The compares are opcodes 8 to 11 (30_encoding.md R47). -/
theorem isCompare_ofCode (c : BitVec 4) : (DpOp.ofCode c).isCompare = (c.extractLsb' 2 2 == 0b10#2) := by
  revert c; decide

/-- The moves are opcodes 13 and 15 (30_encoding.md R47). -/
theorem isMove_ofCode (c : BitVec 4) :
    (DpOp.ofCode c).isMove = (c.extractLsb' 2 2 == 0b11#2 && c.getLsbD 0) := by revert c; decide

/-- A register field is a number exactly when its bits are. -/
theorem regField_eq_iff (w : Word) (lo : Nat) (r : Reg) : regField w lo = r ↔ w.extractLsb' lo 4 = BitVec.ofFin r := by
  constructor
  · rintro rfl; rfl
  · intro h; rw [regField, h]

/-- The BX pattern as the spec writes it, with a mask over the whole word (30_encoding.md R45). -/
theorem bxPattern_iff (w : Word) : w.extractLsb' 4 24 = 0x12FFF1#24 ↔ w &&& 0x0FFFFFF0#32 = 0x012FFF10#32 := by
  have hm : ∀ i : Fin 32, (0x0FFFFFF0#32).getLsbD i.val = decide (4 ≤ i.val ∧ i.val < 28) := by decide
  have hp : ∀ i : Fin 24, (0x12FFF1#24).getLsbD i.val = (0x012FFF10#32).getLsbD (4 + i.val) := by decide
  constructor
  · intro h
    apply BitVec.eq_of_getLsbD_eq
    intro i hi
    have hmi := hm ⟨i, hi⟩
    simp only [] at hmi
    rw [BitVec.getLsbD_and, hmi]
    by_cases hr : 4 ≤ i ∧ i < 28
    · have hb := congrArg (BitVec.getLsbD · (i - 4)) h
      simp only [BitVec.getLsbD_extractLsb', show i - 4 < 24 by omega, decide_true, Bool.true_and,
        show 4 + (i - 4) = i by omega] at hb
      have hpi := hp ⟨i - 4, by omega⟩
      simp only [show 4 + (i - 4) = i by omega] at hpi
      rw [hb, hpi, decide_eq_true hr, Bool.and_true]
    · have hz : ∀ i : Fin 32, ¬ (4 ≤ i.val ∧ i.val < 28) → (0x012FFF10#32).getLsbD i.val = false := by decide
      have hzi := hz ⟨i, hi⟩ hr
      simp only [] at hzi
      rw [hzi, decide_eq_false hr, Bool.and_false]
  · intro h
    apply BitVec.eq_of_getLsbD_eq
    intro i hi
    have hb := congrArg (BitVec.getLsbD · (4 + i)) h
    have hmi := hm ⟨4 + i, by omega⟩
    have hpi := hp ⟨i, hi⟩
    simp only [] at hmi hpi
    simp only [BitVec.getLsbD_and, hmi] at hb
    rw [BitVec.getLsbD_extractLsb', hpi]
    rw [show decide (4 ≤ 4 + i ∧ 4 + i < 28) = true from decide_eq_true (by omega), Bool.and_true] at hb
    simpa [hi] using hb

end Sys2Proof
end

