-- ==== Sys2Proof/Laws/DataProcessing.lean ====
section
/-! SUPPORT. What data processing does, said once for all 48 rows: each row is the shared execution on its variant, and the
shared execution's result, flags, frame and end (43_data_processing.md R83-R88). -/

namespace Sys2Proof.Machine

/-- Every data-processing row is the shared execution on its variant. -/
theorem exec_dp (i : Instr) (op : DpOp) (rd rn : Reg) (op2 : Operand2) (st : Bool) (s : State)
    (h : i.variant = .dataProcessing op rd rn op2 st) : exec i s = dataProcessing i.cond op rd rn op2 st s := by
  cases i <;> simp only [Instr.variant, Decoded.dataProcessing.injEq, reduceCtorEq] at h <;>
    obtain ⟨rfl, rfl, rfl, rfl, rfl⟩ := h <;> rfl

/-! ## Operands -/

/-- The operand registers as the prepared state holds them: R15 has advanced in the register-shift form only. -/
theorem reg_dpPrepare (m : Mode) (op2 : Operand2) (r : Reg) (s : State) :
    (dpPrepare op2 s).reg m r = operandReg m op2 r s := by
  unfold dpPrepare operandReg
  cases h : isRegisterShift op2
  · simp
  · simp only [if_true, and_true]
    rw [State.reg_advancePC]
    rfl

theorem cpsr_dpPrepare (op2 : Operand2) (s : State) : (dpPrepare op2 s).cpsr = s.cpsr := by
  unfold dpPrepare; split <;> rfl

theorem shiftOperand_dpPrepare (m : Mode) (op2 : Operand2) (cin : Bool) (s : State) (h : cin = Cpsr.c s.cpsr) :
    shiftOperand op2 cin m (dpPrepare op2 s) = operand2 m op2 s := by
  subst h
  cases op2 <;> simp only [shiftOperand, operand2, reg_dpPrepare]

/-- The ALU result of the shared execution is the one the claims name. -/
theorem dpResult_dpPrepare (m : Mode) (op : DpOp) (rn : Reg) (op2 : Operand2) (s : State) :
    dpResult m op rn op2 (Cpsr.c (dpPrepare op2 s).cpsr) (Cpsr.v (dpPrepare op2 s).cpsr) (dpPrepare op2 s) =
      resultIn m op rn op2 s := by
  unfold dpResult resultIn
  rw [cpsr_dpPrepare, shiftOperand_dpPrepare m op2 _ s rfl, reg_dpPrepare]

/-! ## The written state -/

/-- The state of the shared execution when its register and flags are written, before `dpFinish`. -/
def dpWritten (m : Mode) (op : DpOp) (rd rn : Reg) (op2 : Operand2) (st : Bool) (s : State) : State :=
  dpWrite m op rd st (resultIn m op rn op2 s) (dpPrepare op2 s)

theorem dpBody_eq (op : DpOp) (rd rn : Reg) (op2 : Operand2) (st : Bool) (m : Mode) (s : State) :
    dpBody op rd rn op2 st m s = dpFinish m op rd op2 st (dpWritten m op rd rn op2 st s) := by
  simp only [dpBody, dpResult_dpPrepare, dpWritten]

section Written

variable (m : Mode) (op : DpOp) (rd rn : Reg) (op2 : Operand2) (st : Bool) (s : State)

theorem cpsr_dpWritten : (dpWritten m op rd rn op2 st s).cpsr =
    if st then Cpsr.update s.cpsr op (resultIn m op rn op2 s) else s.cpsr := by
  unfold dpWritten dpWrite dpPrepare
  cases st <;> cases op.isCompare <;> cases isRegisterShift op2 <;> rfl

theorem spsr_dpWritten : (dpWritten m op rd rn op2 st s).spsr = s.spsr := by
  unfold dpWritten dpWrite dpPrepare
  cases st <;> cases op.isCompare <;> cases isRegisterShift op2 <;> rfl

theorem rest_dpWritten : RestKept s (dpWritten m op rd rn op2 st s) := by
  unfold dpWritten dpWrite dpPrepare
  cases st <;> cases op.isCompare <;> cases isRegisterShift op2 <;> exact ⟨rfl, rfl, rfl, rfl, rfl⟩

theorem pipe_dpWritten : PipeKept s (dpWritten m op rd rn op2 st s) := by
  unfold dpWritten dpWrite dpPrepare
  cases st <;> cases op.isCompare <;> cases isRegisterShift op2 <;> exact ⟨rfl, rfl, rfl⟩

theorem nk_dpWritten : (dpWritten m op rd rn op2 st s).nk = s.nk := by
  unfold dpWritten dpWrite dpPrepare
  cases st <;> cases op.isCompare <;> cases isRegisterShift op2 <;> rfl

theorem busIn_dpWritten : (dpWritten m op rd rn op2 st s).busIn = s.busIn := by
  unfold dpWritten dpWrite dpPrepare
  cases st <;> cases op.isCompare <;> cases isRegisterShift op2 <;> rfl

theorem busLog_dpWritten : (dpWritten m op rd rn op2 st s).busLog = s.busLog ++ dpCalls op2 := by
  unfold dpWritten dpWrite dpPrepare dpCalls
  cases st <;> cases op.isCompare <;> cases isRegisterShift op2 <;> first | rfl | exact (List.append_nil _).symm

/-- The registers of the written state: the destination, R15 of the prepared state, and everything else as it was. -/
theorem getSlot_dpWritten (k : Slot) (hk : k ≠ .pc) : (dpWritten m op rd rn op2 st s).getSlot k =
    if op.isCompare = false ∧ k = slot m rd then (resultIn m op rn op2 s).res else s.getSlot k := by
  have hp : (dpPrepare op2 s).getSlot k = s.getSlot k := by
    unfold dpPrepare
    split
    · exact State.getSlot_advancePC _ k hk
    · rfl
  have hw : (dpWritten m op rd rn op2 st s).getSlot k =
      (if op.isCompare then dpPrepare op2 s
        else (dpPrepare op2 s).setReg m rd (resultIn m op rn op2 s).res).getSlot k := by
    unfold dpWritten dpWrite
    cases st <;> rfl
  rw [hw]
  cases op.isCompare
  · simp only [Bool.false_eq_true, if_false, true_and]
    rw [State.setReg_eq, State.getSlot_setSlot, hp]
  · simpa using hp

theorem pc_dpPrepare : (dpPrepare op2 s).pc = if isRegisterShift op2 then s.pc + 4#32 else s.pc := by
  unfold dpPrepare
  split <;> rfl

theorem pc_dpWritten : (dpWritten m op rd rn op2 st s).pc =
    if op.isCompare = false ∧ rd = 15 then (resultIn m op rn op2 s).res
    else if isRegisterShift op2 then s.pc + 4#32 else s.pc := by
  have hw : (dpWritten m op rd rn op2 st s).pc =
      (if op.isCompare then dpPrepare op2 s
        else (dpPrepare op2 s).setReg m rd (resultIn m op rn op2 s).res).pc := by
    unfold dpWritten dpWrite
    cases st <;> rfl
  rw [hw]
  cases op.isCompare
  · simp only [Bool.false_eq_true, if_false, true_and]
    rw [State.pc_setReg, pc_dpPrepare]
  · simpa using pc_dpPrepare op2 s

theorem mode?_dpWritten : (dpWritten m op rd rn op2 st s).mode? = s.mode? := by
  unfold State.mode?
  rw [cpsr_dpWritten]
  split <;> simp

end Written

/-- The flags of the written state (43_data_processing.md R85, R86). -/
theorem flags_update (s t : State) (op : DpOp) (r : AluOut) (h : t.cpsr = Cpsr.update s.cpsr op r)
    (hv : isArithmetic op = false → r.v = Cpsr.v s.cpsr) :
    FlagsWritten s t (r.res.getLsbD 31) (decide (r.res = 0#32)) r.c r.v := by
  constructor
  · simp only [Cpsr.n, h, Cpsr.getLsbD_update, if_true]
  · simp only [Cpsr.z, h, Cpsr.getLsbD_update]
    simp [Bool.beq_eq_decide_eq]
  · simp only [Cpsr.c, h, Cpsr.getLsbD_update]; rfl
  · simp only [Cpsr.v, h, Cpsr.getLsbD_update]
    cases ha : isArithmetic op
    · simp [hv ha, Cpsr.v]
    · simp
  · rw [h, Cpsr.low_update]

/-- A logical operation passes the shifter carry and the old V through. -/
theorem resultIn_logical (m : Mode) (op : DpOp) (rn : Reg) (op2 : Operand2) (s : State) (h : isArithmetic op = false) :
    (resultIn m op rn op2 s).c = (operand2 m op2 s).carry ∧ (resultIn m op rn op2 s).v = Cpsr.v s.cpsr := by
  unfold resultIn
  cases op <;> first | exact ⟨rfl, rfl⟩ | simp [isArithmetic] at h

/-! ## The end -/

/-- A data-processing instruction with a destination other than R15, or a compare without a restore, ends by moving on. -/
theorem dpFinish_moveOn (m : Mode) (op : DpOp) (rd : Reg) (op2 : Operand2) (st : Bool) (s : State) (h : rd ≠ 15) :
    dpFinish m op rd op2 st s = .goOn (dpAdvance op2 { s with nk := .seq }) := by
  simp [dpFinish, h]

/-- With a destination other than R15, the end of the shared execution (43_data_processing.md R88). -/
theorem dpEnd_moveOn (m : Mode) (op : DpOp) (rd rn : Reg) (op2 : Operand2) (st : Bool) (s : State) (h : rd ≠ 15) :
    DpEnd s (dpAdvance op2 { dpWritten m op rd rn op2 st s with nk := .seq }) op2 := by
  have hpc := pc_dpWritten m op rd rn op2 st s
  have hr := rest_dpWritten m op rd rn op2 st s
  have hp := pipe_dpWritten m op rd rn op2 st s
  have hi := busIn_dpWritten m op rd rn op2 st s
  have hl := busLog_dpWritten m op rd rn op2 st s
  simp only [h, and_false, if_false] at hpc
  unfold dpAdvance
  cases hs : isRegisterShift op2 <;> rw [hs] at hpc <;> simp only [Bool.false_eq_true, if_false, if_true] at hpc ⊢
  · refine ⟨?_, rfl, hi, hl, ⟨hp.1, hp.2, hp.3⟩, ⟨hr.1, hr.2, hr.3, hr.4, hr.5⟩⟩
    rw [State.pc_advancePC]
    exact congrArg (· + 4#32) hpc
  · exact ⟨hpc, rfl, hi, hl, ⟨hp.1, hp.2, hp.3⟩, ⟨hr.1, hr.2, hr.3, hr.4, hr.5⟩⟩

theorem getSlot_dpAdvance (op2 : Operand2) (s : State) (q : Seq) (k : Slot) (hk : k ≠ .pc) :
    (dpAdvance op2 { s with nk := q }).getSlot k = s.getSlot k := by
  unfold dpAdvance
  split
  · rfl
  · exact State.getSlot_advancePC _ k hk

theorem cpsr_dpAdvance (op2 : Operand2) (s : State) (q : Seq) : (dpAdvance op2 { s with nk := q }).cpsr = s.cpsr := by
  unfold dpAdvance
  split <;> rfl

/-- The shared execution with a destination other than R15 answers a next state. -/
theorem dataProcessing_moveOn (c : Cond) (m : Mode) (op : DpOp) (rd rn : Reg) (op2 : Operand2) (st : Bool) (s : State)
    (hr : Ready c s m) (h : rd ≠ 15) : dataProcessing c op rd rn op2 st s =
      .next (dpAdvance op2 { dpWritten m op rd rn op2 st s with nk := .seq }) := by
  rw [dataProcessing, conditionally_ready c s m _ hr, dpBody_eq, dpFinish_moveOn _ _ _ _ _ _ h]
  rfl

/-! ## Destination other than R15 -/

section MoveOn

variable (i : Instr) (op : DpOp) (rd rn : Reg) (op2 : Operand2) (st : Bool) (s : State) (m : Mode)

/-- A logical operation that writes its result. -/
theorem exec_logical (hv : i.variant = .dataProcessing op rd rn op2 st) (hr : Ready i.cond s m) (h : rd ≠ 15)
    (hc : op.isCompare = false) (hl : isArithmetic op = false) :
    ∃ t, exec i s = .next t ∧ LogicalDone s t m rd op2 st (resultIn m op rn op2 s).res := by
  refine ⟨_, by rw [exec_dp i op rd rn op2 st s hv, dataProcessing_moveOn _ m _ _ _ _ _ _ hr h], ?_⟩
  have hk : slot m rd ≠ .pc := fun e => h ((slot_eq_pc_iff m rd).mp e)
  have hcp := cpsr_dpWritten m op rd rn op2 st s
  refine ⟨?_, ?_, fun k hk hn => ?_, dpEnd_moveOn m op rd rn op2 st s h⟩
  · rw [State.reg, getSlot_dpAdvance _ _ _ _ hk, getSlot_dpWritten _ _ _ _ _ _ _ _ hk]
    simp [hc]
  · unfold LogicalFlags
    cases st
    · simpa [cpsr_dpAdvance] using hcp
    · have := flags_update s (dpAdvance op2 { dpWritten m op rd rn op2 true s with nk := .seq }) op
        (resultIn m op rn op2 s) (by rw [cpsr_dpAdvance]; simpa using hcp)
        (fun _ => (resultIn_logical m op rn op2 s hl).2)
      rw [(resultIn_logical m op rn op2 s hl).1, (resultIn_logical m op rn op2 s hl).2] at this
      simpa using this
  · rw [getSlot_dpAdvance _ _ _ _ hk, getSlot_dpWritten _ _ _ _ _ _ _ _ hk]
    simp only [hn, and_false, if_false]

/-- An arithmetic operation that writes its result. -/
theorem exec_arith (hv : i.variant = .dataProcessing op rd rn op2 st) (hr : Ready i.cond s m) (h : rd ≠ 15)
    (hc : op.isCompare = false) (hl : isArithmetic op = true) :
    ∃ t, exec i s = .next t ∧ ArithDone s t m rd op2 st (resultIn m op rn op2 s).res (resultIn m op rn op2 s).c
      (resultIn m op rn op2 s).v := by
  refine ⟨_, by rw [exec_dp i op rd rn op2 st s hv, dataProcessing_moveOn _ m _ _ _ _ _ _ hr h], ?_⟩
  have hk : slot m rd ≠ .pc := fun e => h ((slot_eq_pc_iff m rd).mp e)
  have hcp := cpsr_dpWritten m op rd rn op2 st s
  refine ⟨?_, ?_, fun k hk hn => ?_, dpEnd_moveOn m op rd rn op2 st s h⟩
  · rw [State.reg, getSlot_dpAdvance _ _ _ _ hk, getSlot_dpWritten _ _ _ _ _ _ _ _ hk]
    simp [hc]
  · unfold ArithFlags
    cases st
    · simpa [cpsr_dpAdvance] using hcp
    · have := flags_update s (dpAdvance op2 { dpWritten m op rd rn op2 true s with nk := .seq }) op
        (resultIn m op rn op2 s) (by rw [cpsr_dpAdvance]; simpa using hcp) (by simp [hl])
      simpa using this
  · rw [getSlot_dpAdvance _ _ _ _ hk, getSlot_dpWritten _ _ _ _ _ _ _ _ hk]
    simp only [hn, and_false, if_false]

/-- A compare. -/
theorem exec_compare (hv : i.variant = .dataProcessing op rd rn op2 true) (hr : Ready i.cond s m) (h : rd ≠ 15)
    (hc : op.isCompare = true) :
    ∃ t, exec i s = .next t ∧ CompareDone s t op2 ((resultIn m op rn op2 s).res.getLsbD 31)
      (decide ((resultIn m op rn op2 s).res = 0#32)) (resultIn m op rn op2 s).c (resultIn m op rn op2 s).v := by
  refine ⟨_, by rw [exec_dp i op rd rn op2 true s hv, dataProcessing_moveOn _ m _ _ _ _ _ _ hr h], ?_⟩
  have hcp := cpsr_dpWritten m op rd rn op2 true s
  refine ⟨flags_update s _ op (resultIn m op rn op2 s) (by rw [cpsr_dpAdvance]; simpa using hcp)
    (fun hl => (resultIn_logical m op rn op2 s hl).2), fun k hk _ => ?_, dpEnd_moveOn m op rd rn op2 true s h⟩
  rw [getSlot_dpAdvance _ _ _ _ hk, getSlot_dpWritten _ _ _ _ _ _ _ _ hk]
  simp [hc]

end MoveOn

/-! ## Destination R15 -/

section Jump

variable (m : Mode) (op : DpOp) (rn : Reg) (op2 : Operand2) (s : State)

theorem exec_dp_ready (i : Instr) (rd : Reg) (st : Bool) (hv : i.variant = .dataProcessing op rd rn op2 st)
    (hr : Ready i.cond s m) :
    exec i s = .next (dpFinish m op rd op2 st (dpWritten m op rd rn op2 st s)).final := by
  rw [exec_dp i op rd rn op2 st s hv, dataProcessing, conditionally_ready _ s m _ hr, dpBody_eq]

/-- With Rd = 15 no other register is written. -/
theorem getSlot_dpWritten_15 (st : Bool) (k : Slot) (hk : k ≠ .pc) :
    (dpWritten m op 15 rn op2 st s).getSlot k = s.getSlot k := by
  rw [getSlot_dpWritten _ _ _ _ _ _ _ _ hk]
  simp [hk]

/-- The saved word that a restore after the flag update reads: in User and System mode it is the updated CPSR. -/
theorem savedStatus_dpWritten : (dpWritten m op 15 rn op2 true s).savedStatus m =
    if m = .user ∨ m = .system then Cpsr.update s.cpsr op (resultIn m op rn op2 s) else s.savedStatus m := by
  have w := rest_dpWritten m op 15 rn op2 true s
  have hcp := cpsr_dpWritten m op 15 rn op2 true s
  cases m <;> simp [State.savedStatus, w.spsr, hcp]

theorem mode?_savedStatus_dpWritten :
    Cpsr.mode? ((dpWritten m op 15 rn op2 true s).savedStatus m) = Cpsr.mode? (s.savedStatus m) := by
  rw [savedStatus_dpWritten]
  cases m <;> simp [State.savedStatus]

theorem t_savedStatus_dpWritten :
    Cpsr.t ((dpWritten m op 15 rn op2 true s).savedStatus m) = Cpsr.t (s.savedStatus m) := by
  rw [savedStatus_dpWritten]
  cases m <;> simp [State.savedStatus]

theorem cpsrAfterRestore_dpWritten (t : State) (h : t.cpsr = (dpWritten m op 15 rn op2 true s).savedStatus m) :
    CpsrAfterRestore s t m (resultIn m op rn op2 s) := by
  rw [savedStatus_dpWritten] at h
  unfold CpsrAfterRestore
  split
  · rw [if_pos ‹_›] at h
    exact flags_update s t op _ h (fun hl => (resultIn_logical m op rn op2 s hl).2)
  · rwa [if_neg ‹_›] at h

/-- The restore of an instruction with Rd = 15 and S = 1, when the saved mode is valid. -/
theorem restoreStatus_dpWritten (h : (Cpsr.mode? (s.savedStatus m)).isSome = true) :
    restoreStatus m (dpWritten m op 15 rn op2 true s) =
      .goOn { dpWritten m op 15 rn op2 true s with cpsr := (dpWritten m op 15 rn op2 true s).savedStatus m } := by
  rcases restoreStatus_cases m (dpWritten m op 15 rn op2 true s) with ⟨_, _, hrs⟩ | ⟨hn, _⟩
  · exact hrs
  · rw [mode?_savedStatus_dpWritten] at hn
    simp [hn] at h

end Jump

end Sys2Proof.Machine
end

