-- ==== Sys2Proof/Laws/Step.lean ====
section
/-! SUPPORT. What one step can do, said once (40_step_and_conditions.md R56): the equations of a filled and of an empty pipeline, and the
inversion of a step into its gates, its reload, its fetch and what it executes. -/

namespace Sys2Proof.Machine

/-- Every instruction is its body behind the condition check. -/
theorem exec_conditionally (i : Instr) (s : State) : ∃ body, exec i s = conditionally i.cond s body := by
  cases i with
  | b c o => exact ⟨fun _ s => branchTo o s, rfl⟩
  | bl c o => exact ⟨fun m s => branchTo o (s.setReg m 14 (s.pc - 4#32)), rfl⟩
  | bx c rm => exact ⟨fun m s => exchangeTo m rm s, rfl⟩
  | ldm c p u sBit w rn list => exact ⟨fun m s => loadMultiple m p u sBit w rn list s, rfl⟩
  | stm c p u sBit w rn list => exact ⟨fun m s => storeMultiple m p u sBit w rn list s, rfl⟩
  | _ => exact ⟨_, rfl⟩

/-- Every instruction answers a next state. -/
theorem exec_answers (i : Instr) (s : State) : ∃ t, exec i s = .next t := by
  obtain ⟨b, hb⟩ := exec_conditionally i s
  rw [hb]
  rcases conditionally_cases i.cond s b with ⟨_, h⟩ | ⟨_, _, _, h⟩ | ⟨_, _, h⟩ <;> exact ⟨_, h⟩

/-- What follows the fetch of a step (40_step_and_conditions.md R61, R66): exec, or the report of an unrecognized word. -/
def State.execute (s : State) (w : Word) : Host.Outcome State Fault Refusal :=
  match decode s.params.compareRdCheck w with
  | .ok i => exec i s
  | .error _ => .next (s.unrecognized w (s.pc - 8#32))

theorem step_retire (s : State) : step s = match retire s with
    | .error t => .next t
    | .ok (w, u) => u.execute w := rfl

/-- Before the decoder, with a filled pipeline. -/
theorem retire_filled (s : State) (h : StepOpen s) (hv : s.pipeValid = true) (hf : FetchOk s s.pc 4) :
    retire s = .ok (s.pipe0, s.fetched) := by
  simp only [retire, gate_open s h, fillPipeline, hv, if_true, fetchNext_ok s hf]

/-- Before the decoder, with an empty pipeline: the reload, and then as with a filled one. -/
theorem retire_empty (s : State) (h : StepOpen s) (hv : s.pipeValid = false) (hf : FetchOk s s.pc 4) :
    retire s = .ok (s.reloaded.pipe0, s.reloaded.fetched) := by
  have hw : s.codeWidth = 4 := by simp [State.codeWidth, h.2.1]
  have hr := reload_ok s (hw ▸ hf)
  have hf2 : FetchOk s.reloaded s.reloaded.pc 4 := by
    rcases hf with hf | hf
    · left
      rw [State.pc_reloaded, hw, mod_add_width _ 4 (.inr rfl), mod_add_width _ 4 (.inr rfl)]
      exact hf
    · exact .inr hf
  simp only [retire, gate_open s h, fillPipeline, hv, Bool.false_eq_true, if_false, hr, fetchNext_ok _ hf2]

/-- What the stretch before the decoder can do. -/
theorem retire_cases (s : State) :
    (s.status ≠ .running ∧ retire s = .error s) ∨
    (s.status = .running ∧ Cpsr.t s.cpsr = true ∧ retire s = .error (s.stopped (.refused .thumbUnmodelled))) ∨
    (s.status = .running ∧ s.mode? = none ∧ retire s = .error (s.stopped (.fatal .invalidMode))) ∨
    (StepOpen s ∧ s.pipeValid = false ∧ FetchStops s s.pc 4 ∧ retire s = .error (s.stopped (.fault .misalignedFetch))) ∨
    (StepOpen s ∧ s.pipeValid = true ∧ FetchStops s s.pc 4 ∧
      retire s = .error ({ s with pipe0 := s.pipe1 }.stopped (.fault .misalignedFetch))) ∨
    (StepOpen s ∧ s.pipeValid = false ∧ FetchOk s s.pc 4 ∧ retire s = .ok (s.reloaded.pipe0, s.reloaded.fetched)) ∨
    (StepOpen s ∧ s.pipeValid = true ∧ FetchOk s s.pc 4 ∧ retire s = .ok (s.pipe0, s.fetched)) := by
  rcases gate_cases s with ⟨h, hg⟩ | ⟨h, ht, hg⟩ | ⟨h, _, hm, hg⟩ | ⟨h, hg⟩
  · exact .inl ⟨h, by simp [retire, hg]⟩
  · exact .inr (.inl ⟨h, ht, by simp [retire, hg]⟩)
  · exact .inr (.inr (.inl ⟨h, hm, by simp [retire, hg]⟩))
  · have hw : s.codeWidth = 4 := by simp [State.codeWidth, h.2.1]
    rcases fetchOk_or_stops s s.pc 4 with hf | hf <;> cases hv : s.pipeValid
    · exact .inr (.inr (.inr (.inr (.inr (.inl ⟨h, rfl, hf, retire_empty s h hv hf⟩)))))
    · exact .inr (.inr (.inr (.inr (.inr (.inr ⟨h, rfl, hf, retire_filled s h hv hf⟩)))))
    · have hr := reload_stops s (hw ▸ hf)
      exact .inr (.inr (.inr (.inl ⟨h, rfl, hf, by simp [retire, hg, fillPipeline, hv, hr]⟩)))
    · exact .inr (.inr (.inr (.inr (.inl ⟨h, rfl, hf, by simp [retire, hg, fillPipeline, hv, fetchNext_stops s hf]⟩))))

/-- A step with a filled pipeline. -/
theorem step_filled (s : State) (h : StepOpen s) (hv : s.pipeValid = true) (hf : FetchOk s s.pc 4) :
    step s = s.fetched.execute s.pipe0 := by
  rw [step_retire, retire_filled s h hv hf]

/-- A step with an empty pipeline: the reload, and then as with a filled one. -/
theorem step_empty (s : State) (h : StepOpen s) (hv : s.pipeValid = false) (hf : FetchOk s s.pc 4) :
    step s = s.reloaded.fetched.execute s.reloaded.pipe0 := by
  rw [step_retire, retire_empty s h hv hf]

/-- What a step can do. -/
theorem step_cases (s : State) :
    (s.status ≠ .running ∧ step s = .next s) ∨
    (s.status = .running ∧ Cpsr.t s.cpsr = true ∧ step s = .next (s.stopped (.refused .thumbUnmodelled))) ∨
    (s.status = .running ∧ s.mode? = none ∧ step s = .next (s.stopped (.fatal .invalidMode))) ∨
    (StepOpen s ∧ s.pipeValid = false ∧ FetchStops s s.pc 4 ∧ step s = .next (s.stopped (.fault .misalignedFetch))) ∨
    (StepOpen s ∧ s.pipeValid = true ∧ FetchStops s s.pc 4 ∧
      step s = .next ({ s with pipe0 := s.pipe1 }.stopped (.fault .misalignedFetch))) ∨
    (StepOpen s ∧ s.pipeValid = false ∧ FetchOk s s.pc 4 ∧ step s = s.reloaded.fetched.execute s.reloaded.pipe0) ∨
    (StepOpen s ∧ s.pipeValid = true ∧ FetchOk s s.pc 4 ∧ step s = s.fetched.execute s.pipe0) := by
  have e := step_retire s
  rcases retire_cases s with ⟨h, hr⟩ | ⟨h, ht, hr⟩ | ⟨h, hm, hr⟩ | ⟨h, hv, hf, hr⟩ | ⟨h, hv, hf, hr⟩ | ⟨h, hv, hf, hr⟩ |
    ⟨h, hv, hf, hr⟩ <;> rw [hr] at e
  · exact .inl ⟨h, e⟩
  · exact .inr (.inl ⟨h, ht, e⟩)
  · exact .inr (.inr (.inl ⟨h, hm, e⟩))
  · exact .inr (.inr (.inr (.inl ⟨h, hv, hf, e⟩)))
  · exact .inr (.inr (.inr (.inr (.inl ⟨h, hv, hf, e⟩))))
  · exact .inr (.inr (.inr (.inr (.inr (.inl ⟨h, hv, hf, e⟩)))))
  · exact .inr (.inr (.inr (.inr (.inr (.inr ⟨h, hv, hf, e⟩)))))

end Sys2Proof.Machine
end

