-- ==== Sys2Proof/Laws/Evolution.lean ====
section
/-! SUPPORT. What every executor can do to the machine as a whole, said once as a relation that composes (Evolves), with one lemma for
each shared operation; and where R15 can end up (Placed). The claims about every step follow from these. -/

namespace Sys2Proof.Machine

/-- `t` can come out of `s` by operations of an instruction that `s` has begun. -/
structure Evolves (s t : State) : Prop where
  spsr : t.spsr = s.spsr
  params : t.params = s.params
  trace : t.trace = s.trace
  memory : s.mem.wf = true → t.mem.wf = true
  calls : ∃ calls, t.busLog = s.busLog ++ calls ∧ ∀ e ∈ calls, CallAllowed e
  running : t.status = .running → s.status = .running
  mode : t.status = .running → s.mode?.isSome = true → t.mode?.isSome = true
  user : ∀ m, m = .user ∨ m = .system → s.mode? = some m →
    t.mode? = some m ∧ t.cpsr.extractLsb' 6 22 = s.cpsr.extractLsb' 6 22

theorem Evolves.refl (s : State) : Evolves s s :=
  ⟨rfl, rfl, rfl, id, ⟨[], by simp⟩, id, fun _ h => h, fun _ _ h => ⟨h, rfl⟩⟩

theorem Evolves.trans {s t u : State} (h : Evolves s t) (h' : Evolves t u) : Evolves s u where
  spsr := h'.spsr.trans h.spsr
  params := h'.params.trans h.params
  trace := h'.trace.trans h.trace
  memory := h'.memory ∘ h.memory
  calls := by
    obtain ⟨c, hc, ha⟩ := h.calls
    obtain ⟨c', hc', ha'⟩ := h'.calls
    refine ⟨c ++ c', by rw [hc', hc, List.append_assoc], fun e he => ?_⟩
    rcases List.mem_append.mp he with he | he
    · exact ha e he
    · exact ha' e he
  running := h.running ∘ h'.running
  mode hr hm := h'.mode hr (h.mode (h'.running hr) hm)
  user m hm hs := by
    obtain ⟨h1, h2⟩ := h.user m hm hs
    obtain ⟨h3, h4⟩ := h'.user m hm h1
    exact ⟨h3, h4.trans h2⟩

/-- A change of registers, pipeline, NK and the coming answers only. -/
theorem Evolves.of_eq {s t : State} (h1 : t.spsr = s.spsr) (h2 : t.params = s.params) (h3 : t.trace = s.trace)
    (h4 : t.mem = s.mem) (h5 : ∃ calls, t.busLog = s.busLog ++ calls ∧ ∀ e ∈ calls, CallAllowed e)
    (h6 : t.status = s.status) (h7 : t.cpsr = s.cpsr) : Evolves s t where
  spsr := h1
  params := h2
  trace := h3
  memory h := h4 ▸ h
  calls := h5
  running h := h6 ▸ h
  mode _ h := by rw [State.mode?, h7]; exact h
  user m _ h := by rw [State.mode?, h7]; exact ⟨h, rfl⟩

/-- A stop changes the status only. -/
theorem Evolves.stopped (s : State) (x : Status) (h : x ≠ .running) : Evolves s (s.stopped x) :=
  ⟨rfl, rfl, rfl, id, ⟨[], by simp [State.stopped]⟩, fun h' => absurd h' h, fun h' => absurd h' h, fun _ _ h => ⟨h, rfl⟩⟩

theorem Evolves.setReg (s : State) (m : Mode) (i : Reg) (v : Word) : Evolves s (s.setReg m i v) :=
  .of_eq rfl rfl rfl rfl ⟨[], by simp⟩ rfl rfl

theorem Evolves.setPc (s : State) (v : Word) : Evolves s (s.setPc v) := .of_eq rfl rfl rfl rfl ⟨[], by simp⟩ rfl rfl

theorem Evolves.nk (s : State) (q : Seq) : Evolves s { s with nk := q } := .of_eq rfl rfl rfl rfl ⟨[], by simp⟩ rfl rfl

theorem Evolves.busIdle (s : State) : Evolves s s.busIdle :=
  .of_eq rfl rfl rfl rfl ⟨[.idle], rfl, by simp [CallAllowed]⟩ rfl rfl

/-- A status word that keeps its low 28 bits. -/
theorem Evolves.cpsr_low (s : State) (w : Word) (h : w.extractLsb' 0 28 = s.cpsr.extractLsb' 0 28) :
    Evolves s { s with cpsr := w } where
  spsr := rfl
  params := rfl
  trace := rfl
  memory := id
  calls := ⟨[], by simp⟩
  running := id
  mode _ hm := by
    have : Cpsr.mode? w = Cpsr.mode? s.cpsr := by rw [Cpsr.mode?, Cpsr.m_eq_of_low _ _ h]; rfl
    simp only [State.mode?, this]
    exact hm
  user m _ hm := by
    have : Cpsr.mode? w = Cpsr.mode? s.cpsr := by rw [Cpsr.mode?, Cpsr.m_eq_of_low _ _ h]; rfl
    refine ⟨by simp only [State.mode?, this]; exact hm, ?_⟩
    ext j hj
    have := congrArg (BitVec.getLsbD · (6 + j)) h
    simpa [show 6 + j < 28 by omega, hj] using this

/-- Thumb state entered: bit 5 changes, which is below the bits compared and outside the mode field. -/
theorem Evolves.thumb (s : State) : Evolves s { s with cpsr := Cpsr.setThumb s.cpsr } where
  spsr := rfl
  params := rfl
  trace := rfl
  memory := id
  calls := ⟨[], by simp⟩
  running := id
  mode _ hm := by simpa [State.mode?] using hm
  user m _ hm := by
    refine ⟨by simpa [State.mode?] using hm, ?_⟩
    ext j hj
    have h5 : 6 + j ≠ 5 := by omega
    simp only [BitVec.getElem_extractLsb', Cpsr.getLsbD_setThumb, h5, if_false]

/-- A status restore in the current mode (43_data_processing.md R87): in User and System mode it writes CPSR back. -/
theorem Evolves.restore (m : Mode) (s : State) (hm : s.mode? = some m) : Evolves s (restoreStatus m s).final := by
  have huser : ∀ m', m' = .user ∨ m' = .system → s.mode? = some m' → s.savedStatus m = s.cpsr := by
    rintro m' h h'
    rw [hm] at h'
    injection h' with h'
    subst h'
    rcases h with rfl | rfl <;> rfl
  rcases restoreStatus_cases m s with ⟨m', hm', h⟩ | ⟨hn, h⟩ <;> rw [h]
  · refine ⟨rfl, rfl, rfl, id, ⟨[], by simp⟩, id, fun _ _ => ?_, fun m' h1 h2 => ?_⟩
    · simp [State.mode?, hm']
    · have := huser m' h1 h2
      simp only [Flow.final_goOn, State.mode?, this, and_true]
      exact h2
  · refine ⟨rfl, rfl, rfl, id, ⟨[], by simp [State.stopped]⟩, fun h => absurd h (by simp [State.stopped]),
      fun h => absurd h (by simp [State.stopped]), fun m' h1 h2 => ?_⟩
    have := huser m' h1 h2
    rw [this] at hn
    simp [State.mode?, hn] at h2

theorem Evolves.reload (s : State) : Evolves s (reload s).final := by
  rcases reload_cases s with ⟨_, h⟩ | ⟨_, h⟩ <;> rw [h]
  · refine .of_eq rfl rfl rfl rfl ⟨_, State.busLog_reloaded s, ?_⟩ rfl rfl
    intro e he
    simp only [List.mem_cons, List.not_mem_nil, or_false] at he
    rcases he with rfl | rfl <;> (unfold State.codeRead; split <;> simp [CallAllowed, codeKind])
  · exact .stopped _ _ (by simp)

theorem Evolves.fetched (s : State) : Evolves s s.fetched :=
  .of_eq rfl rfl rfl rfl ⟨[_], rfl, by simp [CallAllowed]⟩ rfl rfl

theorem Evolves.andThen {s : State} {x : Flow} {f : State → Flow} (hx : Evolves s x.final)
    (hf : ∀ u, x = .goOn u → Evolves u (f u).final) : Evolves s (x.andThen f).final := by
  cases x with
  | goOn u => exact hx.trans (hf u rfl)
  | halt u => exact hx

/-! ## The executors -/

theorem Evolves.conditionFailed (s : State) : Evolves s s.conditionFailed := (Evolves.setPc s _).trans (.nk _ _)

theorem Evolves.branchTo (o : BitVec 24) (s : State) : Evolves s (branchTo o s).final :=
  (Evolves.setPc s _).trans (.reload _)

theorem Evolves.exchangeTo (m : Mode) (rm : Reg) (s : State) : Evolves s (exchangeTo m rm s).final := by
  unfold Machine.exchangeTo
  simp only
  split
  · exact (Evolves.thumb s).trans ((Evolves.setPc _ _).trans (.reload _))
  · exact (Evolves.setPc s _).trans (.reload _)

theorem Evolves.dpWritten (m : Mode) (op : DpOp) (rd rn : Reg) (op2 : Operand2) (st : Bool) (s : State) :
    Evolves s (dpWritten m op rd rn op2 st s) := by
  have hw := rest_dpWritten m op rd rn op2 st s
  have hc := cpsr_dpWritten m op rd rn op2 st s
  have h1 : Evolves s { s with cpsr := (Machine.dpWritten m op rd rn op2 st s).cpsr } := by
    rw [hc]
    cases st
    · exact .refl s
    · exact .cpsr_low s _ (Cpsr.low_update ..)
  refine h1.trans (.of_eq hw.spsr hw.params hw.trace hw.mem ⟨_, busLog_dpWritten .., ?_⟩ hw.status rfl)
  intro e he
  unfold dpCalls at he
  split at he
  · simp only [List.mem_singleton] at he; subst he; exact trivial
  · simp at he

theorem Evolves.dpAdvance (op2 : Operand2) (s : State) : Evolves s (dpAdvance op2 { s with nk := .seq }) := by
  unfold Machine.dpAdvance
  split
  · exact .nk s _
  · exact (Evolves.nk s _).trans (.setPc _ _)

theorem Evolves.dpBody (op : DpOp) (rd rn : Reg) (op2 : Operand2) (st : Bool) (m : Mode) (s : State)
    (hm : s.mode? = some m) : Evolves s (dpBody op rd rn op2 st m s).final := by
  rw [dpBody_eq]
  refine (Evolves.dpWritten m op rd rn op2 st s).trans (.andThen ?_ fun u _ => ?_)
  · split
    · exact .restore m _ (by rw [mode?_dpWritten]; exact hm)
    · exact .refl _
  · split
    · exact .reload u
    · exact .dpAdvance op2 u

theorem Evolves.loadDone (m bank : Mode) (p u w : Bool) (rn : Reg) (list : BitVec 16) (s : State) :
    Evolves s (loadDone m bank p u w rn list s) := by
  have k := kept_loadDone m bank p u w rn list s
  refine .of_eq k.spsr k.params k.trace (mem_loadDone ..) ⟨_, busLog_loadDone .., ?_⟩ k.status k.cpsr
  intro e he
  simp only [loadCalls, List.mem_map] at he
  obtain ⟨_, _, rfl⟩ := he
  trivial

theorem Evolves.finishLoad (m : Mode) (sBit loadsPc : Bool) (s : State) (hm : s.mode? = some m) :
    Evolves s (finishLoad m sBit loadsPc s).final := by
  unfold Machine.finishLoad
  refine (Evolves.busIdle s).trans ?_
  split
  · refine .andThen ?_ fun u _ => .reload u
    split
    · exact .restore m _ hm
    · exact .refl _
  · exact (Evolves.nk _ _).trans (.setPc _ _)

theorem Evolves.storeDone (m : Mode) (p u sBit w : Bool) (rn : Reg) (list : BitVec 16) (s : State) :
    Evolves s (storeDone m p u sBit w rn list s) := by
  unfold Machine.storeDone
  simp only [storeWalk_eq]
  generalize hx : (StoreContext.mk _ _ _ _ _ _) = x
  have h1 : Evolves s { s with
      mem := storeWords s.params.byteOrder ((listed (effectiveList list)).map fun i => storedValue x i s)
        (startIn m p u rn list s) s.mem
      busLog := s.busLog ++ (listed (effectiveList list)).zipIdx.map fun p' =>
        .writeWord (blockAddr (startIn m p u rn list s) p'.2) (storedValue x p'.1 s) (walkKind .nonSeq p'.2) } := by
    refine ⟨rfl, rfl, rfl, storeWords_wf _ _ _ _, ⟨_, rfl, ?_⟩, id, fun _ h => h, fun _ _ h => ⟨h, rfl⟩⟩
    intro e he
    simp only [List.mem_map] at he
    obtain ⟨_, _, rfl⟩ := he
    rfl
  split
  · exact h1.trans (.setReg _ _ _ _)
  · exact h1

theorem blockCheck_ne_running (load sBit w : Bool) (rn : Reg) (eff : BitVec 16) (a : Word) (p : Params) (x : Status)
    (h : blockCheck load sBit w rn eff a p = some x) : x ≠ .running := by
  unfold blockCheck at h
  rintro rfl
  repeat' split at h
  all_goals simp at h

theorem Evolves.loadMultiple (m : Mode) (p u sBit w : Bool) (rn : Reg) (list : BitVec 16) (s : State)
    (hm : s.mode? = some m) : Evolves s (loadMultiple m p u sBit w rn list s).final := by
  cases h : blockCheck true sBit w rn (effectiveList list) (startIn m p u rn list s) s.params with
  | some x =>
    rw [loadMultiple_stops _ _ _ _ _ _ _ _ _ h]
    exact .stopped s x (blockCheck_ne_running _ _ _ _ _ _ _ _ h)
  | none =>
    rw [loadMultiple_ok _ _ _ _ _ _ _ _ h]
    refine (Evolves.loadDone ..).trans (.finishLoad m sBit _ _ ?_)
    rw [State.mode?, (kept_loadDone ..).cpsr]
    exact hm

theorem Evolves.storeMultiple (m : Mode) (p u sBit w : Bool) (rn : Reg) (list : BitVec 16) (s : State) :
    Evolves s (storeMultiple m p u sBit w rn list s).final := by
  cases h : blockCheck false sBit w rn (effectiveList list) (startIn m p u rn list s) s.params with
  | some x =>
    rw [storeMultiple_stops _ _ _ _ _ _ _ _ _ h]
    exact .stopped s x (blockCheck_ne_running _ _ _ _ _ _ _ _ h)
  | none =>
    rw [storeMultiple_ok _ _ _ _ _ _ _ _ h]
    exact (Evolves.storeDone ..).trans ((Evolves.nk _ _).trans (.setPc _ _))

/-- The three shapes of instruction, each with its executor. -/
theorem exec_shapes (i : Instr) (s : State) (m : Mode) (hr : Ready i.cond s m) :
    (∃ o u, exec i s = .next (branchTo o u).final ∧ (u = s ∨ u = s.setReg m 14 (s.pc - 4#32))) ∨
    (∃ rm, exec i s = .next (exchangeTo m rm s).final) ∨
    (∃ op rd rn op2 st, i.variant = .dataProcessing op rd rn op2 st ∧
      exec i s = .next (dpBody op rd rn op2 st m s).final) ∨
    (∃ p u sBit w rn list, i.variant = .blockDataTransfer true p u sBit w rn list ∧
      exec i s = .next (loadMultiple m p u sBit w rn list s).final) ∨
    (∃ p u sBit w rn list, i.variant = .blockDataTransfer false p u sBit w rn list ∧
      exec i s = .next (storeMultiple m p u sBit w rn list s).final) := by
  have hdp : ∀ op rd rn op2 st, i.variant = .dataProcessing op rd rn op2 st →
      exec i s = .next (dpBody op rd rn op2 st m s).final := by
    intro op rd rn op2 st h
    rw [exec_dp i op rd rn op2 st s h, dataProcessing, conditionally_ready _ s m _ hr]
  cases hv : i.variant with
  | branch o => cases i <;> cases hv; exact .inl ⟨_, s, exec_b _ _ _ _ hr, .inl rfl⟩
  | branchLink o => cases i <;> cases hv; exact .inl ⟨_, _, exec_bl _ _ _ _ hr, .inr rfl⟩
  | branchExchange rm => cases i <;> cases hv; exact .inr (.inl ⟨_, exec_bx _ _ _ _ hr⟩)
  | dataProcessing op rd rn op2 st => exact .inr (.inr (.inl ⟨op, rd, rn, op2, st, rfl, hdp _ _ _ _ _ hv⟩))
  | blockDataTransfer load p u sBit w rn list =>
    cases i <;> cases hv
    · exact .inr (.inr (.inr (.inl ⟨_, _, _, _, _, _, rfl, exec_ldm _ _ _ _ _ _ _ _ _ hr⟩)))
    · exact .inr (.inr (.inr (.inr ⟨_, _, _, _, _, _, rfl, exec_stm _ _ _ _ _ _ _ _ _ hr⟩)))

/-- Every instruction evolves the machine. -/
theorem exec_evolves (i : Instr) (s t : State) (h : exec i s = .next t) : Evolves s t := by
  obtain ⟨b, hb⟩ := exec_conditionally i s
  rw [hb] at h
  rcases conditionally_cases i.cond s b with ⟨_, hc⟩ | ⟨m, _, _, hc⟩ | ⟨m, hr, hc⟩
  · rw [hc] at h; injection h with h; subst h; exact .stopped s _ (by simp)
  · rw [hc] at h; injection h with h; subst h; exact .conditionFailed s
  · rw [← hb] at h
    rcases exec_shapes i s m hr with ⟨o, u, he, hu⟩ | ⟨rm, he⟩ | ⟨op, rd, rn, op2, st, _, he⟩ |
      ⟨p, u, sBit, w, rn, list, _, he⟩ | ⟨p, u, sBit, w, rn, list, _, he⟩ <;>
      (rw [he] at h; injection h with h; subst h)
    · rcases hu with rfl | rfl
      · exact .branchTo o _
      · exact (Evolves.setReg ..).trans (.branchTo o _)
    · exact .exchangeTo m rm s
    · exact .dpBody op rd rn op2 st m s hr.1
    · exact .loadMultiple m p u sBit w rn list s hr.1
    · exact .storeMultiple m p u sBit w rn list s

/-! ## Where R15 ends up -/

/-- R15 is a multiple of 4, under MISALIGNED_FETCH = Fault. -/
def WordPlaced (s : State) : Prop := s.params.misalignedFetch = .fault → s.pc.toNat % 4 = 0

/-- If the core still runs, R15 is a multiple of its state's width, under MISALIGNED_FETCH = Fault. -/
def Placed (s : State) : Prop :=
  s.status = .running → s.params.misalignedFetch = .fault → s.pc.toNat % s.codeWidth = 0

theorem WordPlaced.placed {s : State} (h : WordPlaced s) : Placed s := by
  intro _ hp
  have := h hp
  rcases s.codeWidth_pos with hw | hw <;> rw [hw] <;> omega

theorem WordPlaced.add {s t : State} (h : WordPlaced s) (hpc : t.pc = s.pc + 4#32) (hp : t.params = s.params) :
    WordPlaced t := by
  intro ht
  rw [hpc, mod_add_width _ 4 (.inr rfl)]
  exact h (hp ▸ ht)

theorem Placed.of_stopped (s : State) (h : s.status ≠ .running) : Placed s := fun hr => absurd hr h

theorem Placed.reload (s : State) : Placed (reload s).final := by
  rcases reload_cases s with ⟨hf, h⟩ | ⟨_, h⟩ <;> rw [h]
  · intro _ hp
    simp only [Flow.final_goOn, State.pc_reloaded, State.codeWidth_reloaded]
    rw [mod_add_width _ _ s.codeWidth_pos, mod_add_width _ _ s.codeWidth_pos]
    rcases hf with hf | hf
    · exact hf
    · have hp' : s.params.misalignedFetch = .fault := hp
      rw [hf] at hp'; cases hp'
  · exact .of_stopped _ (by simp [State.stopped])

/-- What a status restore leaves: R15 and the parameters, or a core that has stopped. -/
theorem restoreStatus_leaves (m : Mode) (s : State) :
    (∃ u, restoreStatus m s = .goOn u ∧ u.pc = s.pc ∧ u.params = s.params) ∨
    (∃ u, restoreStatus m s = .halt u ∧ u.status ≠ .running) := by
  rcases restoreStatus_cases m s with ⟨_, _, h⟩ | ⟨_, h⟩
  · exact .inl ⟨_, h, rfl, rfl⟩
  · exact .inr ⟨_, h, by simp [State.stopped]⟩

theorem Placed.dpBody (op : DpOp) (rd rn : Reg) (op2 : Operand2) (st : Bool) (m : Mode) (s : State) (h : WordPlaced s) :
    Placed (dpBody op rd rn op2 st m s).final := by
  rw [dpBody_eq]
  have hpc := pc_dpWritten m op rd rn op2 st s
  have hp := (rest_dpWritten m op rd rn op2 st s).params
  have hx : (∃ u, (if decide (rd = 15) && st then restoreStatus m (Machine.dpWritten m op rd rn op2 st s)
        else .goOn (Machine.dpWritten m op rd rn op2 st s)) = .goOn u ∧
        u.pc = (Machine.dpWritten m op rd rn op2 st s).pc ∧ u.params = s.params) ∨
      (∃ u, (if decide (rd = 15) && st then restoreStatus m (Machine.dpWritten m op rd rn op2 st s)
        else .goOn (Machine.dpWritten m op rd rn op2 st s)) = .halt u ∧ u.status ≠ .running) := by
    split
    · rcases restoreStatus_leaves m (Machine.dpWritten m op rd rn op2 st s) with ⟨u, h1, h2, h3⟩ | h
      · exact .inl ⟨u, h1, h2, h3.trans hp⟩
      · exact .inr h
    · exact .inl ⟨_, rfl, rfl, hp⟩
  rw [dpFinish]
  rcases hx with ⟨u, hu, h1, h2⟩ | ⟨u, hu, h1⟩ <;> rw [hu]
  · rw [Flow.andThen_goOn]
    split
    · exact .reload u
    · rename_i hn
      apply WordPlaced.placed
      have hn' : ¬ (op.isCompare = false ∧ rd = 15) := by
        simpa [and_comm] using hn
      rw [if_neg hn'] at hpc
      refine h.add ?_ ?_
      · show (Machine.dpAdvance op2 { u with nk := .seq }).pc = _
        unfold Machine.dpAdvance
        cases hs : isRegisterShift op2 <;> rw [hs] at hpc
        · exact congrArg (· + 4#32) (h1.trans hpc)
        · exact h1.trans hpc
      · show (Machine.dpAdvance op2 { u with nk := .seq }).params = _
        unfold Machine.dpAdvance
        split <;> exact h2
  · exact .of_stopped _ h1

theorem blockCheck_writeback (load sBit w : Bool) (rn : Reg) (eff : BitVec 16) (a : Word) (p : Params)
    (h : blockCheck load sBit w rn eff a p = none) : w = true → rn ≠ 15 := by
  rintro rfl rfl
  unfold blockCheck at h
  split at h
  · cases h
  · simp at h

theorem Placed.loadMultiple (m : Mode) (p u sBit w : Bool) (rn : Reg) (list : BitVec 16) (s : State) (hs : WordPlaced s) :
    Placed (loadMultiple m p u sBit w rn list s).final := by
  cases h : blockCheck true sBit w rn (effectiveList list) (startIn m p u rn list s) s.params with
  | some x =>
    rw [loadMultiple_stops _ _ _ _ _ _ _ _ _ h]
    exact .of_stopped _ (blockCheck_ne_running _ _ _ _ _ _ _ _ h)
  | none =>
    rw [loadMultiple_ok _ _ _ _ _ _ _ _ h, finishLoad]
    have hpc := pc_loadDone m (transferMode true sBit (effectiveList list) m) p u w rn list s
      (blockCheck_writeback _ _ _ _ _ _ _ h)
    have hk := (kept_loadDone m (transferMode true sBit (effectiveList list) m) p u w rn list s).params
    split
    · generalize (Machine.loadDone m _ p u w rn list s).busIdle = d
      cases sBit
      · exact .reload d
      · rcases restoreStatus_leaves m d with ⟨v, hv, _, _⟩ | ⟨v, hv, hn⟩ <;> simp only [if_true, hv]
        · exact .reload v
        · exact .of_stopped _ hn
    · rename_i hl
      rw [if_neg hl] at hpc
      exact (hs.add (t := ({ (Machine.loadDone m _ p u w rn list s).busIdle with nk := .seq } : State).advancePC)
        (congrArg (· + 4#32) hpc) hk).placed

theorem Placed.storeMultiple (m : Mode) (p u sBit w : Bool) (rn : Reg) (list : BitVec 16) (s : State) (hs : WordPlaced s) :
    Placed (storeMultiple m p u sBit w rn list s).final := by
  cases h : blockCheck false sBit w rn (effectiveList list) (startIn m p u rn list s) s.params with
  | some x =>
    rw [storeMultiple_stops _ _ _ _ _ _ _ _ _ h]
    exact .of_stopped _ (blockCheck_ne_running _ _ _ _ _ _ _ _ h)
  | none =>
    rw [storeMultiple_ok _ _ _ _ _ _ _ _ h]
    have hpc : (Machine.storeDone m p u sBit w rn list s).pc = s.pc := by
      have hw := blockCheck_writeback _ _ _ _ _ _ _ h
      unfold Machine.storeDone
      simp only [storeWalk_eq]
      split
      · rw [State.pc_setReg, if_neg (hw ‹_›)]; rfl
      · rfl
    have hk := (Evolves.storeDone m p u sBit w rn list s).params
    exact (hs.add (t := ({ Machine.storeDone m p u sBit w rn list s with nk := .nonSeq } : State).advancePC)
      (congrArg (· + 4#32) hpc) hk).placed

/-- Every instruction leaves R15 placed. -/
theorem exec_placed (i : Instr) (s t : State) (hs : WordPlaced s) (h : exec i s = .next t) : Placed t := by
  obtain ⟨b, hb⟩ := exec_conditionally i s
  rw [hb] at h
  rcases conditionally_cases i.cond s b with ⟨_, hc⟩ | ⟨m, _, _, hc⟩ | ⟨m, hr, hc⟩
  · rw [hc] at h; injection h with h; subst h; exact .of_stopped _ (by simp [State.stopped])
  · rw [hc] at h; injection h with h; subst h; exact (hs.add (t := s.conditionFailed) rfl rfl).placed
  · rw [← hb] at h
    rcases exec_shapes i s m hr with ⟨o, u, he, _⟩ | ⟨rm, he⟩ | ⟨op, rd, rn, op2, st, _, he⟩ |
      ⟨p, u, sBit, w, rn, list, _, he⟩ | ⟨p, u, sBit, w, rn, list, _, he⟩ <;>
      (rw [he] at h; injection h with h; subst h)
    · exact .reload _
    · unfold exchangeTo
      simp only
      split <;> exact .reload _
    · exact .dpBody op rd rn op2 st m s hs
    · exact .loadMultiple m p u sBit w rn list s hs
    · exact .storeMultiple m p u sBit w rn list s hs

end Sys2Proof.Machine
end

