-- ==== Sys2Proof/Laws/Operands.lean ====
section
/-! SUPPORT. The laws of the operand forms: each shift bit by bit (42_shifter.md R73-R82), and the ALU's adder against exact
integers (43_data_processing.md R84). -/

namespace Sys2Proof.Machine

/-! ## Shifts, bit by bit -/

theorem getLsbD_rotateRight' (x : Word) (n j : Nat) (hj : j < 32) :
    (x.rotateRight n).getLsbD j = x.getLsbD ((j + n) % 32) := by
  rw [BitVec.getLsbD_rotateRight]
  by_cases h : j < 32 - n % 32
  · rw [show (j + n) % 32 = n % 32 + j by omega]; simp [h]
  · rw [show (j + n) % 32 = j - (32 - n % 32) by omega]; simp [h, hj]

theorem getLsbD_lsl (x : Word) (n j : Nat) (hj : j < 32) :
    (x <<< n).getLsbD j = if j < n then false else x.getLsbD (j - n) := by
  rw [BitVec.getLsbD_shiftLeft]
  by_cases h : j < n <;> simp [h, hj]

theorem getLsbD_lsr (x : Word) (n j : Nat) :
    (x >>> n).getLsbD j = if j + n < 32 then x.getLsbD (j + n) else false := by
  rw [BitVec.getLsbD_ushiftRight, Nat.add_comm n j]
  by_cases h : j + n < 32
  · simp [h]
  · simp only [h, if_false]
    exact BitVec.getLsbD_of_ge _ _ (by omega)

theorem getLsbD_asr (x : Word) (n j : Nat) (hj : j < 32) :
    (x.sshiftRight n).getLsbD j = if j + n < 32 then x.getLsbD (j + n) else x.getLsbD 31 := by
  rw [BitVec.getLsbD_sshiftRight, Nat.add_comm n j, BitVec.msb_eq_getLsbD_last]
  simp [show ¬ 32 ≤ j by omega]

theorem getLsbD_signFill (x : Word) (j : Nat) (hj : j < 32) : (signFill x).getLsbD j = x.getLsbD 31 := by
  unfold signFill
  cases x.getLsbD 31
  · simp
  · have : ∀ k : Fin 32, (0xFFFFFFFF#32).getLsbD k.val = true := by decide
    simpa using this ⟨j, hj⟩

theorem getLsbD_rrx (x : Word) (cin : Bool) (j : Nat) (hj : j < 32) :
    (rrx x cin).value.getLsbD j = if j = 31 then cin else x.getLsbD (j + 1) := by
  rw [rrx, BitVec.getLsbD_append]
  by_cases h : j = 31
  · subst h; simp
  · simp [h, show j < 31 by omega, Nat.add_comm]

/-! ## The adder -/

/-- Bit 31 of a word, as a comparison. -/
theorem getLsbD_31 (z : Word) : z.getLsbD 31 = decide (2 ^ 31 ≤ z.toNat) := by
  have := BitVec.msb_eq_decide z
  simpa [BitVec.msb_eq_getLsbD_last] using this

/-- A carry as an integer. -/
theorem bit_eq (b : Bool) : bit b = (b.toNat : Int) := by cases b <;> rfl

theorem toNat_le_one (b : Bool) : b.toNat ≤ 1 := by cases b <;> decide

/-- The overflow of the sign rule is signed overflow of the exact sum. -/
theorem addWithCarry_v (x y : Word) (cin : Bool) :
    (addWithCarry x y cin).v = signedOverflow (x.toInt + y.toInt + bit cin) := by
  have hx := x.isLt
  have hy := y.isLt
  have hc := toNat_le_one cin
  simp only [addWithCarry, signedOverflow, bit_eq, BitVec.toInt_eq_toNat_cond, getLsbD_31, BitVec.toNat_ofNat]
  generalize x.toNat = X at *
  generalize y.toNat = Y at *
  generalize cin.toNat = C at *
  rw [Bool.eq_iff_iff]
  simp only [Bool.and_eq_true, beq_iff_eq, bne_iff_ne, ne_eq, decide_eq_decide, decide_eq_true_eq]
  split <;> split <;> omega

theorem addWithCarry_c (x y : Word) (cin : Bool) :
    (addWithCarry x y cin).c = decide (2 ^ 32 ≤ x.toNat + y.toNat + cin.toNat) := rfl

theorem addWithCarry_res (x y : Word) (cin : Bool) :
    (addWithCarry x y cin).res = x + y + (if cin then 1#32 else 0#32) := by
  apply BitVec.eq_of_toNat_eq
  cases cin <;> simp [addWithCarry, BitVec.toNat_add]

/-- Adding a complement with a carry is subtracting, less the borrow. -/
theorem addWithCarry_not_res (x y : Word) (cin : Bool) :
    (addWithCarry x (~~~y) cin).res = x - y - (if cin then 0#32 else 1#32) := by
  apply BitVec.eq_of_toNat_eq
  cases cin <;> simp [addWithCarry, BitVec.toNat_not, BitVec.toNat_sub] <;> omega

/-- The carry of a subtraction is "no borrow". -/
theorem addWithCarry_not_c (x y : Word) (cin : Bool) :
    (addWithCarry x (~~~y) cin).c = decide (y.toNat + 1 ≤ x.toNat + cin.toNat) := by
  have hy := y.isLt
  simp only [addWithCarry, BitVec.toNat_not, decide_eq_decide]
  omega

theorem addWithCarry_not_v (x y : Word) (cin : Bool) :
    (addWithCarry x (~~~y) cin).v = signedOverflow (x.toInt - y.toInt - 1 + bit cin) := by
  rw [addWithCarry_v]
  congr 1
  have hy := y.isLt
  simp only [BitVec.toInt_eq_toNat_cond, BitVec.toNat_not]
  split <;> split <;> omega

/-- Two words are equal exactly when their difference is 0. -/
theorem sub_eq_zero_iff (x y : Word) : x - y = 0#32 ↔ x = y := by
  constructor
  · intro h
    have := congrArg (· + y) h
    simpa using this
  · rintro rfl; simp

/-- Two words are equal exactly when their exclusive or is 0. -/
theorem xor_eq_zero_iff (x y : Word) : x ^^^ y = 0#32 ↔ x = y := BitVec.xor_eq_zero_iff

end Sys2Proof.Machine
end

