-- ==== Sys2Proof/Laws/PerInstr.lean ====
section
/-! SUPPORT. Laws of the instructions as syntax, one lemma per constructor. -/

namespace Sys2Proof.Laws.Rebuild

/-- An instruction is rebuilt from its condition and its decoder variant: no field is lost between the table's rows and
the five variants of 30_encoding.md R42. -/
def Statement (i : Instr) : Prop := Instr.ofDecoded i.cond i.variant = i

theorem b (cond : Cond) (offset24 : BitVec 24) : Statement (.b cond offset24) := rfl

theorem bl (cond : Cond) (offset24 : BitVec 24) : Statement (.bl cond offset24) := rfl

theorem bx (cond : Cond) (rm : Reg) : Statement (.bx cond rm) := rfl

theorem andImm (cond : Cond) (setFlags : Bool) (rn rd : Reg) (rot : BitVec 4) (imm8 : BitVec 8) : Statement (.andImm cond setFlags rn rd rot imm8) := rfl

theorem andShiftImm (cond : Cond) (setFlags : Bool) (rn rd : Reg) (amount5 : BitVec 5) (ty : ShiftType) (rm : Reg) : Statement (.andShiftImm cond setFlags rn rd amount5 ty rm) := rfl

theorem andShiftReg (cond : Cond) (setFlags : Bool) (rn rd : Reg) (rs : Reg) (ty : ShiftType) (rm : Reg) : Statement (.andShiftReg cond setFlags rn rd rs ty rm) := rfl

theorem eorImm (cond : Cond) (setFlags : Bool) (rn rd : Reg) (rot : BitVec 4) (imm8 : BitVec 8) : Statement (.eorImm cond setFlags rn rd rot imm8) := rfl

theorem eorShiftImm (cond : Cond) (setFlags : Bool) (rn rd : Reg) (amount5 : BitVec 5) (ty : ShiftType) (rm : Reg) : Statement (.eorShiftImm cond setFlags rn rd amount5 ty rm) := rfl

theorem eorShiftReg (cond : Cond) (setFlags : Bool) (rn rd : Reg) (rs : Reg) (ty : ShiftType) (rm : Reg) : Statement (.eorShiftReg cond setFlags rn rd rs ty rm) := rfl

theorem subImm (cond : Cond) (setFlags : Bool) (rn rd : Reg) (rot : BitVec 4) (imm8 : BitVec 8) : Statement (.subImm cond setFlags rn rd rot imm8) := rfl

theorem subShiftImm (cond : Cond) (setFlags : Bool) (rn rd : Reg) (amount5 : BitVec 5) (ty : ShiftType) (rm : Reg) : Statement (.subShiftImm cond setFlags rn rd amount5 ty rm) := rfl

theorem subShiftReg (cond : Cond) (setFlags : Bool) (rn rd : Reg) (rs : Reg) (ty : ShiftType) (rm : Reg) : Statement (.subShiftReg cond setFlags rn rd rs ty rm) := rfl

theorem rsbImm (cond : Cond) (setFlags : Bool) (rn rd : Reg) (rot : BitVec 4) (imm8 : BitVec 8) : Statement (.rsbImm cond setFlags rn rd rot imm8) := rfl

theorem rsbShiftImm (cond : Cond) (setFlags : Bool) (rn rd : Reg) (amount5 : BitVec 5) (ty : ShiftType) (rm : Reg) : Statement (.rsbShiftImm cond setFlags rn rd amount5 ty rm) := rfl

theorem rsbShiftReg (cond : Cond) (setFlags : Bool) (rn rd : Reg) (rs : Reg) (ty : ShiftType) (rm : Reg) : Statement (.rsbShiftReg cond setFlags rn rd rs ty rm) := rfl

theorem addImm (cond : Cond) (setFlags : Bool) (rn rd : Reg) (rot : BitVec 4) (imm8 : BitVec 8) : Statement (.addImm cond setFlags rn rd rot imm8) := rfl

theorem addShiftImm (cond : Cond) (setFlags : Bool) (rn rd : Reg) (amount5 : BitVec 5) (ty : ShiftType) (rm : Reg) : Statement (.addShiftImm cond setFlags rn rd amount5 ty rm) := rfl

theorem addShiftReg (cond : Cond) (setFlags : Bool) (rn rd : Reg) (rs : Reg) (ty : ShiftType) (rm : Reg) : Statement (.addShiftReg cond setFlags rn rd rs ty rm) := rfl

theorem adcImm (cond : Cond) (setFlags : Bool) (rn rd : Reg) (rot : BitVec 4) (imm8 : BitVec 8) : Statement (.adcImm cond setFlags rn rd rot imm8) := rfl

theorem adcShiftImm (cond : Cond) (setFlags : Bool) (rn rd : Reg) (amount5 : BitVec 5) (ty : ShiftType) (rm : Reg) : Statement (.adcShiftImm cond setFlags rn rd amount5 ty rm) := rfl

theorem adcShiftReg (cond : Cond) (setFlags : Bool) (rn rd : Reg) (rs : Reg) (ty : ShiftType) (rm : Reg) : Statement (.adcShiftReg cond setFlags rn rd rs ty rm) := rfl

theorem sbcImm (cond : Cond) (setFlags : Bool) (rn rd : Reg) (rot : BitVec 4) (imm8 : BitVec 8) : Statement (.sbcImm cond setFlags rn rd rot imm8) := rfl

theorem sbcShiftImm (cond : Cond) (setFlags : Bool) (rn rd : Reg) (amount5 : BitVec 5) (ty : ShiftType) (rm : Reg) : Statement (.sbcShiftImm cond setFlags rn rd amount5 ty rm) := rfl

theorem sbcShiftReg (cond : Cond) (setFlags : Bool) (rn rd : Reg) (rs : Reg) (ty : ShiftType) (rm : Reg) : Statement (.sbcShiftReg cond setFlags rn rd rs ty rm) := rfl

theorem rscImm (cond : Cond) (setFlags : Bool) (rn rd : Reg) (rot : BitVec 4) (imm8 : BitVec 8) : Statement (.rscImm cond setFlags rn rd rot imm8) := rfl

theorem rscShiftImm (cond : Cond) (setFlags : Bool) (rn rd : Reg) (amount5 : BitVec 5) (ty : ShiftType) (rm : Reg) : Statement (.rscShiftImm cond setFlags rn rd amount5 ty rm) := rfl

theorem rscShiftReg (cond : Cond) (setFlags : Bool) (rn rd : Reg) (rs : Reg) (ty : ShiftType) (rm : Reg) : Statement (.rscShiftReg cond setFlags rn rd rs ty rm) := rfl

theorem tstImm (cond : Cond) (rn rd : Reg) (rot : BitVec 4) (imm8 : BitVec 8) : Statement (.tstImm cond rn rd rot imm8) := rfl

theorem tstShiftImm (cond : Cond) (rn rd : Reg) (amount5 : BitVec 5) (ty : ShiftType) (rm : Reg) : Statement (.tstShiftImm cond rn rd amount5 ty rm) := rfl

theorem tstShiftReg (cond : Cond) (rn rd : Reg) (rs : Reg) (ty : ShiftType) (rm : Reg) : Statement (.tstShiftReg cond rn rd rs ty rm) := rfl

theorem teqImm (cond : Cond) (rn rd : Reg) (rot : BitVec 4) (imm8 : BitVec 8) : Statement (.teqImm cond rn rd rot imm8) := rfl

theorem teqShiftImm (cond : Cond) (rn rd : Reg) (amount5 : BitVec 5) (ty : ShiftType) (rm : Reg) : Statement (.teqShiftImm cond rn rd amount5 ty rm) := rfl

theorem teqShiftReg (cond : Cond) (rn rd : Reg) (rs : Reg) (ty : ShiftType) (rm : Reg) : Statement (.teqShiftReg cond rn rd rs ty rm) := rfl

theorem cmpImm (cond : Cond) (rn rd : Reg) (rot : BitVec 4) (imm8 : BitVec 8) : Statement (.cmpImm cond rn rd rot imm8) := rfl

theorem cmpShiftImm (cond : Cond) (rn rd : Reg) (amount5 : BitVec 5) (ty : ShiftType) (rm : Reg) : Statement (.cmpShiftImm cond rn rd amount5 ty rm) := rfl

theorem cmpShiftReg (cond : Cond) (rn rd : Reg) (rs : Reg) (ty : ShiftType) (rm : Reg) : Statement (.cmpShiftReg cond rn rd rs ty rm) := rfl

theorem cmnImm (cond : Cond) (rn rd : Reg) (rot : BitVec 4) (imm8 : BitVec 8) : Statement (.cmnImm cond rn rd rot imm8) := rfl

theorem cmnShiftImm (cond : Cond) (rn rd : Reg) (amount5 : BitVec 5) (ty : ShiftType) (rm : Reg) : Statement (.cmnShiftImm cond rn rd amount5 ty rm) := rfl

theorem cmnShiftReg (cond : Cond) (rn rd : Reg) (rs : Reg) (ty : ShiftType) (rm : Reg) : Statement (.cmnShiftReg cond rn rd rs ty rm) := rfl

theorem orrImm (cond : Cond) (setFlags : Bool) (rn rd : Reg) (rot : BitVec 4) (imm8 : BitVec 8) : Statement (.orrImm cond setFlags rn rd rot imm8) := rfl

theorem orrShiftImm (cond : Cond) (setFlags : Bool) (rn rd : Reg) (amount5 : BitVec 5) (ty : ShiftType) (rm : Reg) : Statement (.orrShiftImm cond setFlags rn rd amount5 ty rm) := rfl

theorem orrShiftReg (cond : Cond) (setFlags : Bool) (rn rd : Reg) (rs : Reg) (ty : ShiftType) (rm : Reg) : Statement (.orrShiftReg cond setFlags rn rd rs ty rm) := rfl

theorem movImm (cond : Cond) (setFlags : Bool) (rd : Reg) (rot : BitVec 4) (imm8 : BitVec 8) : Statement (.movImm cond setFlags rd rot imm8) := rfl

theorem movShiftImm (cond : Cond) (setFlags : Bool) (rd : Reg) (amount5 : BitVec 5) (ty : ShiftType) (rm : Reg) : Statement (.movShiftImm cond setFlags rd amount5 ty rm) := rfl

theorem movShiftReg (cond : Cond) (setFlags : Bool) (rd : Reg) (rs : Reg) (ty : ShiftType) (rm : Reg) : Statement (.movShiftReg cond setFlags rd rs ty rm) := rfl

theorem bicImm (cond : Cond) (setFlags : Bool) (rn rd : Reg) (rot : BitVec 4) (imm8 : BitVec 8) : Statement (.bicImm cond setFlags rn rd rot imm8) := rfl

theorem bicShiftImm (cond : Cond) (setFlags : Bool) (rn rd : Reg) (amount5 : BitVec 5) (ty : ShiftType) (rm : Reg) : Statement (.bicShiftImm cond setFlags rn rd amount5 ty rm) := rfl

theorem bicShiftReg (cond : Cond) (setFlags : Bool) (rn rd : Reg) (rs : Reg) (ty : ShiftType) (rm : Reg) : Statement (.bicShiftReg cond setFlags rn rd rs ty rm) := rfl

theorem mvnImm (cond : Cond) (setFlags : Bool) (rd : Reg) (rot : BitVec 4) (imm8 : BitVec 8) : Statement (.mvnImm cond setFlags rd rot imm8) := rfl

theorem mvnShiftImm (cond : Cond) (setFlags : Bool) (rd : Reg) (amount5 : BitVec 5) (ty : ShiftType) (rm : Reg) : Statement (.mvnShiftImm cond setFlags rd amount5 ty rm) := rfl

theorem mvnShiftReg (cond : Cond) (setFlags : Bool) (rd : Reg) (rs : Reg) (ty : ShiftType) (rm : Reg) : Statement (.mvnShiftReg cond setFlags rd rs ty rm) := rfl

theorem ldm (cond : Cond) (p u sBit w : Bool) (rn : Reg) (list : BitVec 16) : Statement (.ldm cond p u sBit w rn list) := rfl

theorem stm (cond : Cond) (p u sBit w : Bool) (rn : Reg) (list : BitVec 16) : Statement (.stm cond p u sBit w rn list) := rfl

end Sys2Proof.Laws.Rebuild
end

