-- ==== Sys2Proof/Laws/Rows.lean ====
section
/-! SUPPORT. What the decoder's fields say in the words of InRow (Safety.lean): the codes of a word by the spec's tables, and the
form of its second operand (30_encoding.md R41, R46-R49). -/

namespace Sys2Proof.Machine

theorem condBits_condField (w : Word) : CondBits w (condField w) := by
  have h : ∀ x : BitVec 4, (x, Cond.ofCode x) ∈ conditionCodes := by decide
  exact h _

theorem shiftType_mem (x : BitVec 2) : (x, ShiftType.ofCode x) ∈ shiftCodes := by revert x; decide

theorem regAt_regField (w : Word) (lo : Nat) : RegAt w lo (regField w lo) := rfl

/-- The three forms of a second operand, by the bits of the word. -/
theorem decodeOperand2_cases (w : Word) (op2 : Operand2) (h : decodeOperand2 w = .ok op2) :
    (∃ rot imm8, op2 = .imm rot imm8 ∧ ImmBits w rot imm8) ∨
    (∃ amount5 ty rm, op2 = .regImm rm ty amount5 ∧ ShiftImmBits w amount5 ty rm) ∨
    (∃ rs ty rm, op2 = .regReg rm ty rs ∧ ShiftRegBits w rs ty rm) := by
  unfold decodeOperand2 at h
  cases h25 : w.getLsbD 25 <;> cases h4 : w.getLsbD 4 <;> cases h7 : w.getLsbD 7 <;>
    simp only [h25, h4, h7, Bool.false_eq_true, if_false, Bool.not_false, Bool.not_true, if_true, Except.ok.injEq,
      reduceCtorEq] at h <;>
    subst h <;>
    first
      | exact .inl ⟨_, _, rfl, h25, rfl, rfl⟩
      | exact .inr (.inl ⟨_, _, _, rfl, h25, h4, rfl, shiftType_mem _, rfl⟩)
      | exact .inr (.inr ⟨_, _, _, rfl, h25, h7, h4, rfl, shiftType_mem _, rfl⟩)

/-- The fields of a data-processing word, by the decoder's own operation and operand. -/
theorem decodeDP_fields (chk : CompareRdCheck) (w : Word) (d : Decoded) (h : decodeDP chk w = .ok d) :
    ∃ op2, decodeOperand2 w = .ok op2 ∧
      d = .dataProcessing (DpOp.ofCode (w.extractLsb' 21 4)) (regField w 12) (regField w 16) op2 (w.getLsbD 20) ∧
      ((DpOp.ofCode (w.extractLsb' 21 4)).isCompare = true → w.getLsbD 20 = true) ∧
      ((DpOp.ofCode (w.extractLsb' 21 4)).isMove = true → regField w 16 = 0) := by
  unfold decodeDP at h
  simp only at h
  split_ifs at h with h1 h2 h3
  split at h
  · rename_i op2 ho
    injection h with h
    exact ⟨op2, ho, h.symm, by simp_all, by simp_all⟩
  · cases h

end Sys2Proof.Machine
end

