-- ==== Sys2Proof/Laws/Run.lean ====
section
/-! SUPPORT. What a step does before it executes its word, said once for a filled and for an empty pipeline, and the equations of a run
(40_step_and_conditions.md R56-R60, 70_reset_and_hazards.md R137). -/

namespace Sys2Proof.Machine

/-- What a step has done when it hands its word to the decoder: the reads, the pipeline and R15, nothing else. -/
structure Retired (s u : State) : Prop where
  pc : u.pc = s.nextAddress + 8#32
  regs : RegsKept s u fun _ => False
  filled : s.pipeValid = true → u.regs = s.regs
  cpsr : u.cpsr = s.cpsr
  rest : RestKept s u
  pipeValid : u.pipeValid = true
  busIn : u.busIn = s.busIn.drop s.stepReads.length
  busLog : u.busLog = s.busLog ++ s.stepReads

/-- A step whose gates are open and whose fetches do not stop takes the word at the next address. -/
theorem retire_open (s : State) (h : StepOpen s) (hf : FetchOk s s.pc 4) :
    ∃ u, retire s = .ok (s.nextWord, u) ∧ Retired s u := by
  cases hv : s.pipeValid
  · have hp : s.reloaded.pipe0 = s.nextWord := by
      have ra := reloadedArm_reloaded s s 0 [] s.pc h.2.1 rfl rfl (by simp) rfl rfl
      rw [ra.pipe0, State.nextWord, hv]; rfl
    have ra := reloadedArm_reloaded s s 0 [] s.pc h.2.1 rfl rfl (by simp) rfl rfl
    refine ⟨s.reloaded.fetched, by rw [retire_empty s h hv hf, hp], ?_, ?_, by simp [hv], rfl, ⟨rfl, rfl, rfl, rfl, rfl⟩,
      rfl, ?_, ?_⟩
    · rw [State.nextAddress, hv]; exact ra.pc
    · intro k hk _; exact State.getSlot_reloaded s k hk
    · show s.reloaded.busIn.tail = _
      rw [ra.busIn]; simp [State.stepReads, hv]
    · show s.reloaded.busLog ++ [.readWord s.reloaded.pc (codeKind s.reloaded.nk)] = _
      rw [ra.busLog, ra.pc]; simp [State.stepReads, hv, codeKind]
  · refine ⟨s.fetched, by rw [retire_filled s h hv hf, State.nextWord, hv]; rfl, ?_, fun _ _ _ => rfl, fun _ => rfl, rfl,
      ⟨rfl, rfl, rfl, rfl, rfl⟩, hv, ?_, ?_⟩
    · show s.pc = _
      rw [State.nextAddress, hv]; simp
    · show s.busIn.tail = _
      simp [State.stepReads, hv]
    · show s.busLog ++ _ = _
      simp [State.stepReads, hv, codeKind]

/-- A step that does not get so far ends with the status not Running. -/
theorem retire_error (s t : State) (h : retire s = .error t) : t.status ≠ .running := by
  rcases retire_cases s with ⟨h1, e⟩ | ⟨_, _, e⟩ | ⟨_, _, e⟩ | ⟨_, _, _, e⟩ | ⟨_, _, _, e⟩ | ⟨_, _, _, e⟩ | ⟨_, _, _, e⟩ <;>
    rw [e] at h <;> cases h <;> first | exact h1 | simp [State.stopped]

/-- The gates are open and no fetch stops a step that gets so far. -/
theorem retire_ok (s : State) (w : Word) (u : State) (h : retire s = .ok (w, u)) : StepOpen s ∧ FetchOk s s.pc 4 := by
  rcases retire_cases s with ⟨_, e⟩ | ⟨_, _, e⟩ | ⟨_, _, e⟩ | ⟨_, _, _, e⟩ | ⟨_, _, _, e⟩ | ⟨h1, _, h2, _⟩ | ⟨h1, _, h2, _⟩
  all_goals first | exact ⟨h1, h2⟩ | (rw [e] at h; cases h)

/-- A branch displacement of -8 is offset24 = -2. -/
theorem branchDisplacement_self (a : Word) (o : BitVec 24) :
    a + branchDisplacement o = a - 8#32 ↔ o = 0xFFFFFE#24 := by
  have h8 : a - 8#32 = a + branchDisplacement 0xFFFFFE#24 := by
    rw [show branchDisplacement 0xFFFFFE#24 = -8#32 by decide]; exact BitVec.sub_eq_add_neg a 8#32
  rw [h8, BitVec.add_right_inj]
  refine ⟨fun h => BitVec.eq_of_getLsbD_eq fun i hi => ?_, fun h => by rw [h]⟩
  have hb := congrArg (BitVec.getLsbD · (i + 2)) h
  simp only [branchDisplacement, BitVec.getLsbD_signExtend, BitVec.getLsbD_append] at hb
  simpa [show i + 2 < 32 by omega, show i + 2 < 26 by omega] using hb

/-- The instruction that branches to its own address is `B .`. -/
theorem branchesTo_self (i : Instr) (u : State) : branchesTo i u (u.pc - 8#32) = true ↔ ∃ c, i = .b c 0xFFFFFE#24 := by
  cases i with
  | b c o => simp [branchesTo, Instr.variant, branchDisplacement_self]
  | _ => simp [branchesTo, Instr.variant]

/-- The model's test of the normal end is the predicate of the statements. -/
theorem executesSelfBranch_iff (s : State) : executesSelfBranch s = true ↔ AtSelfBranch s := by
  unfold executesSelfBranch
  constructor
  · intro h
    cases hr : retire s with
    | error t => simp [hr] at h
    | ok x =>
      obtain ⟨w, u⟩ := x
      obtain ⟨ho, hf⟩ := retire_ok s w u hr
      obtain ⟨u', hr', d⟩ := retire_open s ho hf
      rw [hr'] at hr h
      simp only [d.rest.params, d.cpsr] at h
      cases hd : decode s.params.compareRdCheck s.nextWord with
      | error e => simp [hd] at h
      | ok i =>
        simp only [hd, Bool.and_eq_true] at h
        obtain ⟨c, rfl⟩ := (branchesTo_self i u').mp h.2
        exact ⟨ho, hf, c, hd, h.1⟩
  · rintro ⟨ho, hf, c, hd, hc⟩
    obtain ⟨u, hr, d⟩ := retire_open s ho hf
    simp only [hr, d.rest.params, d.cpsr, hd, Bool.and_eq_true]
    exact ⟨hc, (branchesTo_self _ u).mpr ⟨c, rfl⟩⟩

/-- One step of a run. -/
theorem run_succ (fuel : Nat) (s t : State) (h : step s = .next t) : run (fuel + 1) s =
    if t.status ≠ .running then (.stopped, t) else if executesSelfBranch s then (.normal, t) else run fuel t := by
  simp only [run, h]

end Sys2Proof.Machine
end

