-- ==== Sys2Proof/Tests/Slice0.lean ====
section
/-! SUPPORT. Tests. Every expected result is from spec/: words written out from the rows of spec/opcode_table.json (30_encoding.md
R40-R51), step vectors of 95_test_vectors.md (named in each comment), and one witness for the hypotheses of each statement. -/

namespace Sys2Proof.Tests

open Sys2Proof.Machine

/-! ## WellFormed: the one ill-formed shape of each compare (30_encoding.md R50 (3)) -/

theorem test_ill_formed_tst :
    (Instr.tstImm .always 1 3 0#4 0#8).wellFormed .zeroOrFifteen = false ∧
    (Instr.tstShiftImm .always 1 14 0#5 .lsl 2).wellFormed .zeroOrFifteen = false ∧
    (Instr.tstShiftReg .always 1 1 2 .lsl 3).wellFormed .zeroOrFifteen = false := by decide

theorem test_ill_formed_teq :
    (Instr.teqImm .always 1 3 0#4 0#8).wellFormed .zeroOrFifteen = false ∧
    (Instr.teqShiftImm .always 1 14 0#5 .lsl 2).wellFormed .zeroOrFifteen = false ∧
    (Instr.teqShiftReg .always 1 1 2 .lsl 3).wellFormed .zeroOrFifteen = false := by decide

theorem test_ill_formed_cmp :
    (Instr.cmpImm .always 1 3 0#4 0#8).wellFormed .zeroOrFifteen = false ∧
    (Instr.cmpShiftImm .always 1 14 0#5 .lsl 2).wellFormed .zeroOrFifteen = false ∧
    (Instr.cmpShiftReg .always 1 1 2 .lsl 3).wellFormed .zeroOrFifteen = false := by decide

theorem test_ill_formed_cmn :
    (Instr.cmnImm .always 1 3 0#4 0#8).wellFormed .zeroOrFifteen = false ∧
    (Instr.cmnShiftImm .always 1 14 0#5 .lsl 2).wellFormed .zeroOrFifteen = false ∧
    (Instr.cmnShiftReg .always 1 1 2 .lsl 3).wellFormed .zeroOrFifteen = false := by decide

theorem test_well_formed :
    (Instr.cmpImm .always 1 15 0#4 0#8).wellFormed .zeroOrFifteen = true ∧
    (Instr.cmpImm .always 1 0 0#4 0#8).wellFormed .zeroOrFifteen = true ∧
    (Instr.cmpImm .always 1 3 0#4 0#8).wellFormed .any = true := by decide

/-! ## Decoding: a word for every row of the table, each field at a value of its own -/

theorem test_decode_b :
    decode .any 0x0A135791#32 = .ok (.b .equal 0x135791#24) := by decide

theorem test_decode_bl :
    decode .any 0x1B8ACE13#32 = .ok (.bl .notEqual 0x8ACE13#24) := by decide

theorem test_decode_bx :
    decode .any 0x212FFF17#32 = .ok (.bx .carrySet 7) := by decide

theorem test_decode_and :
    decode .any 0x32195270#32 = .ok (.andImm .carryClear true 9 5 2#4 0x70#8) ∧
    decode .any 0x400639CA#32 = .ok (.andShiftImm .minus false 6 3 19#5 .asr 10) ∧
    decode .any 0x5019CD51#32 = .ok (.andShiftReg .plus true 9 12 13 .asr 1) := by decide

theorem test_decode_eor :
    decode .any 0x6226EDC3#32 = .ok (.eorImm .overflow false 6 14 13#4 0xC3#8) ∧
    decode .any 0x703954E2#32 = .ok (.eorShiftImm .noOverflow true 9 5 9#5 .ror 2) ∧
    decode .any 0x8026347A#32 = .ok (.eorShiftReg .unsignedHigher false 6 3 4 .ror 10) := by decide

theorem test_decode_sub :
    decode .any 0x9259C41E#32 = .ok (.subImm .unsignedLowerOrSame true 9 12 4#4 0x1E#8) ∧
    decode .any 0xA046EC07#32 = .ok (.subShiftImm .greaterOrEqual false 6 14 24#5 .lsl 7) ∧
    decode .any 0xB0595812#32 = .ok (.subShiftReg .lessThan true 9 5 8 .lsl 2) := by decide

theorem test_decode_rsb :
    decode .any 0xC2663BA5#32 = .ok (.rsbImm .greaterThan false 6 3 11#4 0xA5#8) ∧
    decode .any 0xD079C321#32 = .ok (.rsbShiftImm .lessOrEqual true 9 12 6#5 .lsr 1) ∧
    decode .any 0xE066EB37#32 = .ok (.rsbShiftReg .always false 6 14 11 .lsr 7) := by decide

theorem test_decode_add :
    decode .any 0xF2995270#32 = .ok (.addImm .never true 9 5 2#4 0x70#8) ∧
    decode .any 0x008639CA#32 = .ok (.addShiftImm .equal false 6 3 19#5 .asr 10) ∧
    decode .any 0x1099CD51#32 = .ok (.addShiftReg .notEqual true 9 12 13 .asr 1) := by decide

theorem test_decode_adc :
    decode .any 0x22A6EDC3#32 = .ok (.adcImm .carrySet false 6 14 13#4 0xC3#8) ∧
    decode .any 0x30B954E2#32 = .ok (.adcShiftImm .carryClear true 9 5 9#5 .ror 2) ∧
    decode .any 0x40A6347A#32 = .ok (.adcShiftReg .minus false 6 3 4 .ror 10) := by decide

theorem test_decode_sbc :
    decode .any 0x52D9C41E#32 = .ok (.sbcImm .plus true 9 12 4#4 0x1E#8) ∧
    decode .any 0x60C6EC07#32 = .ok (.sbcShiftImm .overflow false 6 14 24#5 .lsl 7) ∧
    decode .any 0x70D95812#32 = .ok (.sbcShiftReg .noOverflow true 9 5 8 .lsl 2) := by decide

theorem test_decode_rsc :
    decode .any 0x82E63BA5#32 = .ok (.rscImm .unsignedHigher false 6 3 11#4 0xA5#8) ∧
    decode .any 0x90F9C321#32 = .ok (.rscShiftImm .unsignedLowerOrSame true 9 12 6#5 .lsr 1) ∧
    decode .any 0xA0E6EB37#32 = .ok (.rscShiftReg .greaterOrEqual false 6 14 11 .lsr 7) := by decide

theorem test_decode_tst :
    decode .any 0xB3195270#32 = .ok (.tstImm .lessThan 9 5 2#4 0x70#8) ∧
    decode .any 0xC11639CA#32 = .ok (.tstShiftImm .greaterThan 6 3 19#5 .asr 10) ∧
    decode .any 0xD119CD51#32 = .ok (.tstShiftReg .lessOrEqual 9 12 13 .asr 1) := by decide

theorem test_decode_teq :
    decode .any 0xE336EDC3#32 = .ok (.teqImm .always 6 14 13#4 0xC3#8) ∧
    decode .any 0xF13954E2#32 = .ok (.teqShiftImm .never 9 5 9#5 .ror 2) ∧
    decode .any 0x0136347A#32 = .ok (.teqShiftReg .equal 6 3 4 .ror 10) := by decide

theorem test_decode_cmp :
    decode .any 0x1359C41E#32 = .ok (.cmpImm .notEqual 9 12 4#4 0x1E#8) ∧
    decode .any 0x2156EC07#32 = .ok (.cmpShiftImm .carrySet 6 14 24#5 .lsl 7) ∧
    decode .any 0x31595812#32 = .ok (.cmpShiftReg .carryClear 9 5 8 .lsl 2) := by decide

theorem test_decode_cmn :
    decode .any 0x43763BA5#32 = .ok (.cmnImm .minus 6 3 11#4 0xA5#8) ∧
    decode .any 0x5179C321#32 = .ok (.cmnShiftImm .plus 9 12 6#5 .lsr 1) ∧
    decode .any 0x6176EB37#32 = .ok (.cmnShiftReg .overflow 6 14 11 .lsr 7) := by decide

theorem test_decode_orr :
    decode .any 0x73995270#32 = .ok (.orrImm .noOverflow true 9 5 2#4 0x70#8) ∧
    decode .any 0x818639CA#32 = .ok (.orrShiftImm .unsignedHigher false 6 3 19#5 .asr 10) ∧
    decode .any 0x9199CD51#32 = .ok (.orrShiftReg .unsignedLowerOrSame true 9 12 13 .asr 1) := by decide

theorem test_decode_mov :
    decode .any 0xA3A0EDC3#32 = .ok (.movImm .greaterOrEqual false 14 13#4 0xC3#8) ∧
    decode .any 0xB1B054E2#32 = .ok (.movShiftImm .lessThan true 5 9#5 .ror 2) ∧
    decode .any 0xC1A0347A#32 = .ok (.movShiftReg .greaterThan false 3 4 .ror 10) := by decide

theorem test_decode_bic :
    decode .any 0xD3D9C41E#32 = .ok (.bicImm .lessOrEqual true 9 12 4#4 0x1E#8) ∧
    decode .any 0xE1C6EC07#32 = .ok (.bicShiftImm .always false 6 14 24#5 .lsl 7) ∧
    decode .any 0xF1D95812#32 = .ok (.bicShiftReg .never true 9 5 8 .lsl 2) := by decide

theorem test_decode_mvn :
    decode .any 0x03E03BA5#32 = .ok (.mvnImm .equal false 3 11#4 0xA5#8) ∧
    decode .any 0x11F0C321#32 = .ok (.mvnShiftImm .notEqual true 12 6#5 .lsr 1) ∧
    decode .any 0x21E0EB37#32 = .ok (.mvnShiftReg .carrySet false 14 11 .lsr 7) := by decide

theorem test_decode_ldm :
    decode .any 0x39398C31#32 = .ok (.ldm .carryClear true false false true 9 0x8C31#16) := by decide

theorem test_decode_stm :
    decode .any 0x48C64A06#32 = .ok (.stm .minus false true true false 6 0x4A06#16) := by decide

/-- Words the decoder refuses, by name (95_test_vectors.md section 4.4, 30_encoding.md R52). -/
theorem test_decode_refuses :
    decode .any 0xE1A20001#32 = .error .moveWithRn ∧ decode .any 0xE10F0000#32 = .error .compareWithoutS ∧
    decode .any 0xE0000291#32 = .error .bits4And7 ∧ decode .zeroOrFifteen 0xE3513000#32 = .error .compareRd ∧
    decode .any 0xE5910000#32 = .error .noFamily ∧ decode .any 0xEF000000#32 = .error .noFamily := by decide

/-- The host's view of the decoder. -/
theorem test_decodeTableWord :
    decodeTableWord 32 0xEA000002 = some (.b .always 2#24) ∧ decodeTableWord 32 0xE1A20001 = none := by decide

/-! ## One step from the launch state of 95_test_vectors.md section 0 -/

/-- A state as section 0 launches it: the word `w` at 0x1000 in the decode slot, R15 = 0x1008. -/
def launch (w cpsr : Word) (regs : List (Slot × Word)) : State :=
  regs.foldl (fun s r => s.setSlot r.1 r.2) { State.reset with
    pipe0 := w, pipe1 := 0xE1A00000#32, pipeValid := true, nk := .seq, cpsr := cpsr
    regs := { RegFile.zero with pc := 0x1008#32 } }

/-- The same with words in memory. -/
def withWords (s : State) (ws : List (Word × Word)) : State :=
  { s with mem := ws.foldl (fun m x => m.writeWord .little x.1 x.2) s.mem }

/-- A check of the next state. -/
def nextIs (o : Host.Outcome State Fault Refusal) (f : State → Bool) : Bool :=
  match o with
  | .next t => f t
  | .fault _ | .refused _ => false

/-- V-E2E, from reset. -/
theorem test_first_step : nextIs (step (State.reset.withFetchWord 32 0xEA000002)) (fun t =>
    t.pc == 0x18#32 && t.busLog.length == 5 && t.cpsr == 0xD3#32 && t.nk == .seq) = true := by decide

/-- V-DP-AND2. -/
theorem test_step_and : nextIs (step (launch 0xE0110082#32 0x100000D3#32 [(.low 1, 1#32), (.low 2, 0x80000000#32)])) (fun t =>
    t.getSlot (.low 0) == 0#32 && t.cpsr == 0x700000D3#32) = true := by decide

/-- V-DP-EOR1. -/
theorem test_step_eor : nextIs (step (launch 0xE0310002#32 0x200000D3#32 [(.low 1, 0xFFFF0000#32), (.low 2, 0xFFFF0000#32)])) (fun t =>
    t.getSlot (.low 0) == 0#32 && t.cpsr == 0x600000D3#32) = true := by decide

/-- V-DP-SUB2. -/
theorem test_step_sub : nextIs (step (launch 0xE0510002#32 0xD3#32 [(.low 1, 3#32), (.low 2, 5#32)])) (fun t =>
    t.getSlot (.low 0) == 0xFFFFFFFE#32 && t.cpsr == 0x800000D3#32) = true := by decide

/-- V-DP-RSB2. -/
theorem test_step_rsb : nextIs (step (launch 0xE2710000#32 0xD3#32 [(.low 1, 0x80000000#32)])) (fun t =>
    t.getSlot (.low 0) == 0x80000000#32 && t.cpsr == 0x900000D3#32) = true := by decide

/-- V-DP-ADD3. -/
theorem test_step_add : nextIs (step (launch 0xE0910002#32 0xD3#32 [(.low 1, 0x80000000#32), (.low 2, 0x80000000#32)])) (fun t =>
    t.getSlot (.low 0) == 0#32 && t.cpsr == 0x700000D3#32) = true := by decide

/-- V-DP-ADC1. -/
theorem test_step_adc : nextIs (step (launch 0xE0B10002#32 0x200000D3#32 [(.low 1, 0xFFFFFFFF#32)])) (fun t =>
    t.getSlot (.low 0) == 0#32 && t.cpsr == 0x600000D3#32) = true := by decide

/-- V-DP-TST1. -/
theorem test_step_tst : nextIs (step (launch 0xE3110102#32 0xD3#32 [(.low 0, 0x1234#32), (.low 1, 0x7FFFFFFF#32)])) (fun t =>
    t.getSlot (.low 0) == 0x1234#32 && t.cpsr == 0x600000D3#32) = true := by decide

/-- V-DP-TEQ1. -/
theorem test_step_teq : nextIs (step (launch 0xE1310001#32 0xB00000D3#32 [(.low 1, 0x80000000#32)])) (fun t =>
    t.getSlot (.low 0) == 0#32 && t.cpsr == 0x700000D3#32) = true := by decide

/-- V-DP-CMP2. -/
theorem test_step_cmp : nextIs (step (launch 0xE3510005#32 0xD3#32 [(.low 1, 4#32)])) (fun t =>
    t.getSlot (.low 0) == 0#32 && t.cpsr == 0x800000D3#32) = true := by decide

/-- V-DP-CMN1. -/
theorem test_step_cmn : nextIs (step (launch 0xE3710001#32 0xD3#32 [(.low 1, 0xFFFFFFFF#32)])) (fun t =>
    t.cpsr == 0x600000D3#32) = true := by decide

/-- V-DP-ORR1. -/
theorem test_step_orr : nextIs (step (launch 0xE1910002#32 0xD3#32 [(.low 1, 0x0F#32), (.low 2, 0xF0#32)])) (fun t =>
    t.getSlot (.low 0) == 0xFF#32 && t.cpsr == 0xD3#32) = true := by decide

/-- V-DP-BIC1. -/
theorem test_step_bic : nextIs (step (launch 0xE3D1000F#32 0xD3#32 [(.low 1, 0xF#32)])) (fun t =>
    t.getSlot (.low 0) == 0#32 && t.cpsr == 0x400000D3#32) = true := by decide

/-- V-DP-MVN1. -/
theorem test_step_mvn : nextIs (step (launch 0xE3F00000#32 0xD3#32 [])) (fun t =>
    t.getSlot (.low 0) == 0xFFFFFFFF#32 && t.cpsr == 0x800000D3#32) = true := by decide

/-- V-SH-X0b. -/
theorem test_step_mov_rrx : nextIs (step (launch 0xE1B00061#32 0x200000D3#32 [(.low 1, 0x80000001#32)])) (fun t =>
    t.getSlot (.low 0) == 0xC0000000#32 && Cpsr.c t.cpsr) = true := by decide

/-- V-SH-RS15: R15 as the shift amount reads A + 12. -/
theorem test_step_mov_by_r15 : nextIs (step (launch 0xE1A00F11#32 0xD3#32 [(.low 1, 1#32)])) (fun t =>
    t.getSlot (.low 0) == 0x1000#32 && t.pc == 0x100C#32 && t.busLog.length == 2) = true := by decide

/-- V-DP-RD3: the return from IRQ. -/
theorem test_step_return : nextIs (step ({ launch 0xE1B0F00E#32 0xD2#32 [(.irq 1, 0x2000#32)] with
    spsr := ⟨0#32, 0#32, 0#32, 0x60000010#32, 0#32⟩ })) (fun t =>
    t.cpsr == 0x60000010#32 && t.pc == 0x2008#32 && t.getSlot (.irq 1) == 0x2000#32 && t.reg .user 14 == 0#32) = true := by decide

/-- V-BR-7. -/
theorem test_step_bl : nextIs (step (launch 0xEBFFFFFE#32 0xD1#32 [(.fiq 6, 0x77#32)])) (fun t =>
    t.getSlot (.fiq 6) == 0x1004#32 && t.getSlot (.usr 6) == 0#32 && t.pc == 0x1008#32) = true := by decide

/-- V-BR-14: to Thumb state at the top of memory. -/
theorem test_step_bx : nextIs (step (launch 0xE12FFF1E#32 0xD3#32 [(.svc 1, 0xFFFFFFFF#32)])) (fun t =>
    t.cpsr == 0xF3#32 && t.pc == 2#32 && t.busLog.getLast? == some (.readHalfWord 0#32 ⟨.code, .seq⟩)) = true := by decide

/-- V-BDT-1. -/
theorem test_step_ldm : nextIs (step (withWords (launch 0xE8BD8003#32 0xD3#32 [(.svc 0, 0x2FF4#32)])
    [(0x2FF4#32, 0x11#32), (0x2FF8#32, 0x22#32), (0x2FFC#32, 0x2000#32)])) (fun t =>
    t.getSlot (.low 0) == 0x11#32 && t.getSlot (.low 1) == 0x22#32 && t.getSlot (.svc 0) == 0x3000#32 &&
    t.pc == 0x2008#32 && t.busLog.length == 7) = true := by decide

/-- V-DOC-STMALIAS, the base not lowest. -/
theorem test_step_stm : nextIs (step (launch 0xE8A10003#32 0xD3#32 [(.low 0, 0x66#32), (.low 1, 0x100#32)])) (fun t =>
    t.mem.readWord .little 0x100#32 == 0x66#32 && t.mem.readWord .little 0x104#32 == 0x108#32 &&
    t.getSlot (.low 1) == 0x108#32 && t.nk == .nonSeq) = true := by decide

/-- V-DP-B47. -/
theorem test_step_unrecognized : nextIs (step (launch 0xE0000291#32 0xD3#32 [])) (fun t =>
    t.pc == 0x100C#32 && t.trace == some [⟨0xE0000291#32, 0x1000#32⟩]) = true := by decide

/-- V-STEP-8. -/
theorem test_step_thumb : nextIs (step (launch 0xE1A00000#32 0xF3#32 [])) (fun t =>
    t.status == .refused .thumbUnmodelled && t.busLog.length == 0 && t.pc == 0x1008#32) = true := by decide

/-- V-STOP-1. -/
theorem test_step_invalid_mode : nextIs (step (launch 0xE1B0F00E#32 0xD3#32 [(.svc 1, 0x2000#32)])) (fun t =>
    t.status == .fatal .invalidMode && t.cpsr == 0#32 && t.pc == 0x2000#32) = true := by decide

/-! ## Witnesses: the hypotheses of each statement are met together -/

/-- Reset with a pipeline that holds `w`, in Supervisor mode, every parameter at its default. -/
def filled (w : Word) : State := launch w 0xD3#32 []

/-- In IRQ mode with a saved word of System mode. -/
def inIrq (w : Word) : State := { launch w 0xD2#32 [] with spsr := ⟨0#32, 0#32, 0#32, 0x6000001F#32, 0#32⟩ }

/-- The same with BLOCK_S_BIT = ArmV4. -/
def armV4 (s : State) : State := { s with params := { s.params with blockSBit := .armV4 } }

theorem test_witness_EncodeDecode : decode .any 0xEA000002#32 = .ok (.b .always 2#24) := by decide

theorem test_witness_FlagAccessors : (0 : Nat) ≠ Flag.overflow.bit ∧ (31 : Nat) ≠ Flag.zero.bit := by decide

theorem test_witness_BankedSlots : (7 : Reg).val < 8 ∧ slot .fiq 14 = slot .fiq 14 ∧ slot .user 8 = slot .system 8 := by decide

theorem test_witness_RegisterReadWrite :
    slot .system 13 = slot .user 13 ∧ slot .irq 14 ≠ slot .user 14 ∧ slot .user 15 = slot .irq 15 := by decide

/-- V-SH-I1, V-SH-I8 and V-SH-I3 for the three clauses: bit 31 of the value is in range, rot 0, and rot 15 and 1. -/
theorem test_witness_ImmediateOperand :
    (31 : Nat) < 32 ∧ shiftImmediate 0#4 0xFF#8 true = ⟨0xFF#32, true⟩ ∧
    (15#4 ≠ 0#4 ∧ shiftImmediate 15#4 0x3F#8 true = ⟨0xFC#32, false⟩) ∧
    (1#4 ≠ 0#4 ∧ shiftImmediate 1#4 0x3F#8 false = ⟨0xC000000F#32, true⟩) := by decide

/-- Amounts 0, 1 and 31 (V-SH-L0b, R0a, A0a, X0b, L31, R31, A31, O31, L1, O1). -/
theorem test_witness_ShiftsByAmount :
    shiftByAmount .lsl 0#5 0x80000001#32 true = ⟨0x80000001#32, true⟩ ∧
    shiftByAmount .lsr 0#5 0x80000001#32 false = ⟨0#32, true⟩ ∧
    shiftByAmount .asr 0#5 0x80000001#32 false = ⟨0xFFFFFFFF#32, true⟩ ∧
    shiftByAmount .ror 0#5 0x80000001#32 true = ⟨0xC0000000#32, true⟩ ∧
    31#5 ≠ 0#5 ∧ shiftByAmount .lsl 31#5 0x80000001#32 false = ⟨0x80000000#32, false⟩ ∧
    shiftByAmount .lsr 31#5 0x80000001#32 false = ⟨1#32, false⟩ ∧
    shiftByAmount .asr 31#5 0x80000001#32 false = ⟨0xFFFFFFFF#32, false⟩ ∧
    shiftByAmount .ror 31#5 0x80000001#32 false = ⟨3#32, false⟩ ∧
    1#5 ≠ 0#5 ∧ shiftByAmount .lsl 1#5 0x80000001#32 false = ⟨2#32, true⟩ ∧
    shiftByAmount .ror 1#5 0x80000001#32 false = ⟨0xC0000000#32, true⟩ := by decide

/-- Amounts 0, 1, 31, 32, 33, 64 and 255, where the clauses meet (section 3.3; x = 0x80000001, C = 1). -/
theorem test_witness_ShiftsByRegister :
    shiftByRegister .lsl 0 0x80000001#32 true = ⟨0x80000001#32, true⟩ ∧
    shiftByRegister .lsl 1 0x80000001#32 true = ⟨2#32, true⟩ ∧
    shiftByRegister .lsl 31 0x80000001#32 true = ⟨0x80000000#32, false⟩ ∧
    shiftByRegister .lsr 31 0x80000001#32 true = ⟨1#32, false⟩ ∧
    shiftByRegister .asr 31 0x80000001#32 true = ⟨0xFFFFFFFF#32, false⟩ ∧
    shiftByRegister .lsl 32 0x80000001#32 true = ⟨0#32, true⟩ ∧
    shiftByRegister .lsr 32 0x80000001#32 true = ⟨0#32, true⟩ ∧
    shiftByRegister .asr 32 0x80000001#32 true = ⟨0xFFFFFFFF#32, true⟩ ∧
    shiftByRegister .ror 32 0x80000001#32 true = ⟨0x80000001#32, true⟩ ∧
    shiftByRegister .lsl 33 0x80000001#32 true = ⟨0#32, false⟩ ∧
    shiftByRegister .lsr 33 0x80000001#32 true = ⟨0#32, false⟩ ∧
    shiftByRegister .ror 33 0x80000001#32 true = ⟨0xC0000000#32, true⟩ ∧
    shiftByRegister .ror 64 0x80000001#32 true = ⟨0x80000001#32, true⟩ ∧
    shiftByRegister .ror 255 0x80000001#32 true = ⟨3#32, false⟩ ∧
    (255 : Nat) < 256 ∧ (255 : Nat) % 32 ≠ 0 ∧ (64 : Nat) % 32 = 0 := by decide

/-- An address whose bytes wrap, and a byte outside them. -/
theorem test_witness_MemoryReadWrite :
    Memory.wf [(5, 7#8)] = true ∧ (3 : Nat) < 4 ∧
    (∀ j, j < 4 → (2 : Nat) ≠ (0xFFFFFFFE#32 + BitVec.ofNat 32 j).toNat) ∧
    (0xFFFFFFFE#32 + 2#32).toNat = 0 := by decide

theorem test_witness_StepRunsDecoded :
    StepOpen (filled 0xEA000002#32) ∧ (filled 0xEA000002#32).pipeValid = true ∧
    FetchOk (filled 0xEA000002#32) (filled 0xEA000002#32).pc 4 ∧
    decode (filled 0xEA000002#32).params.compareRdCheck (filled 0xEA000002#32).pipe0 = .ok (.b .always 2#24) := by decide

theorem test_witness_StepFromEmptyPipeline :
    StepOpen State.reset ∧ State.reset.pipeValid = false ∧ FetchOk State.reset State.reset.pc 4 ∧
    decode State.reset.params.compareRdCheck (State.reset.nthWordAnswer 0 State.reset.pc) =
      .ok (.andShiftImm .equal false 0 0 0#5 .lsl 0) := by decide

theorem test_witness_StepUnrecognized :
    (StepOpen (filled 0xE0000291#32) ∧ (filled 0xE0000291#32).pipeValid = true ∧
      FetchOk (filled 0xE0000291#32) (filled 0xE0000291#32).pc 4 ∧
      decode (filled 0xE0000291#32).params.compareRdCheck (filled 0xE0000291#32).pipe0 = .error .bits4And7) ∧
    StepOpen (withWords State.reset [(0#32, 0xE0000291#32)]) ∧
      (withWords State.reset [(0#32, 0xE0000291#32)]).pipeValid = false ∧
      FetchOk (withWords State.reset [(0#32, 0xE0000291#32)]) (withWords State.reset [(0#32, 0xE0000291#32)]).pc 4 ∧
      decode (withWords State.reset [(0#32, 0xE0000291#32)]).params.compareRdCheck
        ((withWords State.reset [(0#32, 0xE0000291#32)]).nthWordAnswer 0
          (withWords State.reset [(0#32, 0xE0000291#32)]).pc) = .error .bits4And7 := by decide

theorem test_witness_ConditionFailed :
    (filled 0#32).mode? = some .supervisor ∧ condHolds (Instr.b .equal 0#24).cond (filled 0#32).cpsr = false := by decide

theorem test_witness_StepGates :
    (State.reset.stopped (.fault .r15Writeback)).status ≠ .running ∧
    (launch 0#32 0xF3#32 []).status = .running ∧ Cpsr.t (launch 0#32 0xF3#32 []).cpsr = true := by decide

theorem test_witness_MisalignedStepFetch :
    (StepOpen (State.reset.setPc 2#32) ∧ FetchStops (State.reset.setPc 2#32) (State.reset.setPc 2#32).pc 4 ∧
      (State.reset.setPc 2#32).pipeValid = false) ∧
    StepOpen ((filled 0#32).setPc 2#32) ∧ FetchStops ((filled 0#32).setPc 2#32) ((filled 0#32).setPc 2#32).pc 4 ∧
      ((filled 0#32).setPc 2#32).pipeValid = true := by decide

theorem test_witness_FirstStep :
    Memory.readWord .little (Memory.writeWord .little [] 0#32 0xEA000002#32) 0#32 = 0xEA000002#32 := by decide

/-- For the fourteen result statements: the current mode, a condition that holds, a destination other than R15. -/
theorem test_witness_Results :
    Ready .always (filled 0#32) .supervisor ∧ (14 : Reg) ≠ 15 ∧
    Ready .equal (launch 0#32 0x400000D1#32 []) .fiq ∧ (0 : Reg) ≠ 15 := by decide

theorem test_witness_DpJump :
    (Instr.movShiftImm .always false 15 0#5 .lsl 0).variant = .dataProcessing .mov 15 0 (.regImm 0 .lsl 0#5) false ∧
    DpOp.isCompare .mov = false ∧ Ready .always (filled 0#32) .supervisor ∧
    FetchOk (filled 0#32) (resultIn .supervisor .mov 0 (.regImm 0 .lsl 0#5) (filled 0#32)).res
      (filled 0#32).codeWidth := by decide

/-- In IRQ mode, and in User mode, where the saved word is CPSR. -/
theorem test_witness_DpReturn :
    (Instr.movShiftImm .always true 15 0#5 .lsl 14).variant = .dataProcessing .mov 15 0 (.regImm 14 .lsl 0#5) true ∧
    DpOp.isCompare .mov = false ∧
    (Ready .always (inIrq 0#32) .irq ∧ (Cpsr.mode? ((inIrq 0#32).savedStatus .irq)).isSome = true ∧
      FetchOk (inIrq 0#32) (resultIn .irq .mov 0 (.regImm 14 .lsl 0#5) (inIrq 0#32)).res
        (widthUnder ((inIrq 0#32).savedStatus .irq))) ∧
    Ready .always (launch 0#32 0x10#32 []) .user ∧
      (Cpsr.mode? ((launch 0#32 0x10#32 []).savedStatus .user)).isSome = true ∧
      FetchOk (launch 0#32 0x10#32 []) (resultIn .user .mov 0 (.regImm 14 .lsl 0#5) (launch 0#32 0x10#32 [])).res
        (widthUnder ((launch 0#32 0x10#32 []).savedStatus .user)) := by decide

theorem test_witness_CompareRestore :
    (Instr.teqImm .always 0 15 0#4 0#8).variant = .dataProcessing .teq 15 0 (.imm 0#4 0#8) true ∧
    DpOp.isCompare .teq = true ∧ Ready .always (inIrq 0#32) .irq ∧
    (Cpsr.mode? ((inIrq 0#32).savedStatus .irq)).isSome = true := by decide

/-- With a compare and with an operation that writes R15. -/
theorem test_witness_RestoreInvalidMode :
    (Instr.teqImm .always 0 15 0#4 0#8).variant = .dataProcessing .teq 15 0 (.imm 0#4 0#8) true ∧
    (Instr.movShiftReg .always true 15 1 .lsl 14).variant = .dataProcessing .mov 15 0 (.regReg 14 .lsl 1) true ∧
    Ready .always (filled 0#32) .supervisor ∧ Cpsr.mode? ((filled 0#32).savedStatus .supervisor) = none := by decide

/-- The farthest offsets, for B and BL. -/
theorem test_witness_Branches :
    Ready .always (filled 0#32) .supervisor ∧
    FetchOk (filled 0#32) (branchTarget (filled 0#32) 0x7FFFFF#24) (filled 0#32).codeWidth ∧
    FetchOk (filled 0#32) (branchTarget (filled 0#32) 0x800000#24) (filled 0#32).codeWidth ∧
    branchTarget (filled 0#32) 0x7FFFFF#24 = 0x02001004#32 ∧
    branchTarget (filled 0#32) 0x800000#24 = 0xFE001008#32 := by decide

/-- An even and an odd target, each at its boundary. -/
theorem test_witness_BranchExchangeResult :
    (Ready .always (filled 0#32) .supervisor ∧ ((filled 0#32).reg .supervisor 0).getLsbD 0 = false ∧
      FetchOk (filled 0#32) ((filled 0#32).reg .supervisor 0) (filled 0#32).codeWidth) ∧
    Ready .always (launch 0#32 0xD3#32 [(.low 0, 0xFFFFFFFF#32)]) .supervisor ∧
      ((launch 0#32 0xD3#32 [(.low 0, 0xFFFFFFFF#32)]).reg .supervisor 0).getLsbD 0 = true := by decide

/-- A state whose R0 is 0x2002 and whose R15 is 2 above a multiple of 4. -/
def skewed : State := (launch 0#32 0xD2#32 [(.low 0, 0x2002#32)]).setPc 0x100A#32

/-- The same with a saved word of System mode. -/
def skewedIrq : State := { skewed with spsr := ⟨0#32, 0#32, 0#32, 0x1F#32, 0#32⟩ }

theorem test_witness_MisalignedReload :
    (Ready .always skewed .irq ∧ FetchStops skewed (branchTarget skewed 0#24) skewed.codeWidth) ∧
    ((skewed.reg .irq 0).getLsbD 0 = false ∧ FetchStops skewed (skewed.reg .irq 0) skewed.codeWidth) ∧
    ((Instr.movShiftImm .always false 15 0#5 .lsl 0).variant = .dataProcessing .mov 15 0 (.regImm 0 .lsl 0#5) false ∧
      FetchStops skewed (resultIn .irq .mov 0 (.regImm 0 .lsl 0#5) skewed).res skewed.codeWidth) ∧
    (Instr.movShiftImm .always true 15 0#5 .lsl 0).variant = .dataProcessing .mov 15 0 (.regImm 0 .lsl 0#5) true ∧
      DpOp.isCompare .mov = false ∧ Ready .always skewedIrq .irq ∧
      (Cpsr.mode? (skewedIrq.savedStatus .irq)).isSome = true ∧
      FetchStops skewedIrq (resultIn .irq .mov 0 (.regImm 0 .lsl 0#5) skewedIrq).res
        (widthUnder (skewedIrq.savedStatus .irq)) := by decide

/-- The empty list, the full list and a list of one (44_block_transfer.md R105). -/
theorem test_witness_BlockListAndAddresses :
    effectiveList 0#16 = 0x8000#16 ∧ 0xFFFF#16 ≠ 0#16 ∧ transferCount (effectiveList 0xFFFF#16) = 16 ∧
    transferCount (effectiveList 0#16) = 1 := by decide

/-- From the current bank with a writeback, and from the user bank. -/
theorem test_witness_LdmResult :
    (Ready .always (filled 0#32) .supervisor ∧ BlockOk true .supervisor true true false true 0 0x0006#16 (filled 0#32) ∧
      (effectiveList 0x0006#16).getLsbD 15 = false) ∧
    Ready .always (armV4 (filled 0#32)) .supervisor ∧
      BlockOk true .supervisor false true true false 0 0x4000#16 (armV4 (filled 0#32)) ∧
      (effectiveList 0x4000#16).getLsbD 15 = false := by decide

/-- With the empty list and S = 0, and with S = 1 in IRQ mode. -/
theorem test_witness_LdmJump :
    (Ready .always (filled 0#32) .supervisor ∧ BlockOk true .supervisor false true false true 0 0#16 (filled 0#32) ∧
      (effectiveList 0#16).getLsbD 15 = true ∧
      FetchOk (filled 0#32) ((filled 0#32).nthWordAnswer (position (effectiveList 0#16) 15)
        (blockAddr (startIn .supervisor false true 0 0#16 (filled 0#32)) (position (effectiveList 0#16) 15)))
        (widthUnder (filled 0#32).cpsr)) ∧
    Ready .always (armV4 (inIrq 0#32)) .irq ∧
      BlockOk true .irq false true true false 0 0x8001#16 (armV4 (inIrq 0#32)) ∧
      (effectiveList 0x8001#16).getLsbD 15 = true ∧
      (Cpsr.mode? ((armV4 (inIrq 0#32)).savedStatus .irq)).isSome = true ∧
      FetchOk (armV4 (inIrq 0#32)) ((armV4 (inIrq 0#32)).nthWordAnswer (position (effectiveList 0x8001#16) 15)
        (blockAddr (startIn .irq false true 0 0x8001#16 (armV4 (inIrq 0#32))) (position (effectiveList 0x8001#16) 15)))
        (widthUnder ((armV4 (inIrq 0#32)).savedStatus .irq)) := by decide

/-- All sixteen registers, with a writeback of the base that is lowest, and the user bank. -/
theorem test_witness_StmResult :
    (Ready .always (filled 0#32) .supervisor ∧ BlockOk false .supervisor true false false true 0 0xFFFF#16 (filled 0#32) ∧
      (filled 0#32).mem.wf = true) ∧
    Ready .always (armV4 (filled 0#32)) .supervisor ∧
      BlockOk false .supervisor false true true false 0 0x2000#16 (armV4 (filled 0#32)) := by decide

/-- The state of each stop: R0 = 0x102, a misaligned base. -/
def offBase : State := launch 0#32 0xD3#32 [(.low 0, 0x102#32)]

/-- Each check where the checks before it pass, for a load and for a store. -/
theorem test_witness_BlockStops :
    Ready .always offBase .supervisor ∧ Ready .always (armV4 offBase) .supervisor ∧
    offBase.params.blockSBit = .refuse ∧ (armV4 offBase).params.blockSBit = .armV4 ∧
    (userBankTransfer true true (effectiveList 2#16) = true ∧ userBankTransfer false true (effectiveList 0x8002#16) = true ∧
      (0 : Reg) ≠ 15) ∧
    (userBankTransfer true true (effectiveList 0x8000#16) = false ∧
      (startIn .supervisor false true 0 0x8000#16 (armV4 offBase)).toNat % 4 ≠ 0 ∧
      (armV4 offBase).params.misalignedBlock = .fault) ∧
    (startIn .supervisor false true 0 2#16 offBase).toNat % 4 ≠ 0 ∧ offBase.params.misalignedBlock = .fault := by decide

/-- Memory holds 2 at address 0, so R15 is loaded with a misaligned address. -/
def loadsTwo (s : State) : State := withWords s [(0#32, 2#32)]

theorem test_witness_LdmJumpStops :
    (Ready .always (armV4 (filled 0#32)) .supervisor ∧
      BlockOk true .supervisor false true true false 0 0#16 (armV4 (filled 0#32)) ∧
      (effectiveList 0#16).getLsbD 15 = true ∧ Cpsr.mode? ((armV4 (filled 0#32)).savedStatus .supervisor) = none) ∧
    (Ready .always (loadsTwo (filled 0#32)) .supervisor ∧
      BlockOk true .supervisor false true false false 0 0#16 (loadsTwo (filled 0#32)) ∧
      FetchStops (loadsTwo (filled 0#32)) ((loadsTwo (filled 0#32)).nthWordAnswer (position (effectiveList 0#16) 15)
        (blockAddr (startIn .supervisor false true 0 0#16 (loadsTwo (filled 0#32))) (position (effectiveList 0#16) 15)))
        (widthUnder (loadsTwo (filled 0#32)).cpsr)) ∧
    Ready .always (armV4 (loadsTwo (inIrq 0#32))) .irq ∧
      BlockOk true .irq false true true false 0 0#16 (armV4 (loadsTwo (inIrq 0#32))) ∧
      (Cpsr.mode? ((armV4 (loadsTwo (inIrq 0#32))).savedStatus .irq)).isSome = true ∧
      FetchStops (armV4 (loadsTwo (inIrq 0#32)))
        ((armV4 (loadsTwo (inIrq 0#32))).nthWordAnswer (position (effectiveList 0#16) 15)
          (blockAddr (startIn .irq false true 0 0#16 (armV4 (loadsTwo (inIrq 0#32)))) (position (effectiveList 0#16) 15)))
        (widthUnder ((armV4 (loadsTwo (inIrq 0#32))).savedStatus .irq)) := by decide

/-- The invariant and a step, from a state with a filled pipeline. -/
theorem test_witness_InvStep : Inv (filled 0xE0910002#32) ∧ ∃ t, step (filled 0xE0910002#32) = .next t :=
  ⟨⟨by decide, fun _ => ⟨.supervisor, by decide⟩, by decide⟩, _, rfl⟩

theorem test_witness_SavedWordsNeverWritten : ∃ t, step (inIrq 0xE1B0F00E#32) = .next t := ⟨_, rfl⟩

theorem test_witness_UserModeStays :
    ((launch 0xE1B0F00E#32 0x10#32 []).mode? = some .user ∧ ∃ t, step (launch 0xE1B0F00E#32 0x10#32 []) = .next t) ∧
    (launch 0xE1B0F00E#32 0x1F#32 []).mode? = some .system ∧ ∃ t, step (launch 0xE1B0F00E#32 0x1F#32 []) = .next t :=
  ⟨⟨by decide, _, rfl⟩, by decide, _, rfl⟩

theorem test_witness_OnlyStmWritesMemory :
    (∃ t, exec (.ldm .always true true false true 0 6#16) (filled 0#32) = .next t) ∧
    ∀ load p u sBit w rn list,
      (Instr.ldm .always true true false true 0 6#16).variant = .blockDataTransfer load p u sBit w rn list → load = true := by
  refine ⟨⟨_, rfl⟩, fun load p u sBit w rn list h => ?_⟩
  simp only [Instr.variant, Decoded.blockDataTransfer.injEq] at h
  exact h.1.symm

theorem test_witness_BusCallsAllowed :
    (∃ t, step (State.reset.stopped (.fault .r15Writeback)) = .next t) ∧
    ¬ StepOpen (State.reset.stopped (.fault .r15Writeback)) := ⟨⟨_, rfl⟩, by decide⟩

theorem test_witness_SelfBranchIsTheEnd :
    AtSelfBranch (withWords (filled 0xEAFFFFFE#32) [(0x1000#32, 0xEAFFFFFE#32)]) ∧
    (withWords (filled 0xEAFFFFFE#32) [(0x1000#32, 0xEAFFFFFE#32)]).nthWordAnswer 1 0x1000#32 = 0xEAFFFFFE#32 ∧
    AtSelfBranch (withWords State.reset [(0#32, 0xEAFFFFFE#32)]) ∧
    (withWords State.reset [(0#32, 0xEAFFFFFE#32)]).nthWordAnswer 3 0#32 = 0xEAFFFFFE#32 :=
  ⟨⟨by decide, by decide, .always, by decide, by decide⟩, by decide,
    ⟨by decide, by decide, .always, by decide, by decide⟩, by decide⟩

/-- The stopped end, out of fuel, and a step that ends a run neither way. -/
theorem test_witness_run_ends :
    (run 1 (State.reset.setPc 2#32)).1 = .stopped ∧ (run 0 State.reset).1 = .outOfFuel ∧
    executesSelfBranch State.reset = false ∧ (run 1 State.reset).2.status = .running := by decide

/-! ## The end of a run (70_reset_and_hazards.md R137) -/

/-- `B .` at address 0 as the first word after reset. -/
theorem test_run_first_step : (run 1 (withWords State.reset [(0#32, 0xEAFFFFFE#32)])).1 = .normal := by decide

/-- `B .` in the decode slot ahead of a misaligned R15 is stopped by the fetch, and is no normal end. -/
theorem test_run_misaligned :
    (run 1 ((filled 0xEAFFFFFE#32).setPc 0x100A#32)).1 = .stopped ∧
    executesSelfBranch ((filled 0xEAFFFFFE#32).setPc 0x100A#32) = false := by decide

/-- BL to the own address, a B to the next word and a B whose condition fails are no such step. -/
theorem test_run_not_a_b :
    executesSelfBranch (filled 0xEBFFFFFE#32) = false ∧ executesSelfBranch (filled 0xEAFFFFFF#32) = false ∧
    executesSelfBranch (filled 0xFAFFFFFE#32) = false ∧ executesSelfBranch (filled 0xEAFFFFFE#32) = true := by decide

theorem test_witness_RowBits :
    decode .any 0xE1B00271#32 = .ok (.movShiftReg .always true 0 2 .ror 1) ∧
    decode .any 0xE8BD8003#32 = .ok (.ldm .always false true false true 13 0x8003#16) := by decide

end Sys2Proof.Tests
end

section
/-! PROOFS. The statements about the state and its invariants (10_state.md): status words, the bank table, construction, and what
every step keeps. -/

namespace Sys2Proof.Machine

/-! ## Status words -/

/-- A field encodes a mode exactly when it is that mode's pattern (10_state.md R14). -/
theorem Mode.ofBits_eq_some_iff (x : BitVec 5) (m : Mode) : Mode.ofBits x = some m ↔ x = m.bits := by
  constructor
  · revert x; cases m <;> decide
  · rintro rfl; exact Mode.ofBits_bits m

/-- The mode field is the low five bits. -/
theorem Cpsr.m_append (hi : BitVec 27) (lo : BitVec 5) : Cpsr.m (hi ++ lo) = lo :=
  BitVec.extractLsb'_append_eq_right

/-- The state bit is the one above the mode field (10_state.md R15). -/
theorem Cpsr.t_append (rest : BitVec 26) (b : Bool) (lo : BitVec 5) :
    Cpsr.t (rest ++ BitVec.ofBool b ++ lo) = b :=
  calc (rest ++ BitVec.ofBool b ++ lo).getLsbD 5
    _ = (rest ++ BitVec.ofBool b).getLsbD 0 := BitVec.getLsbD_append
    _ = (BitVec.ofBool b).getLsbD 0 := BitVec.getLsbD_append
    _ = b := by simp

/-- Settles O7: the mode patterns by their table, and the two fields read back from a word put together of them. -/
theorem modeAndState : Obligations.ModeAndState := by
  refine ⟨Mode.ofBits_eq_some_iff, fun m b rest => ⟨?_, Cpsr.t_append rest b m.bits⟩, rfl, rfl, rfl, rfl, rfl, rfl, rfl⟩
  rw [Cpsr.mode?, Cpsr.m_append, Mode.ofBits_bits]

/-- Settles O8: every bit of the word after a flag write is known. -/
theorem flagAccessors : Obligations.FlagAccessors := by
  refine fun w k b => ⟨?_, fun j hj => ?_, rfl, rfl, rfl, rfl⟩
  · rw [Cpsr.flag, Cpsr.getLsbD_setFlag, if_pos rfl]
  · rw [Cpsr.getLsbD_setFlag, if_neg hj]

/-- Settles O9: the table of saved words is the definition's own. -/
theorem savedStatusOfMode : Obligations.SavedStatusOfMode :=
  fun _ => ⟨rfl, rfl, rfl, rfl, rfl, rfl, rfl⟩

/-! ## Banked registers -/

/-- The register index a physical register is reached by. -/
def Slot.index : Slot → Reg
  | .low i => ⟨i.val, by omega⟩
  | .usr i | .fiq i => ⟨8 + i.val, by omega⟩
  | .svc i | .abt i | .irq i | .und i => ⟨13 + i.val, by omega⟩
  | .pc => 15

/-- A mode whose bank holds a physical register. -/
def Slot.owner : Slot → Mode
  | .low _ | .usr _ | .pc => .user
  | .fiq _ => .fiq
  | .svc _ => .supervisor
  | .abt _ => .abort
  | .irq _ => .irq
  | .und _ => .undefined

/-- Whatever the mode, a slot is reached by one index only. -/
@[simp] theorem Slot.index_slot (m : Mode) (i : Reg) : (slot m i).index = i := by
  revert i; cases m <;> decide

/-- Every slot is reached, by its index in a mode whose bank holds it. -/
@[simp] theorem slot_owner_index (k : Slot) : slot k.owner k.index = k := by
  cases k with
  | pc => rfl
  | low i | usr i | fiq i | svc i | abt i | irq i | und i => revert i; decide

theorem slot_low (m : Mode) (i : Reg) (h : i.val < 8) : slot m i = .low ⟨i.val, h⟩ := dif_pos h

theorem slot_mid (m : Mode) (j : Fin 5) : slot m ⟨8 + j.val, by omega⟩ =
    if m = .fiq then .fiq ⟨j.val, by omega⟩ else .usr ⟨j.val, by omega⟩ := by
  revert j; cases m <;> decide

theorem slot_high (m : Mode) (j : Fin 2) : slot m ⟨13 + j.val, by omega⟩ = slotHigh m j := by
  revert j; cases m <;> decide

/-- Settles O10: the table range by range; a slot determines its index, and its owner reaches it. -/
theorem bankedSlots : Obligations.BankedSlots := by
  refine ⟨slot_low, slot_mid, fun j => ?_, slot_15, fun _ _ _ _ => ⟨rfl, rfl⟩, fun m m' i j h => ?_,
    fun k => ⟨k.owner, k.index, slot_owner_index k⟩⟩
  · exact ⟨slot_high _ j, slot_high _ j, slot_high _ j, slot_high _ j, slot_high _ j, slot_high _ j, slot_high _ j⟩
  · rw [← Slot.index_slot m i, h, Slot.index_slot]

/-- A register read in one mode after a register write in another: they meet exactly in a common slot. -/
theorem State.reg_setReg_slot (s : State) (m m' : Mode) (i j : Reg) (v : Word) :
    (s.setReg m i v).reg m' j = if slot m' j = slot m i then v else s.reg m' j :=
  State.getSlot_setSlot s (slot m i) (slot m' j) v

/-- Settles O11, by the law of a read after a write over the 31 slots. -/
theorem registerReadWrite : Obligations.RegisterReadWrite := by
  intro s m m' i j v
  refine ⟨?_, fun h => ?_, fun h => ?_⟩ <;> rw [State.reg_setReg_slot]
  · exact if_pos rfl
  · exact if_pos h
  · exact if_neg h

/-! ## Construction -/

@[simp] theorem RegFile.get_zero (k : Slot) : RegFile.zero.get k = 0#32 := by
  cases k <;> simp [RegFile.get, RegFile.zero]

/-- The core is constructed in Supervisor mode, whatever RESET_IF is (10_state.md R23). -/
@[simp] theorem State.mode?_construct (p : Params) : (State.construct p).mode? = some .supervisor := by
  show Cpsr.mode? (resetCpsr p.resetIF) = some .supervisor
  cases p.resetIF <;> rfl

/-- Settles O23, field by field. -/
theorem resetValues : Obligations.ResetValues := by
  refine fun p => ⟨fun k => RegFile.get_zero k, ?_, State.mode?_construct p, rfl, rfl, rfl, rfl, rfl, rfl, rfl, rfl, rfl⟩
  show resetCpsr p.resetIF = _
  cases p.resetIF <;> rfl

/-- Settles O53: memory lists nothing, the mode is Supervisor, and the pipeline is empty. -/
theorem invReset : Obligations.InvReset := fun p =>
  { memory := rfl
    mode := fun _ => ⟨.supervisor, State.mode?_construct p⟩
    aligned := fun _ hv => nomatch hv }

/-! ## Steps -/

theorem Evolves.pipe0 (s : State) (w : Word) : Evolves s { s with pipe0 := w } :=
  .of_eq rfl rfl rfl rfl ⟨[], by simp⟩ rfl rfl

/-- A step that ends before the decoder has only stopped the core. -/
theorem Evolves.retire_error {s t : State} (h : retire s = .error t) : Evolves s t := by
  rcases retire_cases s with ⟨_, e⟩ | ⟨_, _, e⟩ | ⟨_, _, e⟩ | ⟨_, _, _, e⟩ | ⟨_, _, _, e⟩ | ⟨_, _, _, e⟩ | ⟨_, _, _, e⟩ <;>
    rw [e] at h <;> cases h
  · exact .refl s
  · exact .stopped s _ (by decide)
  · exact .stopped s _ (by decide)
  · exact .stopped s _ (by decide)
  · exact (Evolves.pipe0 s s.pipe1).trans (.stopped _ (.fault .misalignedFetch) (by decide))

/-- The reads of a step before the decoder are allowed ones. -/
theorem callAllowed_stepReads (s : State) : ∀ e ∈ s.stepReads, CallAllowed e := by
  unfold State.stepReads
  cases s.pipeValid <;> simp [CallAllowed]

theorem Retired.evolves {s u : State} (h : Retired s u) : Evolves s u :=
  .of_eq h.rest.spsr h.rest.params h.rest.trace h.rest.mem ⟨_, h.busLog, callAllowed_stepReads s⟩ h.rest.status h.cpsr

/-- R15 is aligned when a step gets to the decoder: its own fetches have checked it (20_memory.md R32). -/
theorem Retired.wordPlaced {s u : State} (h : Retired s u) (hf : FetchOk s s.pc 4) : WordPlaced u := by
  intro hp
  rw [h.rest.params] at hp
  have ha : s.pc.toNat % 4 = 0 := hf.resolve_right (by simp [hp])
  rw [h.pc, State.nextAddress]
  cases s.pipeValid <;> simp only [if_true, if_false, Bool.false_eq_true, BitVec.sub_add_cancel]
  · have := s.pc.isLt
    simp only [BitVec.toNat_add, BitVec.toNat_ofNat]
    omega
  · exact ha

/-- What one step can do to the machine as a whole: it leaves a core that does not run, or from an aligned R15 it executes an
instruction or reports an unrecognized word. -/
theorem step_evolves {s t : State} (h : step s = .next t) :
    (Evolves s t ∧ t.status ≠ .running) ∨
    ∃ u, Evolves s u ∧ WordPlaced u ∧ ((∃ i, exec i u = .next t) ∨ ∃ w a, t = u.unrecognized w a) := by
  rw [step_retire] at h
  cases hr : retire s with
  | error t' =>
    rw [hr] at h
    cases h
    exact .inl ⟨.retire_error hr, retire_error s t hr⟩
  | ok wu =>
    obtain ⟨w, u⟩ := wu
    obtain ⟨ho, hf⟩ := retire_ok s w u hr
    obtain ⟨u', hu, hret⟩ := retire_open s ho hf
    rw [hr] at h hu
    cases hu
    refine .inr ⟨u, hret.evolves, hret.wordPlaced hf, ?_⟩
    simp only [State.execute] at h
    split at h
    · exact .inl ⟨_, h⟩
    · cases h
      exact .inr ⟨_, _, rfl⟩

/-- Settles O55: whatever evolves the machine keeps the three, and a report only appends to the trace. -/
theorem savedWordsNeverWritten : Obligations.SavedWordsNeverWritten := by
  intro s t h
  have kept : ∀ u, Evolves s u → u.spsr = s.spsr ∧ u.params = s.params ∧ u.trace.isSome = s.trace.isSome :=
    fun u e => ⟨e.spsr, e.params, congrArg Option.isSome e.trace⟩
  rcases step_evolves h with ⟨e, _⟩ | ⟨u, e, _, ⟨i, hi⟩ | ⟨w, a, rfl⟩⟩
  · exact kept t e
  · exact kept t (e.trans (exec_evolves i u t hi))
  · simpa [State.unrecognized] using kept u e

/-- The invariant goes on along an evolution that leaves R15 placed. -/
theorem Inv.evolves {s t : State} (hs : Inv s) (e : Evolves s t) (hp : Placed t) : Inv t where
  memory := e.memory hs.memory
  mode hr := Option.isSome_iff_exists.mp (e.mode hr (Option.isSome_iff_exists.mpr (hs.mode (e.running hr))))
  aligned hr _ := hp hr

/-- An unrecognized word is skipped as an instruction would be (40_step_and_conditions.md R66). -/
theorem Inv.unrecognized {s : State} (hs : Inv s) (hp : WordPlaced s) (w a : Word) : Inv (s.unrecognized w a) where
  memory := hs.memory
  mode := hs.mode
  aligned hr _ := (hp.add (t := s.unrecognized w a) rfl rfl).placed hr

/-- Settles O54: a step that does not stop has checked R15 at its own fetch, and every executor keeps memory canonical, the mode
valid and R15 placed. -/
theorem invStep : Obligations.InvStep := by
  intro s t hs h
  rcases step_evolves h with ⟨e, hn⟩ | ⟨u, e, hp, ⟨i, hi⟩ | ⟨w, a, rfl⟩⟩
  · exact hs.evolves e (.of_stopped t hn)
  · exact hs.evolves (e.trans (exec_evolves i u t hi)) (exec_placed i u t hp hi)
  · exact (hs.evolves e hp.placed).unrecognized hp w a

end Sys2Proof.Machine
end

section
/-! PROOFS. The statements about memory, the fetches and the bus port (20_memory.md): a word written and read back, the stops of a
misaligned fetch or reload, what writes memory, and the calls on record. -/

namespace Sys2Proof.Machine

/-! ## Words in memory -/

/-- Settles O15, by the laws of a word write; the layout of each order is the definition of `byteOfWord`. -/
theorem memoryReadWrite : Obligations.MemoryReadWrite := by
  refine fun order mem a v h => ⟨mem.wf_writeWord order a v h, mem.readWord_writeWord order a v h,
    mem.read_writeWord_byte .little a v h, fun j hj => ?_, mem.read_writeWord_of_ne order a v h⟩
  have hbyte : byteOfWord .big v j = v.extractLsb' (8 * (3 - j)) 8 := rfl
  rw [show 24 - 8 * j = 8 * (3 - j) by omega, ← hbyte]
  exact mem.read_writeWord_byte .big a v h j hj

/-! ## The step's own fetch -/

/-- A fetch that stops does not go on. -/
theorem not_fetchOk_of_fetchStops {s : State} {a : Word} {n : Nat} (h : FetchStops s a n) : ¬ FetchOk s a n := by
  obtain ⟨hmod, hfault⟩ := h
  rintro (hok | hpass)
  · exact hmod hok
  · simp [hfault] at hpass

/-- Settles O21: of all that a step can do, open gates and a fetch that stops leave the two misaligned fetches. -/
theorem misalignedStepFetch : Obligations.MisalignedStepFetch := by
  intro s ho hs
  have hok : ¬ FetchOk s s.pc 4 := not_fetchOk_of_fetchStops hs
  obtain ⟨hrun, harm, hmode⟩ := ho
  rcases step_cases s with ⟨h, _⟩ | ⟨_, h, _⟩ | ⟨_, h, _⟩ | ⟨_, hv, _, e⟩ | ⟨_, hv, _, e⟩ | ⟨_, _, h, _⟩ | ⟨_, _, h, _⟩
  · exact absurd hrun h
  · simp [harm] at h
  · simp [h] at hmode
  · rw [e, if_neg (ne_true_of_eq_false hv)]; rfl
  · rw [e, if_pos hv]; rfl
  · exact absurd h hok
  · exact absurd h hok

/-! ## Reloads -/

/-- A branch to a misaligned target, from a state `u` that has R15, CPSR and parameters of `s`. -/
theorem branchTo_stops (s u : State) (o : BitVec 24) (hpc : u.pc = s.pc) (hc : u.cpsr = s.cpsr) (hp : u.params = s.params)
    (hf : FetchStops s (branchTarget s o) s.codeWidth) :
    branchTo o u = .halt ((u.setPc (branchTarget s o)).stopped (.fault .misalignedFetch)) := by
  have hw : (u.setPc (branchTarget s o)).codeWidth = s.codeWidth := by simp [State.codeWidth, hc]
  rw [branchTo, add_branchDisplacement, show branchTarget u o = branchTarget s o by simp [branchTarget, hpc]]
  apply reload_stops
  rw [hw, State.pc_setPc]
  exact hf.imp id fun h => by simpa [hp] using h

/-- With Rd = 15 an operation that is no compare ends in a reload, after the restore that S = 1 asks for
(43_data_processing.md R87, R88). -/
theorem dpFinish_15 (m : Mode) (op : DpOp) (op2 : Operand2) (st : Bool) (s : State) (hc : op.isCompare = false) :
    dpFinish m op 15 op2 st s = (if st then restoreStatus m s else .goOn s).andThen reload := by
  cases st <;> simp [dpFinish, hc]

/-- Data processing that jumps to a misaligned target under the status word `w` it leaves: R15 and CPSR are written, and
nothing after them is done. -/
theorem exec_dp_misaligned (i : Instr) (op : DpOp) (rn : Reg) (op2 : Operand2) (st : Bool) (s : State) (m : Mode) (w : Word)
    (hv : i.variant = .dataProcessing op 15 rn op2 st) (hc : op.isCompare = false) (hr : Ready i.cond s m)
    (hw : (if st then restoreStatus m (dpWritten m op 15 rn op2 st s) else .goOn (dpWritten m op 15 rn op2 st s)) =
      .goOn { dpWritten m op 15 rn op2 st s with cpsr := w })
    (hf : FetchStops s (resultIn m op rn op2 s).res (widthUnder w)) :
    ∃ t, exec i s = .next t ∧ t.status = .fault .misalignedFetch ∧ t.pc = (resultIn m op rn op2 s).res ∧
      t.cpsr = w ∧ RegsKept s t (fun _ => False) ∧ PipeKept s t ∧ t.nk = s.nk ∧ t.mem = s.mem ∧
      t.spsr = s.spsr ∧ t.trace = s.trace ∧ t.params = s.params ∧ t.busIn = s.busIn ∧
      t.busLog = s.busLog ++ dpCalls op2 := by
  have hrest := rest_dpWritten m op 15 rn op2 st s
  have hpipe := pipe_dpWritten m op 15 rn op2 st s
  have hpc := (pc_dpWritten m op 15 rn op2 st s).trans (if_pos ⟨hc, rfl⟩)
  have hstop : FetchStops { dpWritten m op 15 rn op2 st s with cpsr := w } (dpWritten m op 15 rn op2 st s).pc
      (widthUnder w) := by
    rw [hpc]
    exact hf.imp id fun h => by simpa [hrest.params] using h
  have hexec : exec i s = .next
      ({ dpWritten m op 15 rn op2 st s with cpsr := w }.stopped (.fault .misalignedFetch)) := by
    rw [exec_dp_ready m op rn op2 s i 15 st hv hr, dpFinish_15 _ _ _ _ _ hc, hw, Flow.andThen_goOn, reload_stops _ hstop,
      Flow.final_halt]
  exact ⟨_, hexec, rfl, hpc, rfl, fun k hk _ => getSlot_dpWritten_15 m op rn op2 s st k hk,
    ⟨hpipe.pipe0, hpipe.pipe1, hpipe.pipeValid⟩, nk_dpWritten .., hrest.mem, hrest.spsr, hrest.trace, hrest.params,
    busIn_dpWritten .., busLog_dpWritten ..⟩

/-- Settles O46: each ends in a reload, and the reload stops before its first read. -/
theorem misalignedReload : Obligations.MisalignedReload := by
  refine ⟨fun c o s m hr hf => ⟨?_, ?_⟩, fun c rm s m hr heven hf => ?_, fun i op rn op2 s m hv hc hr hf => ?_,
    fun i op rn op2 s m hv hc hr hmode hf => ?_⟩
  · rw [exec_b c o s m hr, branchTo_stops s s o rfl rfl rfl hf, Flow.final_halt]
  · have hpc : (s.setReg m 14 (s.pc - 4#32)).pc = s.pc := by rw [State.pc_setReg, if_neg (by decide)]
    rw [exec_bl c o s m hr, branchTo_stops s _ o hpc rfl rfl hf, Flow.final_halt]
  · have hstop : FetchStops (s.setPc (s.reg m rm)) (s.setPc (s.reg m rm)).pc (s.setPc (s.reg m rm)).codeWidth := hf
    rw [exec_bx c rm s m hr, exchangeTo_even m rm s heven, reload_stops _ hstop, Flow.final_halt]
  · refine exec_dp_misaligned i op rn op2 false s m s.cpsr hv hc hr ?_ hf
    have hcpsr : (dpWritten m op 15 rn op2 false s).cpsr = s.cpsr := cpsr_dpWritten ..
    rw [← hcpsr]; rfl
  · have hwidth : widthUnder (s.savedStatus m) = widthUnder ((dpWritten m op 15 rn op2 true s).savedStatus m) := by
      rw [widthUnder, widthUnder, t_savedStatus_dpWritten]
    obtain ⟨t, he, hst, hpc, hcpsr, hkept⟩ := exec_dp_misaligned i op rn op2 true s m _ hv hc hr
      (restoreStatus_dpWritten m op rn op2 s hmode) (hwidth ▸ hf)
    exact ⟨t, he, hst, hpc, cpsrAfterRestore_dpWritten m op rn op2 s t hcpsr, hkept⟩

/-! ## What writes memory -/

/-- Two stretches that keep memory keep it one after the other. -/
theorem mem_andThen {s : State} {x : Flow} {f : State → Flow} (hx : x.final.mem = s.mem)
    (hf : ∀ u, (f u).final.mem = u.mem) : (x.andThen f).final.mem = s.mem := by
  cases x with
  | goOn u => exact (hf u).trans hx
  | halt u => exact hx

theorem mem_reload (s : State) : (reload s).final.mem = s.mem := by
  rcases reload_cases s with ⟨_, h⟩ | ⟨_, h⟩ <;> rw [h] <;> rfl

theorem mem_restoreStatus (m : Mode) (s : State) : (restoreStatus m s).final.mem = s.mem := by
  rcases restoreStatus_cases m s with ⟨_, _, h⟩ | ⟨_, h⟩ <;> rw [h] <;> rfl

theorem mem_branchTo (o : BitVec 24) (s : State) : (branchTo o s).final.mem = s.mem := mem_reload _

theorem mem_exchangeTo (m : Mode) (rm : Reg) (s : State) : (exchangeTo m rm s).final.mem = s.mem := by
  rw [exchangeTo]
  split <;> exact mem_reload _

theorem mem_dpAdvance (op2 : Operand2) (s : State) : (dpAdvance op2 s).mem = s.mem := by
  rw [dpAdvance]
  split <;> rfl

theorem mem_dpFinish (m : Mode) (op : DpOp) (rd : Reg) (op2 : Operand2) (st : Bool) (s : State) :
    (dpFinish m op rd op2 st s).final.mem = s.mem := by
  refine mem_andThen ?_ fun u => ?_
  · split
    · exact mem_restoreStatus m s
    · rfl
  · split
    · exact mem_reload u
    · exact mem_dpAdvance op2 _

theorem mem_dpBody (op : DpOp) (rd rn : Reg) (op2 : Operand2) (st : Bool) (m : Mode) (s : State) :
    (dpBody op rd rn op2 st m s).final.mem = s.mem := by
  rw [dpBody_eq, mem_dpFinish, (rest_dpWritten ..).mem]

theorem mem_finishLoad (m : Mode) (sBit loadsPc : Bool) (s : State) : (finishLoad m sBit loadsPc s).final.mem = s.mem := by
  rw [finishLoad]
  split
  · refine mem_andThen ?_ mem_reload
    split
    · exact mem_restoreStatus m _
    · rfl
  · rfl

theorem mem_loadMultiple (m : Mode) (p u sBit w : Bool) (rn : Reg) (list : BitVec 16) (s : State) :
    (loadMultiple m p u sBit w rn list s).final.mem = s.mem := by
  cases h : blockCheck true sBit w rn (effectiveList list) (startIn m p u rn list s) s.params with
  | some x => rw [loadMultiple_stops _ _ _ _ _ _ _ _ _ h]; rfl
  | none => rw [loadMultiple_ok _ _ _ _ _ _ _ _ h, mem_finishLoad, mem_loadDone]

/-- Every instruction but STM keeps memory, whether it runs, is skipped or stops. -/
theorem exec_mem (i : Instr) (s t : State) (h : exec i s = .next t)
    (hload : ∀ load p u sBit w rn list, i.variant = .blockDataTransfer load p u sBit w rn list → load = true) :
    t.mem = s.mem := by
  obtain ⟨b, hb⟩ := exec_conditionally i s
  rcases conditionally_cases i.cond s b with ⟨_, hc⟩ | ⟨_, _, _, hc⟩ | ⟨m, hr, _⟩
  · cases h.symm.trans (hb.trans hc); rfl
  · cases h.symm.trans (hb.trans hc); rfl
  · rcases exec_shapes i s m hr with ⟨o, u, he, hu⟩ | ⟨rm, he⟩ | ⟨op, rd, rn, op2, st, _, he⟩ |
      ⟨p, u, sBit, w, rn, list, _, he⟩ | ⟨p, u, sBit, w, rn, list, hv, _⟩
    · cases h.symm.trans he
      rw [mem_branchTo]
      rcases hu with rfl | rfl <;> rfl
    · cases h.symm.trans he
      exact mem_exchangeTo m rm s
    · cases h.symm.trans he
      exact mem_dpBody op rd rn op2 st m s
    · cases h.symm.trans he
      exact mem_loadMultiple m p u sBit w rn list s
    · exact absurd (hload _ _ _ _ _ _ _ hv) Bool.false_ne_true

/-- Settles O57: memory shape by shape, the trace because no operation of an executor reports. -/
theorem onlyStmWritesMemory : Obligations.OnlyStmWritesMemory :=
  fun i s t h => ⟨exec_mem i s t h, (exec_evolves i s t h).trace⟩

/-! ## The bus record -/

/-- A step only appends allowed calls: an executor does, and a report of an unrecognized word makes no call
(40_step_and_conditions.md R66). -/
theorem step_calls {s t : State} (h : step s = .next t) :
    ∃ calls, t.busLog = s.busLog ++ calls ∧ ∀ e ∈ calls, CallAllowed e := by
  rcases step_evolves h with ⟨e, _⟩ | ⟨u, e, _, ⟨i, hi⟩ | ⟨w, a, rfl⟩⟩
  · exact e.calls
  · exact (e.trans (exec_evolves i u t hi)).calls
  · exact e.calls

/-- A step whose gates are closed leaves the bus record as it was (40_step_and_conditions.md R57, R58). -/
theorem step_busLog_of_not_open {s t : State} (h : step s = .next t) (hn : ¬ StepOpen s) : t.busLog = s.busLog := by
  rcases step_cases s with ⟨_, e⟩ | ⟨_, _, e⟩ | ⟨_, _, e⟩ | ⟨ho, _⟩ | ⟨ho, _⟩ | ⟨ho, _⟩ | ⟨ho, _⟩
  · cases h.symm.trans e; rfl
  · cases h.symm.trans e; rfl
  · cases h.symm.trans e; rfl
  all_goals exact absurd ho hn

/-- Settles O58: the calls of a step, and none when a gate is closed. -/
theorem busCallsAllowed : Obligations.BusCallsAllowed := by
  intro s t h
  obtain ⟨calls, hlog, hallowed⟩ := step_calls h
  refine ⟨calls, hlog, hallowed, fun hn => ?_⟩
  rw [step_busLog_of_not_open h hn] at hlog
  exact List.self_eq_append_right.mp hlog

end Sys2Proof.Machine
end

section
/-! PROOFS. The statements about the encoding (30_encoding.md): the round trip between words and instructions in both directions, the
words that are unrecognized, and the bits of every row. -/

namespace Sys2Proof.Machine

/-! ## The round trip -/

/-- A word decodes to what its condition field and its variant make (30_encoding.md R40, R42). -/
theorem decode_ok_iff (chk : CompareRdCheck) (w : Word) (i : Instr) :
    decode chk w = .ok i ↔ ∃ d, decodeVariant chk w = .ok d ∧ Instr.ofDecoded (condField w) d = i := by
  rw [decode]
  cases decodeVariant chk w <;> simp

/-- What the decoder answers has the condition field and the variant of the word, and is well formed. -/
theorem decode_ok_fields {chk : CompareRdCheck} {w : Word} {i : Instr} (h : decode chk w = .ok i) :
    i.cond = condField w ∧ decodeVariant chk w = .ok i.variant ∧ i.wellFormed chk = true := by
  obtain ⟨d, hd, rfl⟩ := (decode_ok_iff chk w i).mp h
  obtain ⟨hvar, hwf⟩ := variant_ofDecoded chk w (condField w) d hd
  exact ⟨Instr.cond_ofDecoded _ d, by rw [hvar, hd], hwf⟩

theorem decode_encode (chk : CompareRdCheck) (i : Instr) (h : i.wellFormed chk = true) :
    decode chk (encode i) = .ok i := by
  refine (decode_ok_iff chk _ i).mpr ⟨i.variant, decodeVariant_variant chk i.cond.code i h, ?_⟩
  rw [encode, condField_encode, Instr.ofDecoded_variant]

/-- Settles O1: the decoder reads every variant back from its bits, and answers well-formed instructions only. -/
theorem decodeEncode : Obligations.DecodeEncode := by
  refine fun chk i => ⟨fun h => ?_, decode_encode chk i⟩
  obtain ⟨_, _, hwf⟩ := decode_ok_fields h
  exact hwf

/-- Settles O2: the condition code is bits 31:28 of the word, and the variant's bits are bits 27:0. -/
theorem encodeDecode : Obligations.EncodeDecode := by
  intro chk w i h
  obtain ⟨hcond, hvar, _⟩ := decode_ok_fields h
  calc encode i
    _ = i.cond.code ++ i.variant.bits := rfl
    _ = w.extractLsb' 28 4 ++ w.extractLsb' 0 28 := by
      rw [hcond, condField, Cond.code_ofCode, bits_decodeVariant chk w i.variant hvar]
    _ = w := BitVec.extractLsb'_append_extractLsb'

/-! ## The unrecognized words -/

/-- Bits 27:26 are 10 for the branches and the block transfers, and for no other word (30_encoding.md R43). -/
theorem family_eq_10_iff (w : Word) :
    w.extractLsb' 26 2 = 0b10#2 ↔ w.extractLsb' 25 3 = 0b101#3 ∨ w.extractLsb' 25 3 = 0b100#3 := by
  have h : w.extractLsb' 26 2 ++ w.extractLsb' 25 1 = w.extractLsb' 25 3 :=
    BitVec.extractLsb'_append_extractLsb'_eq_extractLsb' rfl
  rw [← h]
  generalize w.extractLsb' 26 2 = x, w.extractLsb' 25 1 = y
  revert x y
  decide

/-- A word is unrecognized outside the families, or in the data-processing space when `decodeDP` rejects it
(30_encoding.md R43, R52). -/
theorem decode_error_iff (chk : CompareRdCheck) (w : Word) :
    (∃ e, decode chk w = .error e) ↔
      (w.extractLsb' 26 2 = 0b01#2 ∨ w.extractLsb' 26 2 = 0b11#2 ∨
        w.extractLsb' 26 2 = 0b00#2 ∧ w.extractLsb' 4 24 ≠ 0x12FFF1#24 ∧ ∃ e, decodeDP chk w = .error e) := by
  have hvar : (∃ e, decode chk w = .error e) ↔ ∃ e, decodeVariant chk w = .error e := by
    rw [decode]
    cases decodeVariant chk w <;> simp
  have hten := family_eq_10_iff w
  rw [hvar, decodeVariant]
  split_ifs with hb hx hf hl
  · simp [hten.mpr (.inl hb)]
  · simp [not_imp_not.mp (not_bxPattern_of_family w) hx, hx]
  · simp [hf, hx]
  · simp [hten.mpr (.inr hl)]
  · have htwo : ∀ x : BitVec 2, x ≠ 0b00#2 → x ≠ 0b10#2 → x = 0b01#2 ∨ x = 0b11#2 := by decide
    have hout := htwo _ hf fun h => (hten.mp h).elim hb hl
    simpa [← or_assoc, hf] using hout

theorem decodeOperand2_error_iff (w : Word) :
    (∃ e, decodeOperand2 w = .error e) ↔ w.getLsbD 25 = false ∧ w.getLsbD 7 = true ∧ w.getLsbD 4 = true := by
  rw [decodeOperand2]
  cases w.getLsbD 25 <;> cases w.getLsbD 4 <;> cases w.getLsbD 7 <;> simp

/-- The four rejections of 30_encoding.md R50. Their order decides which is answered, not whether one is. -/
theorem decodeDP_error_iff (chk : CompareRdCheck) (w : Word) :
    (∃ e, decodeDP chk w = .error e) ↔
      ((DpOp.ofCode (w.extractLsb' 21 4)).isCompare = true ∧ w.getLsbD 20 = false ∨
       (DpOp.ofCode (w.extractLsb' 21 4)).isMove = true ∧ regField w 16 ≠ 0 ∨
       (DpOp.ofCode (w.extractLsb' 21 4)).isCompare = true ∧ compareRdAccepted chk (regField w 12) = false ∨
       ∃ e, decodeOperand2 w = .error e) := by
  rw [decodeDP]
  split_ifs with h1 h2 h3
  · exact iff_of_true ⟨_, rfl⟩ (.inl (by simpa using h1))
  · exact iff_of_true ⟨_, rfl⟩ (.inr (.inl (by simpa using h2)))
  · exact iff_of_true ⟨_, rfl⟩ (.inr (.inr (.inl (by simpa using h3))))
  · cases decodeOperand2 w <;> simp_all

/-- The compares have opcodes 10xx (30_encoding.md R47). -/
theorem isCompare_opcode (w : Word) :
    (DpOp.ofCode (w.extractLsb' 21 4)).isCompare = true ↔ w.extractLsb' 23 2 = 0b10#2 := by
  have h : w.extractLsb' 23 2 ++ w.extractLsb' 21 2 = w.extractLsb' 21 4 :=
    BitVec.extractLsb'_append_extractLsb'_eq_extractLsb' rfl
  rw [isCompare_ofCode, ← h, BitVec.extractLsb'_append_eq_left, beq_iff_eq]

/-- The moves have opcodes 11x1 (30_encoding.md R47). -/
theorem isMove_opcode (w : Word) :
    (DpOp.ofCode (w.extractLsb' 21 4)).isMove = true ↔ w.extractLsb' 23 2 = 0b11#2 ∧ w.getLsbD 21 = true := by
  have h : w.extractLsb' 23 2 ++ w.extractLsb' 21 2 = w.extractLsb' 21 4 :=
    BitVec.extractLsb'_append_extractLsb'_eq_extractLsb' rfl
  rw [isMove_ofCode, BitVec.getLsbD_extractLsb', ← h, BitVec.extractLsb'_append_eq_left]
  simp

/-- The Rd fields of a compare that COMPARE_RD_CHECK rejects (30_encoding.md R50 (3)). -/
theorem compareRdAccepted_eq_false_iff (chk : CompareRdCheck) (w : Word) (lo : Nat) :
    compareRdAccepted chk (regField w lo) = false ↔
      chk = .zeroOrFifteen ∧ w.extractLsb' lo 4 ≠ 0#4 ∧ w.extractLsb' lo 4 ≠ 15#4 := by
  cases chk <;> simp [compareRdAccepted, regField_eq_iff]

/-- Settles O3: the families outside, and each rejection of the data-processing space by the bits it looks at. -/
theorem unrecognizedWords : Obligations.UnrecognizedWords := by
  intro chk w
  have hrn : regField w 16 ≠ 0 ↔ w.extractLsb' 16 4 ≠ 0#4 := not_congr (regField_eq_iff w 16 0)
  rw [decode_error_iff, decodeDP_error_iff, decodeOperand2_error_iff, isCompare_opcode, isMove_opcode, hrn,
    compareRdAccepted_eq_false_iff, ne_eq, bxPattern_iff, and_assoc]

/-! ## The bits of every row -/

/-- The word has the bits of the second operand's form (30_encoding.md R48). -/
def OperandBits (w : Word) : Operand2 → Prop
  | .imm rot imm8 => ImmBits w rot imm8
  | .regImm rm ty amount5 => ShiftImmBits w amount5 ty rm
  | .regReg rm ty rs => ShiftRegBits w rs ty rm

theorem operandBits_decodeOperand2 {w : Word} {op2 : Operand2} (h : decodeOperand2 w = .ok op2) : OperandBits w op2 := by
  rcases decodeOperand2_cases w op2 h with ⟨_, _, rfl, hb⟩ | ⟨_, _, _, rfl, hb⟩ | ⟨_, _, _, rfl, hb⟩ <;> exact hb

/-- The opcode of each operation is the one its three rows have; a compare's row has S = 1, and a move's Rn = 0
(30_encoding.md R47, R50). -/
theorem inRow_dataProcessing {w : Word} {c : Cond} {op : DpOp} {rd rn : Reg} {op2 : Operand2} {st : Bool}
    (hd : DpBits w op.code c st rn rd) (ho : OperandBits w op2) (hs : op.isCompare = true → st = true)
    (hn : op.isMove = true → rn = 0) : InRow (Instr.ofDecoded c (.dataProcessing op rd rn op2 st)) w := by
  cases op
  case tst | teq | cmp | cmn =>
    obtain rfl := hs rfl
    cases op2 <;> exact ⟨hd, ho⟩
  case mov | mvn =>
    obtain rfl := hn rfl
    cases op2 <;> exact ⟨hd, ho⟩
  all_goals cases op2 <;> exact ⟨hd, ho⟩

theorem inRow_decodeDP {chk : CompareRdCheck} {w : Word} {d : Decoded} (hf : w.extractLsb' 26 2 = 0b00#2)
    (h : decodeDP chk w = .ok d) : InRow (Instr.ofDecoded (condField w) d) w := by
  obtain ⟨op2, ho, rfl, hs, hn⟩ := decodeDP_fields chk w d h
  have hd : DpBits w (DpOp.ofCode (w.extractLsb' 21 4)).code (condField w) (w.getLsbD 20) (regField w 16) (regField w 12) :=
    { cond := condBits_condField w
      family := hf
      opcode := (DpOp.code_ofCode _).symm
      s := rfl
      rn := regAt_regField w 16
      rd := regAt_regField w 12 }
  exact inRow_dataProcessing hd (operandBits_decodeOperand2 ho) hs hn

/-- The rows of B and BL: bits 27:24 are bits 27:25 and the link bit (30_encoding.md R44). -/
theorem inRow_decodeBranch {w : Word} (hf : w.extractLsb' 25 3 = 0b101#3) :
    InRow (Instr.ofDecoded (condField w) (decodeBranch w)) w := by
  have h : w.extractLsb' 25 3 ++ w.extractLsb' 24 1 = w.extractLsb' 24 4 :=
    BitVec.extractLsb'_append_extractLsb'_eq_extractLsb' rfl
  have hlink : w.extractLsb' 24 1 = BitVec.ofBool (w.getLsbD 24) := by
    rw [BitVec.getLsbD_eq_extractLsb']
    generalize w.extractLsb' 24 1 = x
    revert x
    decide
  rw [hf, hlink] at h
  rw [decodeBranch]
  cases hb : w.getLsbD 24 <;> rw [hb] at h <;> exact ⟨condBits_condField w, h.symm, rfl⟩

/-- The rows of LDM and STM, told apart by the L bit (30_encoding.md R51). -/
theorem inRow_decodeBDT {w : Word} (hf : w.extractLsb' 25 3 = 0b100#3) :
    InRow (Instr.ofDecoded (condField w) (decodeBDT w)) w := by
  have hb : BlockBits w (w.getLsbD 20) (condField w) (w.getLsbD 24) (w.getLsbD 23) (w.getLsbD 22) (w.getLsbD 21)
      (regField w 16) (w.extractLsb' 0 16) :=
    { cond := condBits_condField w
      family := hf
      p := rfl, u := rfl, s := rfl, wb := rfl, l := rfl
      rn := regAt_regField w 16
      list := rfl }
  rw [decodeBDT]
  cases hl : w.getLsbD 20 <;> rw [hl] at hb <;> exact hb

/-- Settles O60, family by family. -/
theorem rowBits : Obligations.RowBits := by
  intro chk w i h
  obtain ⟨d, hd, rfl⟩ := (decode_ok_iff chk w i).mp h
  rw [decodeVariant] at hd
  split_ifs at hd with hb hx hf hl
  · cases hd; exact inRow_decodeBranch hb
  · cases hd; exact ⟨condBits_condField w, hx, regAt_regField w 0⟩
  · exact inRow_decodeDP hf hd
  · cases hd; exact inRow_decodeBDT hl

end Sys2Proof.Machine
end

section
/-! PROOFS. The statements about the step and the conditions (40_step_and_conditions.md): the predicate table, the gates, what a
step runs with a filled and with an empty pipeline, the report of an unrecognized word, and a failed condition. -/

namespace Sys2Proof.Machine

/-! ## The predicate table -/

/-- Settles O5: a row is a flag, a negated flag, or a formula over the flags. -/
theorem conditionTable : Obligations.ConditionTable := by
  intro w
  have negated : ∀ b : Bool, (!b) = true ↔ b = false := fun b => by rw [Bool.not_eq_true']
  have higher : (Cpsr.c w && !Cpsr.z w) = true ↔ Cpsr.c w = true ∧ Cpsr.z w = false := by
    rw [Bool.and_eq_true, negated]
  have lowerOrSame : (!Cpsr.c w || Cpsr.z w) = true ↔ Cpsr.c w = false ∨ Cpsr.z w = true := by
    rw [Bool.or_eq_true, negated]
  have greater : (!Cpsr.z w && (Cpsr.n w == Cpsr.v w)) = true ↔ Cpsr.z w = false ∧ Cpsr.n w = Cpsr.v w := by
    rw [Bool.and_eq_true, negated, beq_iff_eq]
  have lessOrEqual : (Cpsr.z w || (Cpsr.n w != Cpsr.v w)) = true ↔ Cpsr.z w = true ∨ Cpsr.n w ≠ Cpsr.v w := by
    rw [Bool.or_eq_true, bne_iff_ne]
  exact ⟨.rfl, negated _, .rfl, negated _, .rfl, negated _, .rfl, negated _, higher, lowerOrSame, beq_iff_eq, bne_iff_ne,
    greater, lessOrEqual, rfl, rfl⟩

/-! ## The gates -/

/-- A closed gate ends the step with the state it leaves. -/
theorem step_of_gate {s t : State} (h : gate s = some t) : step s = .next t := by
  rw [step_retire, retire, h]

/-- Settles O20: of all that the gates can do, each of the two premises leaves one case. -/
theorem stepGates : Obligations.StepGates := by
  refine fun s => ⟨fun hs => step_of_gate ?_, fun hs ht => step_of_gate ?_⟩
  · rcases gate_cases s with ⟨_, hg⟩ | ⟨h, _⟩ | ⟨h, _⟩ | ⟨⟨h, _⟩, _⟩
    · exact hg
    all_goals exact absurd h hs
  · rcases gate_cases s with ⟨h, _⟩ | ⟨_, _, hg⟩ | ⟨_, h, _⟩ | ⟨⟨_, h, _⟩, _⟩
    · exact absurd hs h
    · exact hg
    all_goals simp [ht] at h

/-! ## A failed condition -/

/-- Settles O19: every instruction stands behind the one condition check. -/
theorem conditionFailed : Obligations.ConditionFailed := by
  intro i s m hm hc
  obtain ⟨body, he⟩ := exec_conditionally i s
  rcases conditionally_cases i.cond s body with ⟨h, _⟩ | ⟨_, _, _, h⟩ | ⟨_, ⟨_, h⟩, _⟩
  · simp [hm] at h
  · rw [he, h]; rfl
  · simp [hc] at h

/-! ## What a step runs -/

/-- The fetch of a step moves the slots up and makes one read, at R15 with the kind NK (R60). -/
theorem State.fetched_eq (s : State) : s.fetched = { s with
    pipe0 := s.pipe1
    pipe1 := s.nthWordAnswer 0 s.pc
    busIn := s.busIn.drop 1
    busLog := s.busLog ++ [.readWord s.pc ⟨.code, s.nk⟩] } := by
  rw [State.fetched, State.wordAnswer_eq, List.drop_one]
  rfl

/-- The initial reload and the fetch after it read at R15, R15 + 4 and R15 + 8 (R59, R60, R65). -/
theorem State.fetched_reloaded_eq (s : State) (ht : Cpsr.t s.cpsr = false) : s.reloaded.fetched = { s.setPc (s.pc + 8#32) with
    pipe0 := s.nthWordAnswer 1 (s.pc + 4#32)
    pipe1 := s.nthWordAnswer 2 (s.pc + 8#32)
    pipeValid := true
    nk := .seq
    busIn := s.busIn.drop 3
    busLog := s.busLog ++ [.readWord s.pc ⟨.code, .nonSeq⟩, .readWord (s.pc + 4#32) ⟨.code, .seq⟩,
      .readWord (s.pc + 8#32) ⟨.code, .seq⟩] } := by
  have ra := reloadedArm_reloaded s s 0 [] s.pc ht rfl rfl (by simp) rfl rfl
  have hanswer := State.nthWordAnswer_congr s s.reloaded 0 2 (s.pc + 8#32) ra.busIn rfl rfl
  have hin : s.reloaded.busIn.drop 1 = s.busIn.drop 3 := by rw [ra.busIn, List.drop_drop]
  have hlog : s.reloaded.busLog ++ [.readWord (s.pc + 8#32) ⟨.code, .seq⟩] = s.busLog ++
      [.readWord s.pc ⟨.code, .nonSeq⟩, .readWord (s.pc + 4#32) ⟨.code, .seq⟩, .readWord (s.pc + 8#32) ⟨.code, .seq⟩] := by
    rw [ra.busLog, List.append_nil, List.append_assoc]
    rfl
  have hregs : s.reloaded.regs = s.regs.set .pc s.reloaded.pc := rfl
  rw [State.fetched_eq, ra.pc, hanswer, hin, State.nk_reloaded, hlog, ra.pipe1]
  rw [ra.pc] at hregs
  simp [hregs]

/-- What follows the fetch is exec when the word decodes (R61). -/
theorem State.execute_ok {s : State} {w : Word} {i : Instr} (h : decode s.params.compareRdCheck w = .ok i) :
    s.execute w = exec i s := by
  rw [State.execute, h]

/-- A word that does not decode is reported with the address 8 below R15 (R66). -/
theorem State.execute_error {s : State} {w : Word} {e : Reject} (h : decode s.params.compareRdCheck w = .error e) :
    s.execute w = .next (s.unrecognized w (s.pc - 8#32)) := by
  rw [State.execute, h]

/-- The word the initial reload puts in the decode slot. -/
theorem State.pipe0_reloaded (s : State) (ht : Cpsr.t s.cpsr = false) : s.reloaded.pipe0 = s.nthWordAnswer 0 s.pc :=
  (reloadedArm_reloaded s s 0 [] s.pc ht rfl rfl (by simp) rfl rfl).pipe0

/-- Settles O16: the decode slot is executed after the fetch. -/
theorem stepRunsDecoded : Obligations.StepRunsDecoded := by
  intro s i ho hv hf hd
  have he : s.fetched.execute s.pipe0 = exec i s.fetched := State.execute_ok hd
  rw [step_filled s ho hv hf, he, State.fetched_eq]

/-- Settles O17: the word read first is executed after the reload and the fetch. -/
theorem stepFromEmptyPipeline : Obligations.StepFromEmptyPipeline := by
  intro s i ho hv hf hd
  have ⟨_, ht, _⟩ := ho
  have he : s.reloaded.fetched.execute (s.nthWordAnswer 0 s.pc) = exec i s.reloaded.fetched := State.execute_ok hd
  rw [step_empty s ho hv hf, State.pipe0_reloaded s ht, he, State.fetched_reloaded_eq s ht]

/-- Settles O18: the same two ways to the decoder, and then the report. -/
theorem stepUnrecognized : Obligations.StepUnrecognized := by
  refine fun s e ho hf => ⟨fun hv hd => ?_, fun hv hd => ?_⟩
  · have he : s.fetched.execute s.pipe0 = .next (s.fetched.unrecognized s.pipe0 (s.pc - 8#32)) := State.execute_error hd
    rw [step_filled s ho hv hf, he, State.fetched_eq]
    rfl
  · have ⟨_, ht, _⟩ := ho
    have haddr : s.reloaded.fetched.pc = s.pc + 8#32 := by rw [State.fetched_reloaded_eq s ht]; rfl
    have he : s.reloaded.fetched.execute (s.nthWordAnswer 0 s.pc) =
        .next (s.reloaded.fetched.unrecognized (s.nthWordAnswer 0 s.pc) s.pc) := by
      rw [State.execute_error (s := s.reloaded.fetched) hd, haddr, BitVec.add_sub_cancel]
    have hpc : s.pc + 12#32 = s.pc + 8#32 + 4#32 := by rw [BitVec.add_assoc]; rfl
    rw [step_empty s ho hv hf, State.pipe0_reloaded s ht, he, hpc, State.fetched_reloaded_eq s ht]
    rfl

end Sys2Proof.Machine
end

section
/-! PROOFS. The statements about the branches (41_branch.md): what B, BL and BX do, each a jump from the state that has its link
value or its T bit written; and the spec's own words of every family. -/

namespace Sys2Proof.Machine

/-! ## A jump -/

/-- The reload at the end of a jump, from the state `u` that the instruction has made of `s` without a read
(40_step_and_conditions.md R65): it writes R15 and no other register, and the pipeline and the bus port are all that it changes
beside. -/
theorem jump_reloaded {s u : State} {changed : Slot → Prop} {calls : List BusCall} {target : Word}
    (hregs : RegsKept s u changed) (hrest : RestKept s u) (hpc : u.pc = target) (hin : u.busIn = s.busIn)
    (hlog : u.busLog = s.busLog ++ calls) :
    RegsKept s u.reloaded changed ∧ RestKept s u.reloaded ∧ Reloaded s u.reloaded 0 calls target :=
  ⟨fun k hk hn => (u.getSlot_reloaded k hk).trans (hregs k hk hn),
    ⟨hrest.spsr, hrest.trace, hrest.mem, hrest.params, hrest.status⟩,
    reloaded_reloaded s u 0 calls target hpc hin hlog hrest.mem hrest.params⟩

/-- A jump with nothing else written than R15. -/
theorem jump_setPc (s : State) (target : Word) :
    RegsKept s (s.setPc target).reloaded (fun _ => False) ∧ RestKept s (s.setPc target).reloaded ∧
      Reloaded s (s.setPc target).reloaded 0 [] target :=
  jump_reloaded (fun k hk _ => s.getSlot_setPc k target hk) ⟨rfl, rfl, rfl, rfl, rfl⟩ rfl rfl (List.append_nil _).symm

/-! ## B and BL -/

/-- Settles O43: the branch writes R15 and reloads. -/
theorem branchResult : Obligations.BranchResult := by
  intro c o s m hr hf
  have hexec : exec (.b c o) s = .next (s.setPc (branchTarget s o)).reloaded := by
    rw [exec_b c o s m hr, branchTo_ok s s o rfl rfl rfl hf, Flow.final_goOn]
  exact ⟨_, hexec, rfl, jump_setPc s _⟩

/-- The link register is not R15, in any mode. -/
theorem slot_14_ne_pc (m : Mode) : slot m 14 ≠ .pc := fun h => absurd ((slot_eq_pc_iff m 14).mp h) (by decide)

/-- Settles O44: the same branch, from the state with the link value written. -/
theorem branchLinkResult : Obligations.BranchLinkResult := by
  intro c o s m hr hf
  have hpc : (s.setReg m 14 (s.pc - 4#32)).pc = s.pc := (s.pc_setReg m 14 _).trans (if_neg (by decide))
  have hexec : exec (.bl c o) s = .next ((s.setReg m 14 (s.pc - 4#32)).setPc (branchTarget s o)).reloaded := by
    rw [exec_bl c o s m hr, branchTo_ok s _ o hpc rfl rfl hf, Flow.final_goOn]
  have hregs : RegsKept s ((s.setReg m 14 (s.pc - 4#32)).setPc (branchTarget s o)) (· = slot m 14) := fun k hk hn => by
    rw [State.getSlot_setPc _ k _ hk, State.setReg_eq, State.getSlot_setSlot, if_neg hn]
  refine ⟨_, hexec, ?_, rfl, jump_reloaded hregs ⟨rfl, rfl, rfl, rfl, rfl⟩ rfl rfl (List.append_nil _).symm⟩
  rw [State.reg, State.getSlot_reloaded _ _ (slot_14_ne_pc m), State.getSlot_setPc _ _ _ (slot_14_ne_pc m), ← State.reg,
    State.reg_setReg, if_pos rfl]

/-! ## BX -/

/-- BX to an even target is a jump and nothing else. -/
theorem exec_bx_even (c : Cond) (rm : Reg) (s : State) (m : Mode) (hr : Ready c s m) (heven : (s.reg m rm).getLsbD 0 = false)
    (hf : FetchOk s (s.reg m rm) s.codeWidth) : exec (.bx c rm) s = .next (s.setPc (s.reg m rm)).reloaded := by
  have hok : FetchOk (s.setPc (s.reg m rm)) (s.setPc (s.reg m rm)).pc (s.setPc (s.reg m rm)).codeWidth := hf
  rw [exec_bx c rm s m hr, exchangeTo_even m rm s heven, reload_ok _ hok, Flow.final_goOn]

/-- BX to an odd target is a jump from the state with T set. -/
theorem exec_bx_odd (c : Cond) (rm : Reg) (s : State) (m : Mode) (hr : Ready c s m) (hodd : (s.reg m rm).getLsbD 0 = true) :
    exec (.bx c rm) s =
      .next (({ s with cpsr := Cpsr.setThumb s.cpsr }).setPc (s.reg m rm - 1#32)).reloaded := by
  rw [exec_bx c rm s m hr, exchangeTo_odd m rm s hodd, Flow.final_goOn]

/-- Settles O45: bit 0 of the target decides which of the two jumps it is. -/
theorem branchExchangeResult : Obligations.BranchExchangeResult := by
  refine fun c rm s m hr => ⟨fun heven hf => ⟨_, exec_bx_even c rm s m hr heven hf, rfl, jump_setPc s _⟩, fun hodd => ?_⟩
  have hregs : RegsKept s (({ s with cpsr := Cpsr.setThumb s.cpsr }).setPc (s.reg m rm - 1#32)) fun _ => False :=
    fun k hk _ => State.getSlot_setPc _ k _ hk
  obtain ⟨hkept, hrest, hreload⟩ :=
    jump_reloaded hregs ⟨rfl, rfl, rfl, rfl, rfl⟩ rfl rfl (List.append_nil _).symm
  rw [Reloaded, State.cpsr_reloaded, State.setPc_cpsr, Cpsr.t_setThumb, if_pos rfl] at hreload
  exact ⟨_, exec_bx_odd c rm s m hr hodd, Cpsr.getLsbD_setThumb s.cpsr, hkept, hrest, hreload⟩

/-! ## The spec's words -/

/-- A word that a well-formed instruction encodes to decodes to that instruction. -/
theorem decode_of_encode_eq {chk : CompareRdCheck} {w : Word} {i : Instr} (he : encode i = w)
    (hwf : i.wellFormed chk = true) : decode chk w = .ok i :=
  he ▸ decode_encode chk i hwf

/-- Settles O4: nine words are the encodings of their instructions, and the decoder answers for the two it refuses. -/
theorem specWords : Obligations.SpecWords :=
  ⟨decode_of_encode_eq rfl rfl, decode_of_encode_eq rfl rfl, decode_of_encode_eq rfl rfl, decode_of_encode_eq rfl rfl,
    decode_of_encode_eq rfl rfl, decode_of_encode_eq rfl rfl, decode_of_encode_eq rfl rfl, decode_of_encode_eq rfl rfl,
    decode_of_encode_eq rfl rfl, by decide, by decide⟩

end Sys2Proof.Machine
end

section
/-! PROOFS. The statements about the barrel shifter (42_shifter.md): the rotated immediate operand, and the shifts by an immediate
and by a register amount, bit by bit. -/

namespace Sys2Proof.Machine

/-! ## The immediate operand -/

/-- The value is the rotated immediate whatever the carry is (R73). -/
theorem shiftImmediate_value (rot : BitVec 4) (imm8 : BitVec 8) (cin : Bool) :
    (shiftImmediate rot imm8 cin).value = (imm8.setWidth 32).rotateRight (2 * rot.toNat) := by
  rw [shiftImmediate]; split <;> rfl

/-- Settles O12: a rotation of the zero-extended byte, and a carry that only rotation 0 takes from outside. -/
theorem immediateOperand : Obligations.ImmediateOperand := by
  refine fun rot imm8 cin => ⟨fun j hj => ?_, fun h => ?_, fun h => ?_⟩
  · have hin : (j + 2 * rot.toNat) % 32 < 32 := Nat.mod_lt _ (by decide)
    rw [shiftImmediate_value, getLsbD_rotateRight' _ _ _ hj, BitVec.getLsbD_setWidth, decide_eq_true hin, Bool.true_and]
  · rw [shiftImmediate, if_pos h]
  · rw [shiftImmediate, if_neg h]

/-! ## Shifts by an immediate amount -/

section
variable {amount5 : BitVec 5} (h : amount5 ≠ 0#5) (x : Word) (cin : Bool)
include h

theorem toNat_amount_ne_zero : amount5.toNat ≠ 0 := fun h0 => h (BitVec.eq_of_toNat_eq h0)

theorem shiftByAmount_lsl :
    shiftByAmount .lsl amount5 x cin = ⟨x <<< amount5.toNat, x.getLsbD (32 - amount5.toNat)⟩ :=
  if_neg (toNat_amount_ne_zero h)

theorem shiftByAmount_lsr :
    shiftByAmount .lsr amount5 x cin = ⟨x >>> amount5.toNat, x.getLsbD (amount5.toNat - 1)⟩ :=
  if_neg (toNat_amount_ne_zero h)

theorem shiftByAmount_asr :
    shiftByAmount .asr amount5 x cin = ⟨x.sshiftRight amount5.toNat, x.getLsbD (amount5.toNat - 1)⟩ :=
  if_neg (toNat_amount_ne_zero h)

theorem shiftByAmount_ror :
    shiftByAmount .ror amount5 x cin = ⟨x.rotateRight amount5.toNat, x.getLsbD (amount5.toNat - 1)⟩ :=
  if_neg (toNat_amount_ne_zero h)

end

/-- Settles O13: amount 0 by its special meanings (R74-R77), every other amount by the bits of the four shifts. -/
theorem shiftsByAmount : Obligations.ShiftsByAmount := by
  refine fun amount5 x cin => ⟨?_, fun h => ?_⟩
  · rintro rfl
    exact ⟨rfl, rfl, ⟨rfl, getLsbD_signFill x⟩, rfl, getLsbD_rrx x cin⟩
  · rw [shiftByAmount_lsl h, shiftByAmount_lsr h, shiftByAmount_asr h, shiftByAmount_ror h]
    exact ⟨rfl, rfl, rfl, rfl, fun j hj =>
      ⟨getLsbD_lsl x _ j hj, getLsbD_lsr x _ j, getLsbD_asr x _ j hj, getLsbD_rotateRight' x _ j hj⟩⟩

/-! ## Shifts by a register amount -/

section
variable {n : Nat} (x : Word) (cin : Bool)

/-- A rotation by a register amount is the one by its low five bits, where they are not 0 (R82). -/
theorem shiftByRegister_ror_eq_shiftByAmount (h : n % 32 ≠ 0) :
    shiftByRegister .ror n x cin = shiftByAmount .ror (BitVec.ofNat 5 n) x cin := by
  have h0 : n ≠ 0 := fun h0 => h (by rw [h0])
  rw [shiftByRegister, if_neg h0]
  exact (if_neg h).trans (if_neg h).symm

/-- A register amount of 1 to 31 shifts as the same immediate amount does. -/
theorem shiftByRegister_eq_shiftByAmount (ty : ShiftType) (h0 : n ≠ 0) (h : n < 32) :
    shiftByRegister ty n x cin = shiftByAmount ty (BitVec.ofNat 5 n) x cin := by
  have hmod : n % 32 = n := Nat.mod_eq_of_lt h
  have hn : (BitVec.ofNat 5 n).toNat = n := hmod
  cases ty
  case ror => exact shiftByRegister_ror_eq_shiftByAmount x cin (by rwa [hmod])
  case lsl | lsr | asr =>
    rw [shiftByRegister, if_neg h0, shiftByAmount, hn]
    exact (if_pos h).trans (if_neg h0).symm

/-- A rotation by a multiple of 32 that is not 0 leaves the value alone and takes its carry from bit 31 (R82). -/
theorem shiftByRegister_ror_of_mod_eq_zero (h0 : n ≠ 0) (h : n % 32 = 0) :
    shiftByRegister .ror n x cin = ⟨x, x.getLsbD 31⟩ := by
  rw [shiftByRegister, if_neg h0]
  exact if_pos h

/-- Logical shifts by more than 32 lose every bit (R79, R80). -/
theorem shiftByRegister_logical_of_lt {ty : ShiftType} (hty : ty = .lsl ∨ ty = .lsr) (h : 32 < n) :
    shiftByRegister ty n x cin = ⟨0#32, false⟩ := by
  have h0 : n ≠ 0 := by omega
  rcases hty with rfl | rfl <;> rw [shiftByRegister, if_neg h0] <;> exact (if_neg h.le.not_gt).trans (if_neg h.ne')

/-- Arithmetic right shifts by 32 or more leave copies of bit 31 (R81). -/
theorem shiftByRegister_asr_of_le (h : 32 ≤ n) :
    shiftByRegister .asr n x cin = ⟨signFill x, x.getLsbD 31⟩ := by
  rw [shiftByRegister, if_neg (by omega)]
  exact if_neg h.not_gt

end

/-- Settles O14: below 32, and for every rotation, by the shifts by an immediate amount; from 32 on, by what little is left. -/
theorem shiftsByRegister : Obligations.ShiftsByRegister := by
  refine fun n x cin _ => ⟨?_, fun h0 h => ?_, ?_, fun h => ?_, fun h => ?_, fun h0 h => ?_, fun h => ?_⟩
  · rintro rfl ty; rfl
  · have hn : (BitVec.ofNat 5 n).toNat = n := Nat.mod_eq_of_lt h
    have hne : BitVec.ofNat 5 n ≠ 0#5 := fun he => h0.ne' (hn.symm.trans (congrArg BitVec.toNat he))
    obtain ⟨-, hamount⟩ := shiftsByAmount (BitVec.ofNat 5 n) x cin
    obtain ⟨hlsl, hlsr, hasr, -, hbits⟩ := hamount hne
    rw [hn] at hlsl hlsr hasr hbits
    simp only [shiftByRegister_eq_shiftByAmount x cin _ h0.ne' h]
    exact ⟨hlsl, hlsr, hasr, fun j hj => have ⟨bl, br, ba, _⟩ := hbits j hj; ⟨bl, br, ba⟩⟩
  · rintro rfl; exact ⟨rfl, rfl⟩
  · exact ⟨shiftByRegister_logical_of_lt x cin (.inl rfl) h, shiftByRegister_logical_of_lt x cin (.inr rfl) h⟩
  · rw [shiftByRegister_asr_of_le x cin h]
    exact ⟨rfl, getLsbD_signFill x⟩
  · exact shiftByRegister_ror_of_mod_eq_zero x cin h0.ne' h
  · have hn : (BitVec.ofNat 5 n).toNat = n % 32 := rfl
    have hne : BitVec.ofNat 5 n ≠ 0#5 := fun he => h (hn.symm.trans (congrArg BitVec.toNat he))
    rw [shiftByRegister_ror_eq_shiftByAmount x cin h, shiftByAmount_ror hne, hn]
    exact ⟨rfl, fun j hj => (getLsbD_rotateRight' x _ j hj).trans (by rw [Nat.add_mod_mod])⟩

end Sys2Proof.Machine
end

section
/-! PROOFS. The statements about data processing (43_data_processing.md): the adder, the rows of the sixteen operations with a
destination other than R15, and with R15 the jump, the return, the restore of a compare and the restore that stops. -/

namespace Sys2Proof.Machine

/-! ## The adder -/

/-- All that the adder returns, against exact integers (R84). -/
theorem addWithCarry_eq (x y : Word) (cin : Bool) : addWithCarry x y cin =
    ⟨x + y + (if cin then 1#32 else 0#32), decide (2 ^ 32 ≤ x.toNat + y.toNat + cin.toNat),
      signedOverflow (x.toInt + y.toInt + bit cin)⟩ := by
  rw [← addWithCarry_res, ← addWithCarry_v]
  rfl

/-- An addition without a carry in. -/
theorem addWithCarry_false (x y : Word) : addWithCarry x y false =
    ⟨x + y, decide (2 ^ 32 ≤ x.toNat + y.toNat), signedOverflow (x.toInt + y.toInt)⟩ := by
  rw [addWithCarry_eq]
  simp [bit]

/-- All that the adder returns for a complement: a difference less the borrow, "no borrow", and signed overflow. -/
theorem addWithCarry_not_eq (x y : Word) (cin : Bool) : addWithCarry x (~~~y) cin =
    ⟨x - y - (if cin then 0#32 else 1#32), decide (y.toNat + 1 ≤ x.toNat + cin.toNat),
      signedOverflow (x.toInt - y.toInt - 1 + bit cin)⟩ := by
  rw [← addWithCarry_not_res, ← addWithCarry_not_c, ← addWithCarry_not_v]

/-- A subtraction without a borrow. -/
theorem addWithCarry_not_true (x y : Word) : addWithCarry x (~~~y) true =
    ⟨x - y, decide (y.toNat ≤ x.toNat), signedOverflow (x.toInt - y.toInt)⟩ := by
  rw [addWithCarry_not_eq]
  simp [bit]

/-- Settles O6: the sum, its carry and its sign rule are the definition's; the rest is the two equations for a complement. -/
theorem adderExact : Obligations.AdderExact := by
  refine fun x y cin => ⟨BitVec.toNat_ofNat .., decide_eq_true_iff, ?_, addWithCarry_v x y cin, ?_, ?_,
    addWithCarry_not_res x y cin⟩
  · simp [addWithCarry]
  · rw [addWithCarry_not_true]
  · rw [addWithCarry_not_true]
    exact decide_eq_true_iff

/-! ## The three rows of an operation -/

/-- The row of an operation with the second operand `op2`. -/
def dpRow (c : Cond) (op : DpOp) (rd rn : Reg) (st : Bool) (op2 : Operand2) : Instr :=
  .ofDecoded c (.dataProcessing op rd rn op2 st)

theorem cond_dpRow (c : Cond) (op : DpOp) (rd rn : Reg) (st : Bool) (op2 : Operand2) :
    (dpRow c op rd rn st op2).cond = c := Instr.cond_ofDecoded c _

/-- A row has all its fields, where a compare has S = 1 and a move has Rn = 0 (30_encoding.md R50). -/
theorem variant_dpRow (c : Cond) {op : DpOp} (rd : Reg) {rn : Reg} {st : Bool} (op2 : Operand2)
    (hcompare : op.isCompare = true → st = true) (hmove : op.isMove = true → rn = 0) :
    (dpRow c op rd rn st op2).variant = .dataProcessing op rd rn op2 st := by
  cases op
  case tst | teq | cmp | cmn => cases hcompare rfl; cases op2 <;> rfl
  case mov | mvn => cases hmove rfl; cases op2 <;> rfl
  all_goals cases op2 <;> rfl

/-- What holds of the row of every second operand holds of the three rows. -/
theorem eachForm_dpRow (op : DpOp) {c : Cond} {rd rn : Reg} {st : Bool} {P : Instr → Operand2 → Prop}
    (h : ∀ op2, P (dpRow c op rd rn st op2) op2) :
    EachForm (fun rot imm8 => dpRow c op rd rn st (.imm rot imm8))
      (fun amount5 ty rm => dpRow c op rd rn st (.regImm rm ty amount5))
      (fun rs ty rm => dpRow c op rd rn st (.regReg rm ty rs)) P :=
  ⟨fun _ _ => h _, fun _ _ _ => h _, fun _ _ _ => h _⟩

/-! ## Destination other than R15 -/

section
variable {c : Cond} {s : State} {m : Mode} {op : DpOp} {rd rn : Reg} {st : Bool} (op2 : Operand2) {res : Word}
  {carry overflow : Bool} (hr : Ready c s m) (hrd : rd ≠ 15)
include hr hrd

/-- The row of a logical operation that writes its result (R85). -/
theorem exec_dpRow_logical (hop : isArithmetic op = false ∧ op.isCompare = false) (hmove : op.isMove = true → rn = 0)
    (hres : (resultIn m op rn op2 s).res = res) :
    ∃ t, exec (dpRow c op rd rn st op2) s = .next t ∧ LogicalDone s t m rd op2 st res := by
  obtain ⟨hlogical, hcompare⟩ := hop
  have hvariant := variant_dpRow c rd (st := st) op2 (by simp [hcompare]) hmove
  have hdone := exec_logical _ op rd rn op2 st s m hvariant (by rwa [cond_dpRow]) hrd hcompare hlogical
  rwa [hres] at hdone

/-- The row of an arithmetic operation that writes its result (R86). -/
theorem exec_dpRow_arith (hop : isArithmetic op = true ∧ op.isCompare = false) (hmove : op.isMove = true → rn = 0)
    (hres : resultIn m op rn op2 s = ⟨res, carry, overflow⟩) :
    ∃ t, exec (dpRow c op rd rn st op2) s = .next t ∧ ArithDone s t m rd op2 st res carry overflow := by
  obtain ⟨harith, hcompare⟩ := hop
  have hvariant := variant_dpRow c rd (st := st) op2 (by simp [hcompare]) hmove
  have hdone := exec_arith _ op rd rn op2 st s m hvariant (by rwa [cond_dpRow]) hrd hcompare harith
  rwa [hres] at hdone

/-- The row of a compare (R97-R100), where `zero` says that the result is 0. -/
theorem exec_dpRow_compare {zero : Prop} [Decidable zero] (hop : op.isCompare = true) (hmove : op.isMove = true → rn = 0)
    (hres : resultIn m op rn op2 s = ⟨res, carry, overflow⟩) (hzero : res = 0#32 ↔ zero) :
    ∃ t, exec (dpRow c op rd rn true op2) s = .next t ∧
      CompareDone s t op2 (res.getLsbD 31) (decide zero) carry overflow := by
  have hvariant := variant_dpRow c rd (st := true) op2 (fun _ => rfl) hmove
  have hdone := exec_compare _ op rd rn op2 s m hvariant (by rwa [cond_dpRow]) hrd hop
  rwa [hres, decide_eq_decide.mpr hzero] at hdone

end

/-- Settles O25: the bitwise and of R89. -/
theorem andResult : Obligations.AndResult := fun _ _ _ _ _ _ hr hrd =>
  eachForm_dpRow .and fun op2 => exec_dpRow_logical op2 hr hrd ⟨rfl, rfl⟩ nofun rfl

/-- Settles O26: the exclusive or of R90. -/
theorem eorResult : Obligations.EorResult := fun _ _ _ _ _ _ hr hrd =>
  eachForm_dpRow .eor fun op2 => exec_dpRow_logical op2 hr hrd ⟨rfl, rfl⟩ nofun rfl

/-- Settles O27: the bitwise or of R101. -/
theorem orrResult : Obligations.OrrResult := fun _ _ _ _ _ _ hr hrd =>
  eachForm_dpRow .orr fun op2 => exec_dpRow_logical op2 hr hrd ⟨rfl, rfl⟩ nofun rfl

/-- Settles O28: the and with the complement of R103. -/
theorem bicResult : Obligations.BicResult := fun _ _ _ _ _ _ hr hrd =>
  eachForm_dpRow .bic fun op2 => exec_dpRow_logical op2 hr hrd ⟨rfl, rfl⟩ nofun rfl

/-- Settles O29: the second operand alone (R102), with an Rn field of 0. -/
theorem movResult : Obligations.MovResult := fun _ _ _ _ _ hr hrd =>
  eachForm_dpRow .mov fun op2 => exec_dpRow_logical op2 hr hrd ⟨rfl, rfl⟩ (fun _ => rfl) rfl

/-- Settles O30: the complement of the second operand alone (R104), with an Rn field of 0. -/
theorem mvnResult : Obligations.MvnResult := fun _ _ _ _ _ hr hrd =>
  eachForm_dpRow .mvn fun op2 => exec_dpRow_logical op2 hr hrd ⟨rfl, rfl⟩ (fun _ => rfl) rfl

/-- Settles O31: R91 is the adder on the complement of the second operand, carry in 1. -/
theorem subResult : Obligations.SubResult := fun _ _ _ _ _ _ hr hrd =>
  eachForm_dpRow .sub fun op2 => exec_dpRow_arith op2 hr hrd ⟨rfl, rfl⟩ nofun (addWithCarry_not_true _ _)

/-- Settles O32: R92 is the adder on the complement of the first operand, carry in 1. -/
theorem rsbResult : Obligations.RsbResult := fun _ _ _ _ _ _ hr hrd =>
  eachForm_dpRow .rsb fun op2 => exec_dpRow_arith op2 hr hrd ⟨rfl, rfl⟩ nofun (addWithCarry_not_true _ _)

/-- Settles O33: R93 is the adder with carry in 0. -/
theorem addResult : Obligations.AddResult := fun _ _ _ _ _ _ hr hrd =>
  eachForm_dpRow .add fun op2 => exec_dpRow_arith op2 hr hrd ⟨rfl, rfl⟩ nofun (addWithCarry_false _ _)

/-- Settles O34: R94 is the adder with carry in C. -/
theorem adcResult : Obligations.AdcResult := fun _ _ _ _ _ _ hr hrd =>
  eachForm_dpRow .adc fun op2 => exec_dpRow_arith op2 hr hrd ⟨rfl, rfl⟩ nofun (addWithCarry_eq _ _ _)

/-- Settles O35: R95 is the adder on the complement of the second operand, carry in C. -/
theorem sbcResult : Obligations.SbcResult := fun _ _ _ _ _ _ hr hrd =>
  eachForm_dpRow .sbc fun op2 => exec_dpRow_arith op2 hr hrd ⟨rfl, rfl⟩ nofun (addWithCarry_not_eq _ _ _)

/-- Settles O36: R96 is the adder on the complement of the first operand, carry in C. -/
theorem rscResult : Obligations.RscResult := fun _ _ _ _ _ _ hr hrd =>
  eachForm_dpRow .rsc fun op2 => exec_dpRow_arith op2 hr hrd ⟨rfl, rfl⟩ nofun (addWithCarry_not_eq _ _ _)

/-- Settles O37: the logical results of R97 and R98; the exclusive or is 0 when the operands are equal. -/
theorem tstTeqResult : Obligations.TstTeqResult := fun _ _ _ _ _ hr hrd =>
  ⟨eachForm_dpRow .tst fun op2 => exec_dpRow_compare op2 hr hrd rfl nofun rfl .rfl,
    eachForm_dpRow .teq fun op2 => exec_dpRow_compare op2 hr hrd rfl nofun rfl (xor_eq_zero_iff _ _)⟩

/-- Settles O38: the adder's results of R99 and R100; the difference is 0 when the operands are equal. -/
theorem cmpCmnResult : Obligations.CmpCmnResult := fun _ _ _ _ _ hr hrd =>
  ⟨eachForm_dpRow .cmp fun op2 =>
      exec_dpRow_compare op2 hr hrd rfl nofun (addWithCarry_not_true _ _) (sub_eq_zero_iff _ _),
    eachForm_dpRow .cmn fun op2 => exec_dpRow_compare op2 hr hrd rfl nofun (addWithCarry_false _ _) .rfl⟩

/-! ## Destination R15 -/

/-- Data processing that jumps under the status word `w` it leaves: the reload at its result. -/
theorem exec_dp_reloaded {i : Instr} {op : DpOp} {rn : Reg} {op2 : Operand2} {st : Bool} {s : State} {m : Mode} {w : Word}
    (hv : i.variant = .dataProcessing op 15 rn op2 st) (hc : op.isCompare = false) (hr : Ready i.cond s m)
    (hw : (if st then restoreStatus m (dpWritten m op 15 rn op2 st s) else .goOn (dpWritten m op 15 rn op2 st s)) =
      .goOn { dpWritten m op 15 rn op2 st s with cpsr := w })
    (hf : FetchOk s (resultIn m op rn op2 s).res (widthUnder w)) :
    ∃ t, exec i s = .next t ∧ t.cpsr = w ∧ RegsKept s t (fun _ => False) ∧ RestKept s t ∧
      Reloaded s t 0 (dpCalls op2) (resultIn m op rn op2 s).res := by
  have ⟨hspsr, htrace, hmem, hparams, hstatus⟩ := rest_dpWritten m op 15 rn op2 st s
  have hpc := (pc_dpWritten m op 15 rn op2 st s).trans (if_pos ⟨hc, rfl⟩)
  have hok : FetchOk { dpWritten m op 15 rn op2 st s with cpsr := w } (dpWritten m op 15 rn op2 st s).pc
      (widthUnder w) := by
    rw [hpc]
    exact hf.imp id fun h => by rwa [hparams]
  have hexec : exec i s = .next (State.reloaded { dpWritten m op 15 rn op2 st s with cpsr := w }) := by
    rw [exec_dp_ready m op rn op2 s i 15 st hv hr, dpFinish_15 _ _ _ _ _ hc, hw, Flow.andThen_goOn, reload_ok _ hok,
      Flow.final_goOn]
  exact ⟨_, hexec, rfl, jump_reloaded (fun k hk _ => getSlot_dpWritten_15 m op rn op2 s st k hk)
    ⟨hspsr, htrace, hmem, hparams, hstatus⟩ hpc (busIn_dpWritten ..) (busLog_dpWritten ..)⟩

/-- Settles O39: with S = 0 the jump is made under the status word as it was. -/
theorem dpJump : Obligations.DpJump := by
  intro i op rn op2 s m hv hc hr hf
  have hcpsr : (dpWritten m op 15 rn op2 false s).cpsr = s.cpsr := cpsr_dpWritten ..
  refine exec_dp_reloaded hv hc hr ?_ hf
  rw [← hcpsr]; rfl

/-- Settles O40: with S = 1 the jump is made under the restored status word, whose width is the saved word's. -/
theorem dpReturn : Obligations.DpReturn := by
  intro i op rn op2 s m hv hc hr hmode hf
  have hwidth : widthUnder (s.savedStatus m) = widthUnder ((dpWritten m op 15 rn op2 true s).savedStatus m) := by
    rw [widthUnder, widthUnder, t_savedStatus_dpWritten]
  obtain ⟨t, he, hcpsr, hkept⟩ :=
    exec_dp_reloaded hv hc hr (restoreStatus_dpWritten m op rn op2 s hmode) (hwidth ▸ hf)
  exact ⟨t, he, cpsrAfterRestore_dpWritten m op rn op2 s t hcpsr, hkept⟩

/-- With Rd = 15 and S = 1 a compare moves on after the restore (R87, C17). -/
theorem dpFinish_15_compare (m : Mode) {op : DpOp} (op2 : Operand2) (s : State) (hc : op.isCompare = true) :
    dpFinish m op 15 op2 true s =
      (restoreStatus m s).andThen fun s => .goOn (dpAdvance op2 { s with nk := .seq }) := by
  simp [dpFinish, hc]

/-- A compare writes nothing in the place its Rd field names. -/
theorem dpWritten_compare (m : Mode) {op : DpOp} (rd rd' rn : Reg) (op2 : Operand2) (st : Bool) (s : State)
    (hc : op.isCompare = true) : dpWritten m op rd rn op2 st s = dpWritten m op rd' rn op2 st s := by
  simp [dpWritten, dpWrite, hc]

/-- The PC advance does not look at CPSR. -/
theorem dpAdvance_setCpsr (op2 : Operand2) (s : State) (w : Word) (q : Seq) :
    dpAdvance op2 { s with cpsr := w, nk := q } = { dpAdvance op2 { s with nk := q } with cpsr := w } := by
  unfold dpAdvance
  split <;> rfl

/-- Settles O41: the compare's ordinary end, from the state with its status word restored. -/
theorem compareRestore : Obligations.CompareRestore := by
  intro i op rn op2 s m hv hc hr hmode
  have hexec : exec i s = .next { dpAdvance op2 { dpWritten m op 15 rn op2 true s with nk := .seq } with
      cpsr := (dpWritten m op 15 rn op2 true s).savedStatus m } := by
    rw [exec_dp_ready m op rn op2 s i 15 true hv hr, dpFinish_15_compare _ _ _ hc,
      restoreStatus_dpWritten m op rn op2 s hmode, Flow.andThen_goOn, Flow.final_goOn]
    exact congrArg Host.Outcome.next (dpAdvance_setCpsr op2 (dpWritten m op 15 rn op2 true s) _ .seq)
  have hend := dpEnd_moveOn m op 0 rn op2 true s (by decide)
  rw [← dpWritten_compare m 15 0 rn op2 true s hc] at hend
  obtain ⟨hpc, hnk, hin, hlog, hpipe, hrest⟩ := hend
  refine ⟨_, hexec, cpsrAfterRestore_dpWritten m op rn op2 s _ rfl, fun k hk _ => ?_, hpc, hnk, hin, hlog,
    ⟨hpipe.pipe0, hpipe.pipe1, hpipe.pipeValid⟩, ⟨hrest.spsr, hrest.trace, hrest.mem, hrest.params, hrest.status⟩⟩
  exact (getSlot_dpAdvance op2 _ _ k hk).trans (getSlot_dpWritten_15 m op rn op2 s true k hk)

/-- In a mode that CPSR encodes, a saved word without a mode is not CPSR, so the flag update does not reach it. -/
theorem savedStatus_dpWritten_of_invalid {m : Mode} {s : State} (op : DpOp) (rn : Reg) (op2 : Operand2)
    (hm : s.mode? = some m) (hmode : Cpsr.mode? (s.savedStatus m) = none) :
    (dpWritten m op 15 rn op2 true s).savedStatus m = s.savedStatus m := by
  have hcpsr : s.savedStatus m ≠ s.cpsr := fun he => by
    rw [he] at hmode
    exact Option.some_ne_none m (hm.symm.trans hmode)
  rw [savedStatus_dpWritten, if_neg]
  rintro (rfl | rfl) <;> exact hcpsr rfl

/-- Settles O42: the restore ends the step, with the register, CPSR and the idle turn of a register shift done before it. -/
theorem restoreInvalidMode : Obligations.RestoreInvalidMode := by
  intro i op rn op2 s m hv hr hmode
  have hsaved := savedStatus_dpWritten_of_invalid op rn op2 hr.1 hmode
  have hrestore : restoreStatus m (dpWritten m op 15 rn op2 true s) =
      .halt ({ dpWritten m op 15 rn op2 true s with cpsr := s.savedStatus m }.stopped (.fatal .invalidMode)) := by
    rcases restoreStatus_cases m (dpWritten m op 15 rn op2 true s) with ⟨_, h, _⟩ | ⟨_, h⟩ <;> rw [hsaved] at h
    · simp [hmode] at h
    · exact h
  have hexec : exec i s = .next
      ({ dpWritten m op 15 rn op2 true s with cpsr := s.savedStatus m }.stopped (.fatal .invalidMode)) := by
    rw [exec_dp_ready m op rn op2 s i 15 true hv hr, dpFinish, decide_eq_true rfl, Bool.true_and, if_pos rfl, hrestore,
      Flow.andThen_halt, Flow.final_halt]
  have hpc : (dpWritten m op 15 rn op2 true s).pc = if op.isCompare then
      (if isRegisterShift op2 then s.pc + 4#32 else s.pc) else (resultIn m op rn op2 s).res := by
    rw [pc_dpWritten]
    cases op.isCompare <;> simp
  have ⟨hspsr, htrace, hmem, hparams, _⟩ := rest_dpWritten m op 15 rn op2 true s
  have ⟨hpipe0, hpipe1, hvalid⟩ := pipe_dpWritten m op 15 rn op2 true s
  exact ⟨_, hexec, rfl, rfl, hpc, fun k hk _ => getSlot_dpWritten_15 m op rn op2 s true k hk, ⟨hpipe0, hpipe1, hvalid⟩,
    nk_dpWritten .., hmem, hspsr, htrace, hparams, busIn_dpWritten .., busLog_dpWritten ..⟩

end Sys2Proof.Machine
end

section
/-! PROOFS. The statements about the block transfers (44_block_transfer.md): the list and its addresses, the checks that stop
one, and what LDM and STM leave when none does. -/

namespace Sys2Proof.Machine

/-! ## The list and its addresses -/

/-- Settles O47: a list that is not empty has a set bit to count, and the address modes are the two cases of R106. -/
theorem blockListAndAddresses : Obligations.BlockListAndAddresses :=
  ⟨fun list => ⟨fun h => if_pos h, fun h => if_neg h, transferCount_eq _, transferCount_pos list, transferCount_le _⟩,
    fun _ _ => ⟨rfl, BitVec.add_zero _, BitVec.add_zero _, rfl, rfl, rfl⟩⟩

/-! ## The checks -/

/-- The checks of R113 in their order, as conditions on the fields and the parameters. -/
theorem blockCheck_eq (load sBit w : Bool) (rn : Reg) (eff : BitVec 16) (start : Word) (p : Params) :
    blockCheck load sBit w rn eff start p =
      if sBit = true ∧ p.blockSBit = .refuse then some (.refused .blockSBit)
      else if w = true ∧ rn = 15 then some (.fault .r15Writeback)
      else if w = true ∧ userBankTransfer load sBit eff = true then some (.fault .blockSBitWriteback)
      else if start.toNat % 4 ≠ 0 ∧ p.misalignedBlock = .fault then some (.fault .misalignedBlock)
      else none := by
  simp [blockCheck]

/-- A transfer of which a check fails ends with the status of that check, and with nothing else done. -/
theorem exec_block_stops (load : Bool) {c : Cond} {p u sBit w : Bool} {rn : Reg} {list : BitVec 16} {s : State} {m : Mode}
    {x : Status} (hr : Ready c s m)
    (h : blockCheck load sBit w rn (effectiveList list) (startIn m p u rn list s) s.params = some x) :
    exec (if load then .ldm c p u sBit w rn list else .stm c p u sBit w rn list) s = .next (s.stopped x) := by
  cases load
  · exact (exec_stm c p u sBit w rn list s m hr).trans (by rw [storeMultiple_stops m p u sBit w rn list s x h]; rfl)
  · exact (exec_ldm c p u sBit w rn list s m hr).trans (by rw [loadMultiple_stops m p u sBit w rn list s x h]; rfl)

/-- Settles O51: each premise passes over the checks before its own and takes that one. -/
theorem blockStops : Obligations.BlockStops := by
  intro load c p u sBit w rn list s m hr
  have passed : (sBit = true → s.params.blockSBit = .armV4) → ¬ (sBit = true ∧ s.params.blockSBit = .refuse) :=
    fun h ⟨hs, hrefuse⟩ => by simp [h hs] at hrefuse
  refine ⟨fun h => ?_, fun ⟨h1, h2⟩ => ?_, fun ⟨h1, hw, h2, h3⟩ => ?_, fun ⟨h1, h2, h3, h4⟩ => ?_⟩ <;>
    apply exec_block_stops load hr <;> rw [blockCheck_eq]
  · rw [if_pos h]
  · rw [if_neg (passed h1), if_pos h2]
  · rw [if_neg (passed h1), if_neg fun h => h2 h.2, if_pos ⟨hw, h3⟩]
  · rw [if_neg (passed h1), if_neg fun h => h2 h.1 h.2, if_neg fun h => by simp [h3 h.1] at h, if_pos h4]

/-! ## LDM -/

/-- The word an LDM run in `s` loads into R15 (44_block_transfer.md R107, R109). -/
def loadedPc (m : Mode) (p u : Bool) (rn : Reg) (list : BitVec 16) (s : State) : Word :=
  s.nthWordAnswer (position (effectiveList list) 15)
    (blockAddr (startIn m p u rn list s) (position (effectiveList list) 15))

/-- The state of an LDM from the current bank after its idle turn, with `cpsr` in the status word: what the reload at its end
starts from, or an invalid restored mode stops (44_block_transfer.md R111). -/
def loadIdle (m : Mode) (p u w : Bool) (rn : Reg) (list : BitVec 16) (s : State) (cpsr : Word) : State :=
  { (loadDone m m p u w rn list s).busIdle with cpsr := cpsr }

/-- The saved status words and CPSR decide the saved status. -/
theorem State.savedStatus_congr {s t : State} (m : Mode) (hspsr : t.spsr = s.spsr) (hcpsr : t.cpsr = s.cpsr) :
    t.savedStatus m = s.savedStatus m := by
  simp only [State.savedStatus, hspsr, hcpsr]

section
variable {c : Cond} {p u sBit w : Bool} {rn : Reg} {list : BitVec 16} {s : State} {m : Mode}

theorem params_loadIdle (cpsr : Word) : (loadIdle m p u w rn list s cpsr).params = s.params := (kept_loadDone ..).params

theorem busLog_busIdle_loadDone (bank : Mode) : (loadDone m bank p u w rn list s).busIdle.busLog =
    s.busLog ++ loadCalls (startIn m p u rn list s) (transferCount (effectiveList list)) ++ [.idle] := by
  rw [State.busIdle_busLog, busLog_loadDone]

theorem savedStatus_loadDone : (loadDone m m p u w rn list s).busIdle.savedStatus m = s.savedStatus m :=
  have h := kept_loadDone m m p u w rn list s
  State.savedStatus_congr m h.spsr h.cpsr

/-- The end of a load with R15 in its list. -/
theorem finishLoad_jump (m : Mode) (sBit : Bool) (s : State) : finishLoad m sBit true s =
    (if sBit then restoreStatus m s.busIdle else .goOn s.busIdle).andThen reload := rfl

variable (hr : Ready c s m) (hok : BlockOk true m p u sBit w rn list s)
include hok

/-- A transfer with a writeback uses the current bank (R113 check 3). -/
theorem transferMode_of_ok : transferMode true sBit (effectiveList list) m = m ∨ w = false := by
  have ⟨_, _, hbank, _⟩ := hok
  cases w
  · exact .inr rfl
  · exact .inl (by simp [transferMode, hbank rfl])

/-- What an LDM has done by the end of its idle turn, whatever status word and status are written then. -/
theorem loadIdle_stopped (cpsr : Word) (x : Status) :
    let t := (loadIdle m p u w rn list s cpsr).stopped x
    Loaded s t m m p u w rn list ∧ PipeKept s t ∧ t.mem = s.mem ∧ t.spsr = s.spsr ∧
      t.trace = s.trace ∧ t.params = s.params ∧ t.nk = s.nk ∧
      t.busIn = s.busIn.drop (transferCount (effectiveList list)) ∧
      t.busLog = s.busLog ++ loadCalls (startIn m p u rn list s) (transferCount (effectiveList list)) ++ [.idle] := by
  have ⟨_, hrn, _, _⟩ := hok
  have ⟨_, hspsr, ⟨hpipe0, hpipe1, hvalid⟩, hnk, _, htrace, hparams⟩ := kept_loadDone m m p u w rn list s
  exact ⟨loaded_loadDone m m p u w rn list s _ (.inl rfl) hrn fun _ _ => rfl, ⟨hpipe0, hpipe1, hvalid⟩, mem_loadDone ..,
    hspsr, htrace, hparams, hnk, busIn_loadDone .., busLog_busIdle_loadDone m⟩

/-- R15 holds its loaded word before the reload. -/
theorem pc_loadIdle (h15 : (effectiveList list).getLsbD 15 = true) (cpsr : Word) :
    (loadIdle m p u w rn list s cpsr).pc = loadedPc m p u rn list s := by
  have ⟨_, hrn, _, _⟩ := hok
  exact (pc_loadDone m m p u w rn list s hrn).trans (if_pos h15)

include hr

/-- An LDM that passes the checks is the walk, the writeback and the end of R111. -/
theorem exec_ldm_ok : exec (.ldm c p u sBit w rn list) s =
    .next (finishLoad m sBit ((effectiveList list).getLsbD 15)
      (loadDone m (transferMode true sBit (effectiveList list) m) p u w rn list s)).final := by
  rw [exec_ldm c p u sBit w rn list s m hr, loadMultiple_ok m p u sBit w rn list s (blockCheck_ok _ _ _ _ _ _ _ _ _ hok)]

/-- An LDM without R15 ends with the idle turn and the PC advance; S = 1 gives it the user bank. -/
theorem exec_ldm_advance (h15 : (effectiveList list).getLsbD 15 = false) : exec (.ldm c p u sBit w rn list) s =
    .next { (loadDone m (if sBit then .user else m) p u w rn list s).busIdle with nk := .seq }.advancePC := by
  rw [exec_ldm_ok hr hok, transferMode, userBankTransfer, h15, Bool.and_false, Bool.not_false, Bool.and_true]
  rfl

variable (h15 : (effectiveList list).getLsbD 15 = true)
include h15

/-- An LDM with R15 works on the current bank, and restores the status word when S = 1. -/
theorem exec_ldm_jump : exec (.ldm c p u sBit w rn list) s =
    .next ((if sBit then restoreStatus m (loadDone m m p u w rn list s).busIdle
      else .goOn (loadDone m m p u w rn list s).busIdle).andThen reload).final := by
  rw [exec_ldm_ok hr hok, transferMode, userBankTransfer, h15, Bool.and_true, Bool.not_true, Bool.and_false,
    finishLoad_jump]
  rfl

/-- A restore of a valid mode, or none, goes on to the reload. -/
theorem exec_ldm_reload (hmode : sBit = true → (Cpsr.mode? (s.savedStatus m)).isSome = true) :
    exec (.ldm c p u sBit w rn list) s =
      .next (reload (loadIdle m p u w rn list s (if sBit then s.savedStatus m else s.cpsr))).final := by
  rw [exec_ldm_jump hr hok h15]
  cases sBit
  · rw [← (kept_loadDone m m p u w rn list s).cpsr]; rfl
  · rcases restoreStatus_cases m (loadDone m m p u w rn list s).busIdle with ⟨_, _, he⟩ | ⟨hnone, _⟩
    · rw [if_pos rfl, he, savedStatus_loadDone]; rfl
    · rw [savedStatus_loadDone] at hnone
      simp [hnone] at hmode

/-- A restore of an invalid mode ends the step. -/
theorem exec_ldm_invalidMode (hs : sBit = true) (hmode : Cpsr.mode? (s.savedStatus m) = none) :
    exec (.ldm c p u sBit w rn list) s =
      .next ((loadIdle m p u w rn list s (s.savedStatus m)).stopped (.fatal .invalidMode)) := by
  rw [exec_ldm_jump hr hok h15, if_pos hs]
  rcases restoreStatus_cases m (loadDone m m p u w rn list s).busIdle with ⟨_, hsome, _⟩ | ⟨_, he⟩
  · rw [savedStatus_loadDone, hmode] at hsome
    cases hsome
  · rw [he, savedStatus_loadDone]; rfl

end

/-- Settles O48: the load's walk and writeback, its idle turn and the PC advance. -/
theorem ldmResult : Obligations.LdmResult := by
  intro c p u sBit w rn list s m hr hok h15
  have ⟨_, hrn, _, _⟩ := hok
  have hbank : (if sBit then .user else m) = m ∨ w = false := by
    simpa [transferMode, userBankTransfer, -BitVec.getLsbD_eq_getElem, h15] using transferMode_of_ok hok
  have hexec := exec_ldm_advance hr hok h15
  generalize (if sBit then Mode.user else m) = bank at hexec hbank ⊢
  have ⟨hcpsr, hspsr, ⟨hpipe0, hpipe1, hvalid⟩, _, hstatus, htrace, hparams⟩ := kept_loadDone m bank p u w rn list s
  have hpc : (loadDone m bank p u w rn list s).pc = s.pc :=
    (pc_loadDone m bank p u w rn list s hrn).trans (if_neg (ne_true_of_eq_false h15))
  exact ⟨_, hexec, loaded_loadDone m bank p u w rn list s _ hbank hrn fun k hk => State.getSlot_advancePC _ k hk, hcpsr,
    ⟨hspsr, htrace, mem_loadDone .., hparams, hstatus⟩, ⟨hpipe0, hpipe1, hvalid⟩, congrArg (· + 4#32) hpc, rfl,
    busIn_loadDone .., busLog_busIdle_loadDone bank⟩

/-- Settles O49: the reload at the loaded word, under the status word that S = 1 restores. -/
theorem ldmJump : Obligations.LdmJump := by
  intro c p u sBit w rn list s m hr hok h15 hmode hf
  have ⟨_, hrn, _, _⟩ := hok
  have ⟨_, hspsr, _, _, hstatus, htrace, hparams⟩ := kept_loadDone m m p u w rn list s
  have hmem : (loadDone m m p u w rn list s).mem = s.mem := mem_loadDone ..
  have hexec := exec_ldm_reload hr hok h15 hmode
  generalize (if sBit then s.savedStatus m else s.cpsr) = cpsr at hexec hf ⊢
  have hpc := pc_loadIdle hok h15 cpsr
  have hfetch : FetchOk (loadIdle m p u w rn list s cpsr) (loadIdle m p u w rn list s cpsr).pc (widthUnder cpsr) := by
    rw [hpc]
    exact hf.imp id fun h => by rwa [params_loadIdle]
  rw [reload_ok _ hfetch, Flow.final_goOn] at hexec
  exact ⟨_, hexec, loaded_loadDone m m p u w rn list s _ (.inl rfl) hrn fun k hk => State.getSlot_reloaded _ k hk, rfl,
    ⟨hspsr, htrace, hmem, hparams, hstatus⟩, reloaded_reloaded s _ _ _ _ hpc (busIn_loadDone ..)
      ((busLog_busIdle_loadDone m).trans (List.append_assoc ..)) hmem hparams⟩

/-- Settles O52: the restore and the reload each stop the state that the idle turn leaves. -/
theorem ldmJumpStops : Obligations.LdmJumpStops := by
  intro c p u sBit w rn list s m hr hok h15
  refine ⟨fun hs hmode => ?_, fun hmode hf => ?_⟩
  · exact ⟨_, exec_ldm_invalidMode hr hok h15 hs hmode, rfl, pc_loadIdle hok h15 (s.savedStatus m), rfl,
      loadIdle_stopped hok (s.savedStatus m) _⟩
  · have hexec := exec_ldm_reload hr hok h15 hmode
    generalize (if sBit then s.savedStatus m else s.cpsr) = cpsr at hexec hf ⊢
    have hpc := pc_loadIdle hok h15 cpsr
    have hfetch : FetchStops (loadIdle m p u w rn list s cpsr) (loadIdle m p u w rn list s cpsr).pc (widthUnder cpsr) := by
      rw [hpc]
      exact hf.imp id fun h => by rwa [params_loadIdle]
    rw [reload_stops _ hfetch, Flow.final_halt] at hexec
    exact ⟨_, hexec, rfl, hpc, rfl, loadIdle_stopped hok cpsr _⟩

/-! ## STM -/

section
variable (m : Mode) (p u sBit w : Bool) (rn : Reg) (list : BitVec 16) (s : State)

/-- The state of an STM after its walk: the values of R108 stand in memory from the start address on, and the writes are on
record (44_block_transfer.md R107). -/
def stored : State :=
  { s with
    mem := storeWords s.params.byteOrder ((listed (effectiveList list)).map (stmValue m u sBit w rn list s))
      (startIn m p u rn list s) s.mem
    busLog := s.busLog ++ storeCalls m p u sBit w rn list s }

/-- What the walk of an STM run in `s` reads its values from. -/
def storeContextIn : StoreContext :=
  ⟨transferMode false sBit (effectiveList list) m, rn, w, effectiveList list, s.reg m rn, writebackIn m u rn list s⟩

/-- The walk writes each register's value at its position in the list. -/
theorem storeWalk_stored : storeWalk (storeContextIn m u sBit w rn list s) (listed (effectiveList list))
    (startIn m p u rn list s) .nonSeq s = stored m p u sBit w rn list s := by
  have hvalue : ∀ i ∈ listed (effectiveList list),
      storedValue (storeContextIn m u sBit w rn list s) i s = stmValue m u sBit w rn list s i :=
    fun i hi => storedValue_eq m u sBit w rn list s i ((mem_listed _ i).mp hi)
  have hcalls : (listed (effectiveList list)).zipIdx.map (fun x => BusCall.writeWord
      (blockAddr (startIn m p u rn list s) x.2) (storedValue (storeContextIn m u sBit w rn list s) x.1 s)
      (walkKind .nonSeq x.2)) = storeCalls m p u sBit w rn list s :=
    (zipIdx_listed (effectiveList list) fun i k => BusCall.writeWord (blockAddr (startIn m p u rn list s) k)
      (storedValue (storeContextIn m u sBit w rn list s) i s) (walkKind .nonSeq k)).trans
      (List.map_congr_left fun i hi => congrArg (BusCall.writeWord _ · _) (hvalue i hi))
  rw [storeWalk_eq, hcalls, List.map_congr_left hvalue, stored]

/-- After the walk the base is written back when W = 1 (R110). -/
theorem storeDone_eq : storeDone m p u sBit w rn list s =
    if w then (stored m p u sBit w rn list s).setReg m rn (writebackIn m u rn list s)
    else stored m p u sBit w rn list s := by
  rw [← storeWalk_stored]
  rfl

/-- What an STM leaves alone before its last two steps. -/
theorem kept_storeDone : WalkKept s (storeDone m p u sBit w rn list s) := by
  rw [storeDone_eq]
  split <;> exact ⟨rfl, rfl, ⟨rfl, rfl, rfl⟩, rfl, rfl, rfl, rfl⟩

theorem busIn_storeDone : (storeDone m p u sBit w rn list s).busIn = s.busIn := by
  rw [storeDone_eq]
  split <;> rfl

theorem busLog_storeDone :
    (storeDone m p u sBit w rn list s).busLog = s.busLog ++ storeCalls m p u sBit w rn list s := by
  rw [storeDone_eq]
  split <;> rfl

theorem mem_storeDone : (storeDone m p u sBit w rn list s).mem =
    storeWords s.params.byteOrder ((listed (effectiveList list)).map (stmValue m u sBit w rn list s))
      (startIn m p u rn list s) s.mem := by
  rw [storeDone_eq]
  split <;> rfl

/-- The base register is the only one an STM writes before the PC advance. -/
theorem getSlot_storeDone (k : Slot) : (storeDone m p u sBit w rn list s).getSlot k =
    if w = true ∧ k = slot m rn then writebackIn m u rn list s else s.getSlot k := by
  have hstored : (stored m p u sBit w rn list s).getSlot k = s.getSlot k := rfl
  rw [storeDone_eq, ← hstored]
  cases w
  · simp
  · simp [State.setReg_eq, State.getSlot_setSlot]

/-- An STM that passes the checks is the walk, the writeback and the PC advance, with NK = N_CODE. -/
theorem exec_stm_ok {c : Cond} (hr : Ready c s m) (hok : BlockOk false m p u sBit w rn list s) :
    exec (.stm c p u sBit w rn list) s =
      .next { storeDone m p u sBit w rn list s with nk := .nonSeq }.advancePC := by
  rw [exec_stm c p u sBit w rn list s m hr, storeMultiple_ok m p u sBit w rn list s (blockCheck_ok _ _ _ _ _ _ _ _ _ hok),
    Flow.final_goOn]

variable (hwf : s.mem.wf = true)
include hwf

/-- Every value of an STM reads back at its place: no later word of the block overlaps it. -/
theorem readWord_storeDone (i : Reg) (hi : (effectiveList list).getLsbD i.val = true) :
    (storeDone m p u sBit w rn list s).mem.readWord s.params.byteOrder
      (blockAddr (startIn m p u rn list s) (position (effectiveList list) i)) = stmValue m u sBit w rn list s i := by
  rw [mem_storeDone]
  apply storeWords_readWord _ _ _ _ hwf
  · rw [List.length_map]
    exact transferCount_le _
  · rw [List.getElem?_map, listed_getElem? _ i hi]
    rfl

/-- A byte outside the block is kept. -/
theorem read_storeDone_of_ne (a : Nat) (ha : ∀ k, k < transferCount (effectiveList list) → ∀ j, j < 4 →
    a ≠ byteAddr (blockAddr (startIn m p u rn list s) k) j) :
    (storeDone m p u sBit w rn list s).mem.read a = s.mem.read a := by
  rw [mem_storeDone]
  refine storeWords_other _ _ _ _ hwf a fun k hk => ha k ?_
  rwa [List.length_map] at hk

end

/-- Settles O50: the walk's block in memory, the writeback, and the PC advance. -/
theorem stmResult : Obligations.StmResult := by
  intro c p u sBit w rn list s m hr hok hwf
  have ⟨_, hrn, _, _⟩ := hok
  have hne : w = true → slot m rn ≠ .pc := fun hw h => hrn hw ((slot_eq_pc_iff m rn).mp h)
  have hslot := getSlot_storeDone m p u sBit w rn list s
  have ⟨hcpsr, hspsr, ⟨hpipe0, hpipe1, hvalid⟩, _, hstatus, htrace, hparams⟩ := kept_storeDone m p u sBit w rn list s
  have hpc : (storeDone m p u sBit w rn list s).pc = s.pc :=
    (hslot .pc).trans (if_neg fun ⟨hw, h⟩ => hne hw h.symm)
  refine ⟨_, exec_stm_ok m p u sBit w rn list s hr hok, readWord_storeDone m p u sBit w rn list s hwf,
    read_storeDone_of_ne m p u sBit w rn list s hwf, fun hw => ?_, fun k hk hn => ?_, hcpsr, hspsr, htrace, hparams, hstatus,
    ⟨hpipe0, hpipe1, hvalid⟩, busIn_storeDone .., congrArg (· + 4#32) hpc, rfl, busLog_storeDone ..⟩
  · exact (State.getSlot_advancePC _ _ (hne hw)).trans ((hslot _).trans (if_pos ⟨hw, rfl⟩))
  · exact (State.getSlot_advancePC _ k hk).trans ((hslot k).trans (if_neg hn))

end Sys2Proof.Machine
end

section
/-! PROOFS. The statements about stops and modes (60_exceptions.md): every step answers a next state, and none leaves User or System
mode. -/

namespace Sys2Proof.Machine

/-! ## No way out of User and System mode -/

/-- Settles O56: whatever evolves the machine keeps a User or System mode and bits 27:6 of CPSR, since the only operation that
writes a whole status word, the restore, writes CPSR back on itself there (10_state.md R16, 60_exceptions.md R122). -/
theorem userModeStays : Obligations.UserModeStays := by
  intro s t m hm hs h
  rcases step_evolves h with ⟨stopped, _⟩ | ⟨u, fetched, _, ⟨i, hi⟩ | ⟨w, a, rfl⟩⟩
  · exact stopped.user m hm hs
  · exact (fetched.trans (exec_evolves i u t hi)).user m hm hs
  · exact fetched.user m hm hs

/-! ## Every step answers -/

/-- After the fetch a step answers: by its instruction, or by the report of an unrecognized word. -/
theorem State.execute_answers (s : State) (w : Word) : ∃ t, s.execute w = .next t := by
  cases h : decode s.params.compareRdCheck w with
  | ok i => exact State.execute_ok h ▸ exec_answers i s
  | error e => exact ⟨_, State.execute_error h⟩

/-- Before the decoder a step ends with a state of its own, or hands one on. -/
theorem step_answers (s : State) : ∃ t, step s = .next t := by
  rw [step_retire]
  cases retire s with
  | error t => exact ⟨t, rfl⟩
  | ok wu => exact wu.2.execute_answers wu.1

/-- Settles O22: every instruction is a body behind the condition check, whose three ends are next states, and so are the ends of a
step before and at the decoder. -/
theorem alwaysAnswers : Obligations.AlwaysAnswers := ⟨exec_answers, step_answers⟩

end Sys2Proof.Machine
end

section
/-! PROOFS. The statements about the first step and the ends of a run (70_reset_and_hazards.md R130, R137): both are about a step
that executes a B, so what such a step does is said once. -/

namespace Sys2Proof.Machine

/-! ## A step that executes a B -/

/-- Two words further on an address is aligned for a fetch exactly when it was before. -/
theorem fetchOk_add_8 (s : State) (a : Word) : FetchOk s (a + 8#32) 4 ↔ FetchOk s a 4 := by
  have hmod : (a + 8#32).toNat % 4 = a.toNat % 4 := by
    have := a.isLt
    simp only [BitVec.toNat_add, BitVec.toNat_ofNat]
    omega
  rw [FetchOk, hmod]

/-- The word a step takes stands at an address that R15 is aligned with (10_state.md R19). -/
theorem fetchOk_nextAddress {s : State} (hf : FetchOk s s.pc 4) : FetchOk s s.nextAddress 4 := by
  rw [State.nextAddress]
  split
  · rwa [← fetchOk_add_8, BitVec.sub_add_cancel]
  · exact hf

/-- What a step from `s` has done when it executes a B to `target` (41_branch.md R69): the reads before the decoder, the reload at
the target, nothing else. -/
structure Branched (s t : State) (target : Word) : Prop where
  regs : RegsKept s t fun _ => False
  filled : s.pipeValid = true → t.regs = s.regs.set .pc (target + 8#32)
  cpsr : t.cpsr = s.cpsr
  rest : RestKept s t
  reload : ReloadedArm s t s.stepReads.length s.stepReads target

/-- The reload at the target, from the state the word is executed in. -/
theorem Retired.branched {s u : State} (h : Retired s u) (ht : Cpsr.t s.cpsr = false) (target : Word) :
    Branched s (u.setPc target).reloaded target := by
  have hreload : ReloadedArm s (u.setPc target).reloaded s.stepReads.length s.stepReads target :=
    reloadedArm_reloaded s _ _ _ target (h.cpsr ▸ ht) rfl h.busIn h.busLog h.rest.mem h.rest.params
  refine ⟨fun k hk hn => ?_, fun hv => ?_, h.cpsr, ⟨h.rest.spsr, h.rest.trace, h.rest.mem, h.rest.params, h.rest.status⟩,
    hreload⟩
  · rw [State.getSlot_reloaded _ k hk, State.getSlot_setPc _ k _ hk, h.regs k hk hn]
  · have hregs : (u.setPc target).reloaded.regs = u.regs.set .pc (u.setPc target).reloaded.pc := rfl
    rw [hregs, hreload.pc, h.filled hv]

/-- A step that takes a B whose condition holds, with a filled or an empty pipeline, branches relative to the address the B stands
at. -/
theorem step_branch {s : State} {c : Cond} {o : BitVec 24} {target : Word} (ho : StepOpen s) (hf : FetchOk s s.pc 4)
    (hd : decode s.params.compareRdCheck s.nextWord = .ok (.b c o)) (hc : condHolds c s.cpsr = true)
    (htarget : s.nextAddress + 8#32 + branchDisplacement o = target) (hft : FetchOk s target 4) :
    ∃ t, step s = .next t ∧ Branched s t target := by
  have ⟨_, harm, hmode⟩ := ho
  obtain ⟨m, hm⟩ := Option.isSome_iff_exists.mp hmode
  obtain ⟨u, hretire, hu⟩ := retire_open s ho hf
  have hready : Ready c u m := by rw [Ready, State.mode?, hu.cpsr]; exact ⟨hm, hc⟩
  have hwidth : (u.setPc target).codeWidth = 4 := by simp [State.codeWidth, hu.cpsr, harm]
  have hfetch : FetchOk (u.setPc target) (u.setPc target).pc (u.setPc target).codeWidth := by
    rw [hwidth, State.pc_setPc]
    exact hft.imp id fun h => hu.rest.params ▸ h
  have hstep : step s = u.execute s.nextWord := by rw [step_retire, hretire]
  have hexec : u.execute s.nextWord = .next (u.setPc target).reloaded := by
    rw [State.execute_ok (hu.rest.params ▸ hd), exec_b c o u m hready, branchTo, hu.pc, htarget, reload_ok _ hfetch,
      Flow.final_goOn]
  exact ⟨_, hstep.trans hexec, hu.branched harm target⟩

/-! ## The first step -/

/-- Settles O24: a step with an empty pipeline that executes a B from address 0 to address 0x10. -/
theorem firstStep : Obligations.FirstStep := by
  intro mem hmem
  have harm : Cpsr.t State.reset.cpsr = false := by decide
  have hopen : StepOpen { State.reset with mem := mem } :=
    ⟨rfl, harm, congrArg Option.isSome (State.mode?_construct Params.standard)⟩
  have hword : ({ State.reset with mem := mem } : State).nextWord = 0xEA000002#32 := hmem
  have hdecode : decode .any 0xEA000002#32 = .ok (.b .always 2#24) := decode_of_encode_eq rfl rfl
  have htarget : 0#32 + 8#32 + branchDisplacement 2#24 = 0x10#32 := by decide
  obtain ⟨t, hstep, hb⟩ := step_branch hopen (.inl rfl) (hword ▸ hdecode) rfl htarget (.inl rfl)
  exact ⟨t, hstep, hb.reload.busLog, hb.reload.pc, hb.reload.pipe0, hb.reload.pipe1, hb.reload.pipeValid, hb.reload.nk,
    hb.cpsr, fun k hk => (hb.regs k hk not_false).trans (RegFile.get_zero k), hb.rest.spsr, hb.rest.status, hb.rest.trace,
    hb.rest.mem, hb.reload.busIn, hb.rest.params⟩

/-! ## The ends of a run -/

/-- `B .` branches to the address it stands at. -/
theorem step_selfBranch {s : State} (h : AtSelfBranch s) : ∃ t, step s = .next t ∧ Branched s t s.nextAddress := by
  obtain ⟨ho, hf, c, hd, hc⟩ := h
  have htarget : s.nextAddress + 8#32 + branchDisplacement 0xFFFFFE#24 = s.nextAddress := by
    rw [(branchDisplacement_self _ _).mpr rfl, BitVec.add_sub_cancel]
  exact step_branch ho hf hd hc htarget (fetchOk_nextAddress hf)

/-- With a filled pipeline R15 is two words ahead of the branch already, so no register changes. -/
theorem Branched.regs_self {s t : State} (h : Branched s t s.nextAddress) (hv : s.pipeValid = true) : t.regs = s.regs := by
  rw [h.filled hv, State.nextAddress, if_pos hv, BitVec.sub_add_cancel]
  rfl

/-- The next step executes `B .` again, when the reload has read the word that the step ran. -/
theorem Branched.atSelfBranch {s t : State} (h : Branched s t s.nextAddress) (hs : AtSelfBranch s)
    (hw : s.nthWordAnswer s.stepReads.length s.nextAddress = s.nextWord) : AtSelfBranch t := by
  obtain ⟨⟨hrun, harm, hmode⟩, hf, c, hd, hc⟩ := hs
  have hword : t.nextWord = s.nextWord := by rw [State.nextWord, if_pos h.reload.pipeValid, h.reload.pipe0, hw]
  have hopen : StepOpen t := by
    rw [StepOpen, State.mode?, h.rest.status, h.cpsr]
    exact ⟨hrun, harm, hmode⟩
  have hfetch : FetchOk t t.pc 4 := by
    rw [h.reload.pc, fetchOk_add_8, FetchOk, h.rest.params]
    exact fetchOk_nextAddress hf
  exact ⟨hopen, hfetch, c, by rw [hword, h.rest.params, hd], h.cpsr ▸ hc⟩

/-- How a run can be over: out of fuel, or by its last step. -/
theorem run_cases {fuel : Nat} {s t : State} {e : RunEnd} (h : run fuel s = (e, t)) :
    e = .outOfFuel ∨ (e = .stopped ∧ t.status ≠ .running) ∨
      (e = .normal ∧ t.status = .running ∧ ∃ u, AtSelfBranch u ∧ step u = .next t) := by
  induction fuel generalizing s with
  | zero => cases h; exact .inl rfl
  | succ fuel ih =>
    obtain ⟨s', hstep⟩ := step_answers s
    rw [run_succ fuel s s' hstep] at h
    split_ifs at h with hstopped hself
    · cases h
      exact .inr (.inl ⟨rfl, hstopped⟩)
    · cases h
      exact .inr (.inr ⟨rfl, not_not.mp hstopped, s, (executesSelfBranch_iff s).mp hself, hstep⟩)
    · exact ih h

/-- Settles O59: (a) by what `B .` does, (b) and (c) by what one step of a run does, and the converses by the ways a run
can be over. -/
theorem selfBranchIsTheEnd : Obligations.SelfBranchIsTheEnd := by
  refine ⟨fun s hs => ?_, fun fuel s t h => ?_, fun fuel s t hstep hst => ?_, fun fuel s t h => ?_, fun s => rfl,
    fun fuel s t hstep hrun hn => ?_⟩
  · obtain ⟨t, hstep, hb⟩ := step_selfBranch hs
    have ⟨⟨hrunning, _⟩, _⟩ := hs
    have hrun : t.status = .running := hb.rest.status.trans hrunning
    refine ⟨t, hstep, hb.regs, hb.cpsr, hb.rest, hb.reload, hb.regs_self, fun fuel => ?_, hb.atSelfBranch hs⟩
    rw [run_succ fuel s t hstep, if_neg (not_not.mpr hrun), if_pos ((executesSelfBranch_iff s).mpr hs)]
  · rcases run_cases h with he | ⟨he, _⟩ | ⟨_, hend⟩
    · cases he
    · cases he
    · exact hend
  · rw [run_succ fuel s t hstep, if_pos hst]
  · rcases run_cases h with he | ⟨_, hst⟩ | ⟨he, _⟩
    · cases he
    · exact hst
    · cases he
  · rw [run_succ fuel s t hstep, if_neg (not_not.mpr hrun), if_neg (mt (executesSelfBranch_iff s).mp hn)]

end Sys2Proof.Machine
end
